-- ==== Sys2Proof/Word.lean ====
section
/-! DEFINITION. The word types of LLRD (00_scope.md R11, R22; 10_state.md R32). -/

namespace Sys2Proof

/-- One byte of BUF (20_memory.md R70). -/
abbrev Byte := BitVec 8

/-- A 16-bit sample or bound, `int16` when read as two's complement (00_scope.md R11). -/
abbrev Half := BitVec 16

/-- A descriptor word, a CSR or a BUF byte address (10_state.md R32, 30_encoding.md R100). -/
abbrev Word := BitVec 32

/-- The bit pattern of an IEEE 754 binary32 value (43_cholesky.md R234). -/
abbrev F32 := BitVec 32

end Sys2Proof
end

