-- ==== Sys2Proof/Config.lean ====
section
/-! DEFINITION. What one build of LLRD fixes (00_scope.md R8), and the values the spec leaves open. -/

namespace Sys2Proof.Config

/-- The eight data-lane masks of `DMRS_SEL` (42_dmrs_demap.md R202), one field per key:
`mTCP` is the mask of DTYPE = T, NCDM = C, PPAR = P. -/
structure DmrsSel where
  m000 : BitVec 16
  m001 : BitVec 16
  m010 : BitVec 16
  m011 : BitVec 16
  m100 : BitVec 16
  m101 : BitVec 16
  m110 : BitVec 16
  m111 : BitVec 16
  deriving DecidableEq, Repr

/-- The implementation parameters of 00_scope.md R8, as plain data (log entry 2).
`rsqrtTable` lists the inputs at which a build's `RSQRT` differs from the correctly rounded function,
with the value it gives there: every total function on binary32 is such a list, and `[]` is the
default `RSQRT` of 43_cholesky.md R236. -/
structure Params where
  bufAddrBits : Nat
  dmrsSel     : DmrsSel
  rsqrtTable  : List (F32 × F32)
  deriving DecidableEq, Repr

/-- `BUF_BYTES` = 2^BUF_ADDR_BITS (00_scope.md R8). -/
def Params.bufBytes (p : Params) : Nat := 2 ^ p.bufAddrBits

/-- The legal values of `BUF_ADDR_BITS`: 16 to 24 (00_scope.md R8). -/
abbrev Params.legal (p : Params) : Prop := 16 ≤ p.bufAddrBits ∧ p.bufAddrBits ≤ 24

/-- FREE VALUE. The `n`-th byte that a soft reset leaves unspecified (70_reset_and_hazards.md R293:
"a model gives each such byte any value"; log entry 9). It has no body: nothing can be proved of it. -/
opaque freeByte : Nat → Byte

end Sys2Proof.Config
end

