-- ==== Sys2Proof/Syntax.lean ====
section
/-! DEFINITION. The commands of LLRD-CMD1, one constructor per row of spec/opcode_table.json, and the
named values their fields stand for (30_encoding.md R102 to R105). -/

namespace Sys2Proof

/-- The four words of a descriptor (30_encoding.md R100). -/
structure Descriptor where
  w0 : Word
  w1 : Word
  w2 : Word
  w3 : Word
  deriving DecidableEq, Repr

/-- Modulation order, the MOD field (30_encoding.md R105). -/
inductive Modulation where
  | bpsk | qpsk | qam16 | qam64 | qam256
  deriving DecidableEq, Repr

/-- Layers per UE, the LYR field (30_encoding.md R103). -/
inductive Layers where
  | one | two
  deriving DecidableEq, Repr

/-- Subcarrier count, the NSC field (30_encoding.md R103). -/
inductive Subcarriers where
  | n4 | n8 | n12 | n16
  deriving DecidableEq, Repr

/-- DMRS configuration type, the DTYPE field (30_encoding.md R103). -/
inductive DmrsType where
  | type1 | type2
  deriving DecidableEq, Repr

/-- Number of CDM groups without data, the NCDM field (30_encoding.md R103). -/
inductive CdmGroups where
  | one | two
  deriving DecidableEq, Repr

/-- DMRS port index parity, the PPAR field (30_encoding.md R103). -/
inductive PortParity where
  | even | odd
  deriving DecidableEq, Repr

/-- The ENGINE errors (60_exceptions.md R260). -/
inductive ErrorCode where
  | illegalOpcode | reservedField | invalidConfig | bufRange | misaligned
  deriving DecidableEq, Repr

/-- The commands of LLRD-CMD1 (30_encoding.md R104, R105). Addresses are BUF byte addresses. -/
inductive Instr where
  /-- NOP (40_control.md R132) -/
  | nop
  /-- END (40_control.md R131) -/
  | endList
  /-- JUMP (40_control.md R133) -/
  | jump (addr : Word)
  /-- SETOUT (40_control.md R134) -/
  | setout (addr : Word)
  /-- CONFIG (40_control.md R135) -/
  | config (shift : BitVec 6) (low high : Half)
  /-- DEMAP.BPSK (41_llr_demap.md R173) -/
  | demapBpsk (lyr : Layers) (nsc : Subcarriers) (sym beta winv : Word)
  /-- DEMAP.QPSK (41_llr_demap.md R174) -/
  | demapQpsk (lyr : Layers) (nsc : Subcarriers) (sym beta winv : Word)
  /-- DEMAP.QAM16 (41_llr_demap.md R175) -/
  | demapQam16 (lyr : Layers) (nsc : Subcarriers) (sym beta winv : Word)
  /-- DEMAP.QAM64 (41_llr_demap.md R176) -/
  | demapQam64 (lyr : Layers) (nsc : Subcarriers) (sym beta winv : Word)
  /-- DEMAP.QAM256 (41_llr_demap.md R177) -/
  | demapQam256 (lyr : Layers) (nsc : Subcarriers) (sym beta winv : Word)
  /-- DEMAP_DMRS.BPSK (42_dmrs_demap.md R208) -/
  | dmrsBpsk (lyr : Layers) (nsc : Subcarriers) (dtype : DmrsType) (ncdm : CdmGroups)
      (ppar : PortParity) (sym beta winv : Word)
  /-- DEMAP_DMRS.QPSK (42_dmrs_demap.md R209) -/
  | dmrsQpsk (lyr : Layers) (nsc : Subcarriers) (dtype : DmrsType) (ncdm : CdmGroups)
      (ppar : PortParity) (sym beta winv : Word)
  /-- DEMAP_DMRS.QAM16 (42_dmrs_demap.md R210) -/
  | dmrsQam16 (lyr : Layers) (nsc : Subcarriers) (dtype : DmrsType) (ncdm : CdmGroups)
      (ppar : PortParity) (sym beta winv : Word)
  /-- DEMAP_DMRS.QAM64 (42_dmrs_demap.md R211) -/
  | dmrsQam64 (lyr : Layers) (nsc : Subcarriers) (dtype : DmrsType) (ncdm : CdmGroups)
      (ppar : PortParity) (sym beta winv : Word)
  /-- DEMAP_DMRS.QAM256 (42_dmrs_demap.md R212) -/
  | dmrsQam256 (lyr : Layers) (nsc : Subcarriers) (dtype : DmrsType) (ncdm : CdmGroups)
      (ppar : PortParity) (sym beta winv : Word)
  /-- CHOLINV (43_cholesky.md R242) -/
  | cholinv (n : BitVec 5) (src dst : Word)
  deriving DecidableEq, Repr

/-- The DEMAP command of an order (30_encoding.md R105). -/
def demapInstr (m : Modulation) (lyr : Layers) (nsc : Subcarriers) (sym beta winv : Word) : Instr :=
  match m with
  | .bpsk => .demapBpsk lyr nsc sym beta winv
  | .qpsk => .demapQpsk lyr nsc sym beta winv
  | .qam16 => .demapQam16 lyr nsc sym beta winv
  | .qam64 => .demapQam64 lyr nsc sym beta winv
  | .qam256 => .demapQam256 lyr nsc sym beta winv

/-- The DEMAP_DMRS command of an order (30_encoding.md R105). -/
def dmrsInstr (m : Modulation) (lyr : Layers) (nsc : Subcarriers) (dtype : DmrsType)
    (ncdm : CdmGroups) (ppar : PortParity) (sym beta winv : Word) : Instr :=
  match m with
  | .bpsk => .dmrsBpsk lyr nsc dtype ncdm ppar sym beta winv
  | .qpsk => .dmrsQpsk lyr nsc dtype ncdm ppar sym beta winv
  | .qam16 => .dmrsQam16 lyr nsc dtype ncdm ppar sym beta winv
  | .qam64 => .dmrsQam64 lyr nsc dtype ncdm ppar sym beta winv
  | .qam256 => .dmrsQam256 lyr nsc dtype ncdm ppar sym beta winv

end Sys2Proof
end

