-- ==== Sys2Proof/Machine/Tables.lean ====
section
/-! DEFINITION. The read-only constants of LLRD (10_state.md R55): K1, K2, the segment tables, the default
DMRS_SEL and the parameter values the spec takes. -/

namespace Sys2Proof.Machine

/-- LANES (00_scope.md R8, R9). -/
def lanes : Nat := 16

/-- ID_VALUE (00_scope.md R8, 10_state.md R33). -/
def idValue : Word := 0x4C4C5201

/-- The version of LLRD-CMD1 (00_scope.md R3, 10_state.md R34). -/
def cmdVersion : Nat := 1

/-- Qm: LLRs per complex symbol (30_encoding.md R105). -/
def bitsPerSymbol : Modulation → Nat
  | .bpsk => 1 | .qpsk => 2 | .qam16 => 4 | .qam64 => 6 | .qam256 => 8

/-- K1 in Q15 (41_llr_demap.md R155); 0 for the two orders that use no threshold (R168). -/
def k1 : Modulation → Int
  | .bpsk => 0 | .qpsk => 0 | .qam16 => 20724 | .qam64 => 10112 | .qam256 => 5026

/-- K2 in Q13 (41_llr_demap.md R155). -/
def k2 : Modulation → Int
  | .bpsk => 11585 | .qpsk => 23170 | .qam16 => 10362 | .qam64 => 5056 | .qam256 => 2513

/-- One row of a segment table (41_llr_demap.md R157): above `m`·t1 the value is `a`·v + `c`·t1. -/
structure Seg where
  m : Int
  a : Int
  c : Int
  deriving DecidableEq, Repr

/-- TAB[order][k]: the segment table of axis bit `k` (41_llr_demap.md R163 to R166). π/2-BPSK has the
one-segment table f = v (R162). -/
def segTable : Modulation → Nat → List Seg
  | .bpsk, _ => [⟨0, 1, 0⟩]
  | .qpsk, _ => [⟨0, 1, 0⟩]
  | .qam16, 0 => [⟨0, 1, 0⟩, ⟨1, 2, -1⟩]
  | .qam16, _ => [⟨0, -1, 1⟩]
  | .qam64, 0 => [⟨0, 1, 0⟩, ⟨1, 2, -1⟩, ⟨2, 3, -3⟩, ⟨3, 4, -6⟩]
  | .qam64, 1 => [⟨0, -2, 3⟩, ⟨1, -1, 2⟩, ⟨3, -2, 5⟩]
  | .qam64, _ => [⟨0, 1, -1⟩, ⟨2, -1, 3⟩]
  | .qam256, 0 => [⟨0, 1, 0⟩, ⟨1, 2, -1⟩, ⟨2, 3, -3⟩, ⟨3, 4, -6⟩, ⟨4, 5, -10⟩, ⟨5, 6, -15⟩,
      ⟨6, 7, -21⟩, ⟨7, 8, -28⟩]
  | .qam256, 1 => [⟨0, -4, 10⟩, ⟨1, -3, 9⟩, ⟨2, -2, 7⟩, ⟨3, -1, 4⟩, ⟨5, -2, 9⟩, ⟨6, -3, 15⟩, ⟨7, -4, 22⟩]
  | .qam256, 2 => [⟨0, 2, -3⟩, ⟨1, 1, -2⟩, ⟨3, 2, -5⟩, ⟨4, -2, 11⟩, ⟨5, -1, 6⟩, ⟨7, -2, 13⟩]
  | .qam256, _ => [⟨0, 1, -1⟩, ⟨2, -1, 3⟩, ⟨4, 1, -5⟩, ⟨6, -1, 7⟩]

/-- The default DMRS_SEL (42_dmrs_demap.md R202): it does not depend on PPAR. -/
def dmrsSelDefault : Config.DmrsSel :=
  { m000 := 0xAAAA, m001 := 0xAAAA, m010 := 0x0000, m011 := 0x0000,
    m100 := 0xCF3C, m101 := 0xCF3C, m110 := 0x0C30, m111 := 0x0C30 }

/-- DMRS_SEL[DTYPE][NCDM][PPAR] (42_dmrs_demap.md R202). -/
def dmrsMask (t : Config.DmrsSel) : DmrsType → CdmGroups → PortParity → BitVec 16
  | .type1, .one, .even => t.m000
  | .type1, .one, .odd => t.m001
  | .type1, .two, .even => t.m010
  | .type1, .two, .odd => t.m011
  | .type2, .one, .even => t.m100
  | .type2, .one, .odd => t.m101
  | .type2, .two, .even => t.m110
  | .type2, .two, .odd => t.m111

/-- The parameter values this spec takes (00_scope.md R8): BUF_ADDR_BITS = 17, the default DMRS_SEL, the
correctly rounded RSQRT. -/
def specParams : Config.Params :=
  { bufAddrBits := 17, dmrsSel := dmrsSelDefault, rsqrtTable := [] }

end Sys2Proof.Machine
end

