-- ==== Sys2Proof/Machine/Float32.lean ====
section
/-! DEFINITION. IEEE 754 binary32 arithmetic on bit patterns (43_cholesky.md R234), exact in integers and
rounded once, and the reciprocal square root (R236). A finite pattern stands for
(-1)^sign · significand · 2^(exponent - 150). The IEEE details are log entry 14. -/

namespace Sys2Proof.Machine

/-- Bit 31. -/
def f32Sign (x : F32) : Bool := x.getLsbD 31

/-- Bits [30:23], the biased exponent. -/
def f32Exp (x : F32) : Nat := (x.extractLsb' 23 8).toNat

/-- Bits [22:0], the fraction. -/
def f32Frac (x : F32) : Nat := (x.extractLsb' 0 23).toNat

def f32IsNaN (x : F32) : Bool := f32Exp x == 255 && f32Frac x != 0

def f32IsInf (x : F32) : Bool := f32Exp x == 255 && f32Frac x == 0

/-- Both zeros. -/
def f32IsZero (x : F32) : Bool := f32Exp x == 0 && f32Frac x == 0

/-- The integer significand of a finite pattern; a subnormal has no hidden bit. -/
def f32Significand (x : F32) : Nat := if f32Exp x = 0 then f32Frac x else f32Frac x + 2 ^ 23

/-- The exponent that goes with the significand: 1 for a subnormal. -/
def f32Scale (x : F32) : Nat := if f32Exp x = 0 then 1 else f32Exp x

/-- The canonical quiet NaN (43_cholesky.md R234). -/
def f32NaN : F32 := 0x7FC00000

/-- A signed infinity. -/
def f32Inf (neg : Bool) : F32 := if neg then 0xFF800000 else 0x7F800000

/-- A signed zero. -/
def f32Zero (neg : Bool) : F32 := if neg then 0x80000000 else 0

/-- `negf(x)` (43_cholesky.md R234): bit 31 flipped and nothing else, NaN included. -/
def negf (x : F32) : F32 := x ^^^ 0x80000000

/-- `m / 2^k` rounded to the nearest integer, ties to even; `sticky` says that the exact value is a little
above `m`. -/
def roundShift (m k : Nat) (sticky : Bool) : Nat :=
  match k with
  | 0 => m
  | k + 1 =>
    let q := m / 2 ^ (k + 1)
    let rem := m % 2 ^ (k + 1)
    if 2 ^ k < rem || (rem == 2 ^ k && (sticky || q % 2 == 1)) then q + 1 else q

/-- The binary32 value nearest to (-1)^neg · m · 2^q (a little more where `sticky`), ties to even,
subnormals kept, overflow to infinity (43_cholesky.md R234). The unit in the last place has exponent
max(q + bits(m) - 24, -149). -/
def roundF32 (neg : Bool) (m : Nat) (q : Int) (sticky : Bool) : F32 :=
  if m = 0 then f32Zero neg
  else
    let ulp : Int := max (q + Nat.log2 m - 23) (-149)
    let sig : Nat := if ulp ≤ q then m * 2 ^ (q - ulp).toNat else roundShift m (ulp - q).toNat sticky
    let mag : Nat := (ulp + 149).toNat * 2 ^ 23 + sig
    if 0x7F800000 ≤ mag then f32Inf neg else f32Zero neg ||| BitVec.ofNat 32 mag

/-- A finite pattern's signed significand, scaled down to exponent `e ≤ f32Scale x`. -/
def f32Aligned (x : F32) (e : Nat) : Int :=
  let m : Int := f32Significand x * 2 ^ (f32Scale x - e)
  if f32Sign x then -m else m

/-- `a +f b` (43_cholesky.md R234). -/
def addf (a b : F32) : F32 :=
  if f32IsNaN a || f32IsNaN b then f32NaN
  else if f32IsInf a then (if f32IsInf b && f32Sign a != f32Sign b then f32NaN else a)
  else if f32IsInf b then b
  else
    let e := min (f32Scale a) (f32Scale b)
    let sum := f32Aligned a e + f32Aligned b e
    if sum = 0 then f32Zero (f32Sign a && f32Sign b)
    else roundF32 (decide (sum < 0)) sum.natAbs ((e : Int) - 150) false

/-- `a −f b` (43_cholesky.md R234): the sum with the negated operand. -/
def subf (a b : F32) : F32 := addf a (negf b)

/-- `a ×f b` (43_cholesky.md R234). -/
def mulf (a b : F32) : F32 :=
  let neg := f32Sign a != f32Sign b
  if f32IsNaN a || f32IsNaN b then f32NaN
  else if f32IsInf a then (if f32IsZero b then f32NaN else f32Inf neg)
  else if f32IsInf b then (if f32IsZero a then f32NaN else f32Inf neg)
  else roundF32 neg (f32Significand a * f32Significand b) ((f32Scale a : Int) + f32Scale b - 300) false

/-- `x > 0` (43_cholesky.md R234): the ordered comparison, false for NaN and for both zeros. -/
def positivef (x : F32) : Bool := !f32IsNaN x && !f32Sign x && !f32IsZero x

/-! ### Reciprocal square root (43_cholesky.md R236) -/

/-- The largest `a + d` with d < 2^k and (a + d)² ≤ n, for a² ≤ n, bit by bit from the top. -/
def isqrtFrom : Nat → Nat → Nat → Nat
  | 0, _, a => a
  | k + 1, n, a => if (a + 2 ^ k) * (a + 2 ^ k) ≤ n then isqrtFrom k n (a + 2 ^ k) else isqrtFrom k n a

/-- The integer square root of n < 2^82. -/
def isqrt (n : Nat) : Nat := isqrtFrom 41 n 0

/-- 1/√(m · 2^(2h)) for 0 < m < 2^25, correctly rounded: √(2^80/m) has at least 27 integer bits, and
the part cut off is the sticky bit. -/
def rsqrtScaled (m : Nat) (h : Int) : F32 :=
  let s := isqrt (2 ^ 80 / m)
  roundF32 false s (-40 - h) (decide (s * s * m ≠ 2 ^ 80))

/-- The default RSQRT (43_cholesky.md R236): 1/√x correctly rounded for finite x > 0, and the listed
special cases. -/
def rsqrtExact (x : F32) : F32 :=
  if f32IsNaN x then f32NaN
  else if f32IsZero x then f32Inf (f32Sign x)
  else if f32Sign x then f32NaN
  else if f32IsInf x then f32Zero false
  else if f32Scale x % 2 = 0 then rsqrtScaled (f32Significand x) (((f32Scale x : Int) - 150) / 2)
  else rsqrtScaled (2 * f32Significand x) (((f32Scale x : Int) - 151) / 2)

/-- A NaN result is the canonical one (43_cholesky.md R234). -/
def canonicalNaN (x : F32) : F32 := if f32IsNaN x then f32NaN else x

/-- RSQRT of a build (43_cholesky.md R236): its listed value, else the correctly rounded one
(log entries 2, 15). -/
def rsqrtBy : List (F32 × F32) → F32 → F32
  | [], x => rsqrtExact x
  | (k, v) :: rest, x => if k = x then canonicalNaN v else rsqrtBy rest x

end Sys2Proof.Machine
end

