-- ==== Sys2Proof/Machine/Fixed.lean ====
section
/-! DEFINITION. The fixed-point primitives (00_scope.md R15 to R21), over unbounded integers. -/

namespace Sys2Proof.Machine

/-- `sat(x, lo, hi)` (00_scope.md R15). -/
def sat (x lo hi : Int) : Int := if x < lo then lo else if hi < x then hi else x

/-- `sat16` (00_scope.md R15). -/
def sat16 (x : Int) : Int := sat x (-32768) 32767

/-- `sat8` (00_scope.md R15). -/
def sat8 (x : Int) : Int := sat x (-128) 127

/-- `roundedMulHigh(a, b)` (00_scope.md R16): floor((a·b + 2^14) / 2^15), saturated. `/` on `Int` with a
positive divisor is the floor. -/
def roundedMulHigh (a b : Int) : Int := sat16 ((a * b + 2 ^ 14) / 2 ^ 15)

/-- `rshr(P, S)` (00_scope.md R17): right shift with rounding, half toward +∞. -/
def rshr (p : Int) : Nat → Int
  | 0 => p
  | s + 1 => (p + 2 ^ s) / 2 ^ (s + 1)

/-- `clampToRange(x, low, high)` (00_scope.md R18). -/
def clampToRange (x low high : Int) : Int := sat x low high

/-- `selectHighOrLow` (00_scope.md R19). -/
def selectHighOrLow {α : Type} (cmpA cmpB : Int) (whenGreater whenNotGreater : α) : α :=
  if cmpB < cmpA then whenGreater else whenNotGreater

/-- `copySign(reference, m)` (00_scope.md R20); a reference of zero counts as non-negative. -/
def copySign (reference m : Int) : Int := if 0 ≤ reference then m else -m

/-- `copyInvertedSign(reference, m)` (00_scope.md R20). -/
def copyInvertedSign (reference m : Int) : Int := -copySign reference m

/-- The mathematical absolute value (00_scope.md R21): `abs(-32768) = 32768`. -/
def absInt (x : Int) : Int := if 0 ≤ x then x else -x

/-- `lanesBelow(n)` (00_scope.md R21): the 16-bit mask with bits 0 to n - 1 set. -/
def lanesBelow (n : Nat) : BitVec 16 := BitVec.ofNat 16 (2 ^ n - 1)

/-- The lanes whose mask bit is 1, ascending (42_dmrs_demap.md R204). -/
def lanesOf (mask : BitVec 16) : List Nat := (List.range lanes).filter (fun i => mask.getLsbD i)

/-- `popcount(m)` (00_scope.md R21). -/
def popcount (mask : BitVec 16) : Nat := (lanesOf mask).length

end Sys2Proof.Machine
end

