-- ==== Sys2Proof/Machine/Llr.lean ====
section
/-! DEFINITION. The LLR datapath of one symbol (41_llr_demap.md R154 to R168). -/

namespace Sys2Proof.Machine

/-- The inputs of one lane of one layer (41_llr_demap.md R150), int16 patterns. -/
structure LaneInput where
  i    : Half
  q    : Half
  beta : Half
  w    : Half
  deriving DecidableEq, Repr, Inhabited

/-- The configuration a demap command reads (10_state.md R39, R40): SHIFT, LOW, HIGH. -/
structure LlrConfig where
  shift : Nat
  low   : Int
  high  : Int
  deriving DecidableEq, Repr

/-- The cascade of 41_llr_demap.md R157 over the rows from the highest threshold down: the first row with
v > m·t1, else the last one. -/
def pickSeg (v t1 : Int) : List Seg → Seg
  | [] => ⟨0, 0, 0⟩
  | [s] => s
  | s :: s' :: rest => if s.m * t1 < v then s else pickSeg v t1 (s' :: rest)

/-- The value of a segment at `v` with unit threshold `t1`: a·v + c·t1 (41_llr_demap.md R157). -/
def segValue (s : Seg) (v t1 : Int) : Int := s.a * v + s.c * t1

/-- `pw(TAB, v, t1)` (41_llr_demap.md R157). -/
def pw (tab : List Seg) (v t1 : Int) : Int := segValue (pickSeg v t1 tab.reverse) v t1

/-- The same as nested `selectHighOrLow`, the second form of 41_llr_demap.md R157, over the rows from the
highest threshold down. -/
def nestedSelect (v t1 : Int) : List Seg → Int
  | [] => 0
  | [s] => segValue s v t1
  | s :: s' :: rest => selectHighOrLow v (s.m * t1) (segValue s v t1) (nestedSelect v t1 (s' :: rest))

/-- The scaled LLR before clamping (41_llr_demap.md R158): one exact product, one rounding, then the sign. -/
def llrScaled (shift : Nat) (f k2 w : Int) (neg : Bool) : Int :=
  if neg then -rshr (f * k2 * w) shift else rshr (f * k2 * w) shift

/-- `llrOut(f, K2, w, neg)` (41_llr_demap.md R158): clamped to [LOW, HIGH], then saturated to int8. -/
def llrOut (cfg : LlrConfig) (f k2 w : Int) (neg : Bool) : Int :=
  sat8 (clampToRange (llrScaled cfg.shift f k2 w neg) cfg.low cfg.high)

/-- The unit threshold t1 (41_llr_demap.md R156); 0 for the two orders that use none (R168). -/
def unitThreshold : Modulation → Int → Int
  | .bpsk, _ => 0
  | .qpsk, _ => 0
  | .qam16, beta => roundedMulHigh beta (k1 .qam16)
  | .qam64, beta => roundedMulHigh beta (k1 .qam64)
  | .qam256, beta => roundedMulHigh beta (k1 .qam256)

/-- The LLR of axis bit `k` at axis sample `y` (41_llr_demap.md R168): only the sign bit takes y's sign. -/
def axisLlr (order : Modulation) (cfg : LlrConfig) (k : Nat) (y t1 w : Int) : Int :=
  llrOut cfg (pw (segTable order k) (absInt y) t1) (k2 order) w (k == 0 && decide (y < 0))

/-- `llrVec(order, I, Q, beta, w)` (41_llr_demap.md R162, R168): b0, …, b(Qm-1), with b(2k) of the I axis
and b(2k+1) of the Q axis; π/2-BPSK has the one LLR of y = I + Q. -/
def llrVec (order : Modulation) (cfg : LlrConfig) (x : LaneInput) : List Int :=
  match order with
  | .bpsk => [axisLlr .bpsk cfg 0 (x.i.toInt + x.q.toInt) 0 x.w.toInt]
  | .qpsk => axes .qpsk 1
  | .qam16 => axes .qam16 2
  | .qam64 => axes .qam64 3
  | .qam256 => axes .qam256 4
where
  /-- The I and Q LLRs of axis bits 0 to n - 1, interleaved (41_llr_demap.md R161). -/
  axes (order : Modulation) (n : Nat) : List Int :=
    let t1 := unitThreshold order x.beta.toInt
    (List.range n).flatMap fun k =>
      [axisLlr order cfg k x.i.toInt t1 x.w.toInt, axisLlr order cfg k x.q.toInt t1 x.w.toInt]

/-- The stored bytes of one symbol (41_llr_demap.md R158, R172): bits_8 of each LLR. -/
def llrBytes (order : Modulation) (cfg : LlrConfig) (x : LaneInput) : List Byte :=
  (llrVec order cfg x).map (BitVec.ofInt 8)

end Sys2Proof.Machine
end

