-- ==== Sys2Proof/WellFormed.lean ====
section
/-! DEFINITION. Which terms of `Instr` an encoding can stand for (30_encoding.md R103, R106). The types
of the fields leave one check: the matrix size of CHOLINV. -/

namespace Sys2Proof

/-- The matrix sizes CHOLINV takes: 2 to 16 (30_encoding.md R106, 43_cholesky.md R242). -/
abbrev legalSize (n : BitVec 5) : Prop := 2 ≤ n.toNat ∧ n.toNat ≤ 16

/-- Whether some descriptor decodes to the command (30_encoding.md R106, R108). -/
def wellFormed (i : Instr) : Bool :=
  match i with
  | .cholinv n _ _ => decide (legalSize n)
  | .nop => true
  | .endList => true
  | .jump _ => true
  | .setout _ => true
  | .config _ _ _ => true
  | .demapBpsk _ _ _ _ _ => true
  | .demapQpsk _ _ _ _ _ => true
  | .demapQam16 _ _ _ _ _ => true
  | .demapQam64 _ _ _ _ _ => true
  | .demapQam256 _ _ _ _ _ => true
  | .dmrsBpsk _ _ _ _ _ _ _ _ => true
  | .dmrsQpsk _ _ _ _ _ _ _ _ => true
  | .dmrsQam16 _ _ _ _ _ _ _ _ => true
  | .dmrsQam64 _ _ _ _ _ _ _ _ => true
  | .dmrsQam256 _ _ _ _ _ _ _ _ => true

/-- The check as a proposition. -/
abbrev WellFormed (i : Instr) : Prop := wellFormed i = true

end Sys2Proof
end

