-- ==== Sys2Proof/Decode.lean ====
section
/-! DEFINITION. Decoding a descriptor (30_encoding.md R100 to R108), and after it the encoder, written
from the same field tables (R102). Also the byte order of the block (20_memory.md R73). -/

namespace Sys2Proof

/-! ### Byte order (20_memory.md R73: little-endian everywhere) -/

/-- The unsigned integer that bytes form, the first byte least significant. -/
def leNat : List Byte → Nat
  | [] => 0
  | b :: bs => b.toNat + 256 * leNat bs

/-- The `n` bytes of an integer, least significant first. -/
def leBytes : Nat → Nat → List Byte
  | 0, _ => []
  | n + 1, v => BitVec.ofNat 8 v :: leBytes n (v / 256)

/-- The `i`-th 32-bit word of a run of bytes. -/
def wordAt (bs : List Byte) (i : Nat) : Word := BitVec.ofNat 32 (leNat ((bs.drop (4 * i)).take 4))

/-- The four words of a descriptor's bytes (30_encoding.md R100). -/
def descriptorOf (bs : List Byte) : Descriptor :=
  { w0 := wordAt bs 0, w1 := wordAt bs 1, w2 := wordAt bs 2, w3 := wordAt bs 3 }

/-! ### Field codes (30_encoding.md R103, R105) -/

/-- MOD of an order (R105). -/
def Modulation.code : Modulation → BitVec 3
  | .bpsk => 0 | .qpsk => 1 | .qam16 => 2 | .qam64 => 3 | .qam256 => 4

/-- The order of a MOD value, none for the reserved values 5 to 7 (R105). -/
def Modulation.ofCode (c : BitVec 3) : Option Modulation :=
  match c.toNat with
  | 0 => some .bpsk
  | 1 => some .qpsk
  | 2 => some .qam16
  | 3 => some .qam64
  | 4 => some .qam256
  | _ => none

/-- LYR: layers minus 1 (R103). -/
def Layers.code : Layers → BitVec 1
  | .one => 0 | .two => 1

def Layers.ofCode (c : BitVec 1) : Layers := if c = 0 then .one else .two

/-- NSC: subcarriers divided by 4, minus 1 (R103). -/
def Subcarriers.code : Subcarriers → BitVec 2
  | .n4 => 0 | .n8 => 1 | .n12 => 2 | .n16 => 3

def Subcarriers.ofCode (c : BitVec 2) : Subcarriers :=
  if c = 0 then .n4 else if c = 1 then .n8 else if c = 2 then .n12 else .n16

/-- DTYPE: DMRS type minus 1 (R103). -/
def DmrsType.code : DmrsType → BitVec 1
  | .type1 => 0 | .type2 => 1

def DmrsType.ofCode (c : BitVec 1) : DmrsType := if c = 0 then .type1 else .type2

/-- NCDM: CDM groups without data minus 1 (R103). -/
def CdmGroups.code : CdmGroups → BitVec 1
  | .one => 0 | .two => 1

def CdmGroups.ofCode (c : BitVec 1) : CdmGroups := if c = 0 then .one else .two

/-- PPAR: DMRS port index mod 2 (R103). -/
def PortParity.code : PortParity → BitVec 1
  | .even => 0 | .odd => 1

def PortParity.ofCode (c : BitVec 1) : PortParity := if c = 0 then .even else .odd

/-! ### Decode (30_encoding.md R108) -/

/-- OP = W0[3:0] (R102). -/
def opOf (w0 : Word) : BitVec 4 := w0.extractLsb' 0 4

/-- The res0 mask of an opcode, over W0 (R107); every valid OP has one. -/
def res0Mask (op : BitVec 4) : Word :=
  match op.toNat with
  | 4 => 0xFFFFFC00
  | 5 => 0xFFFFFC00
  | 6 => 0xFFFFE000
  | 7 => 0xFFFFFE00
  | _ => 0xFFFFFFF0

/-- Format F-DM (R102, R108 case 5). -/
def decodeDemap (d : Descriptor) : Except ErrorCode Instr :=
  match Modulation.ofCode (d.w0.extractLsb' 4 3) with
  | none => .error .invalidConfig
  | some m =>
    .ok (demapInstr m (Layers.ofCode (d.w0.extractLsb' 7 1)) (Subcarriers.ofCode (d.w0.extractLsb' 8 2))
      d.w1 d.w2 d.w3)

/-- Format F-DD (R102, R108 case 6). -/
def decodeDmrs (d : Descriptor) : Except ErrorCode Instr :=
  match Modulation.ofCode (d.w0.extractLsb' 4 3) with
  | none => .error .invalidConfig
  | some m =>
    .ok (dmrsInstr m (Layers.ofCode (d.w0.extractLsb' 7 1)) (Subcarriers.ofCode (d.w0.extractLsb' 8 2))
      (DmrsType.ofCode (d.w0.extractLsb' 10 1)) (CdmGroups.ofCode (d.w0.extractLsb' 11 1))
      (PortParity.ofCode (d.w0.extractLsb' 12 1)) d.w1 d.w2 d.w3)

/-- Format F-CH (R102, R108 case 7). -/
def decodeCholinv (d : Descriptor) : Except ErrorCode Instr :=
  let n := d.w0.extractLsb' 4 5
  if legalSize n then .ok (.cholinv n d.w1 d.w2) else .error .invalidConfig

/-- The decoder (R108): a command, or the error that the descriptor raises (its information word is
W0 in every case, 60_exceptions.md R260). Total on any four words. -/
def decodeWords (d : Descriptor) : Except ErrorCode Instr :=
  if 8 ≤ (opOf d.w0).toNat then .error .illegalOpcode
  else if d.w0 &&& res0Mask (opOf d.w0) ≠ 0 then .error .reservedField
  else
    match (opOf d.w0).toNat with
    | 0 => .ok .nop
    | 1 => .ok .endList
    | 2 => .ok (.jump d.w1)
    | 3 => .ok (.setout d.w1)
    | 4 => .ok (.config (d.w0.extractLsb' 4 6) (d.w1.extractLsb' 0 16) (d.w1.extractLsb' 16 16))
    | 5 => decodeDemap d
    | 6 => decodeDmrs d
    | _ => decodeCholinv d

/-- Why a run of bytes is no command. -/
inductive Reject where
  /-- fewer than the 16 bytes of a descriptor (30_encoding.md R100) -/
  | truncated
  /-- the descriptor raises this error (R108) -/
  | raises (e : ErrorCode)
  deriving DecidableEq, Repr

/-- Decoding the bytes of a command list: the first command and the bytes after it (R100, R101). -/
def decode (bs : List Byte) : Except Reject (Instr × List Byte) :=
  if bs.length < 16 then .error .truncated
  else
    match decodeWords (descriptorOf bs) with
    | .error e => .error (.raises e)
    | .ok i => .ok (i, bs.drop 16)

/-- The 16 bytes of a descriptor given as a number whose low `nbits` bits are `w` and whose other bits
are 0: bit 0 is bit 0 of W0, and a later word's bits count on. -/
def tableBytes (nbits w : Nat) : List Byte := leBytes 16 (w % 2 ^ nbits)

/-- The command the decoder reads from a table word, `none` where it refuses. -/
def decodeTableWord (nbits w : Nat) : Option Instr :=
  match decode (tableBytes nbits w) with
  | .ok (i, _) => some i
  | .error _ => none

/-! ### Encode (30_encoding.md R102, R105) -/

/-- A field's bits at their place in a word. -/
def field {n : Nat} (v : BitVec n) (lo : Nat) : Word := v.setWidth 32 <<< lo

/-- W0 of CONFIG (F-CFG). -/
def w0Config (shift : BitVec 6) : Word := 4#32 ||| field shift 4

/-- W0 of DEMAP (F-DM). -/
def w0Demap (m : Modulation) (lyr : Layers) (nsc : Subcarriers) : Word :=
  5#32 ||| field m.code 4 ||| field lyr.code 7 ||| field nsc.code 8

/-- W0 of DEMAP_DMRS (F-DD). -/
def w0Dmrs (m : Modulation) (lyr : Layers) (nsc : Subcarriers) (dtype : DmrsType) (ncdm : CdmGroups)
    (ppar : PortParity) : Word :=
  6#32 ||| field m.code 4 ||| field lyr.code 7 ||| field nsc.code 8 ||| field dtype.code 10
    ||| field ncdm.code 11 ||| field ppar.code 12

/-- W0 of CHOLINV (F-CH). -/
def w0Cholinv (n : BitVec 5) : Word := 7#32 ||| field n 4

/-- The descriptor of a DEMAP command. -/
def encodeDemap (m : Modulation) (lyr : Layers) (nsc : Subcarriers) (sym beta winv : Word) : Descriptor :=
  { w0 := w0Demap m lyr nsc, w1 := sym, w2 := beta, w3 := winv }

/-- The descriptor of a DEMAP_DMRS command. -/
def encodeDmrs (m : Modulation) (lyr : Layers) (nsc : Subcarriers) (dtype : DmrsType)
    (ncdm : CdmGroups) (ppar : PortParity) (sym beta winv : Word) : Descriptor :=
  { w0 := w0Dmrs m lyr nsc dtype ncdm ppar, w1 := sym, w2 := beta, w3 := winv }

/-- The encoder: the four words of a command; words the format ignores are 0 (log entry 12). -/
def encode (i : Instr) : Descriptor :=
  match i with
  | .nop => { w0 := 0, w1 := 0, w2 := 0, w3 := 0 }
  | .endList => { w0 := 1, w1 := 0, w2 := 0, w3 := 0 }
  | .jump addr => { w0 := 2, w1 := addr, w2 := 0, w3 := 0 }
  | .setout addr => { w0 := 3, w1 := addr, w2 := 0, w3 := 0 }
  | .config shift low high => { w0 := w0Config shift, w1 := field low 0 ||| field high 16, w2 := 0, w3 := 0 }
  | .demapBpsk lyr nsc sym beta winv => encodeDemap .bpsk lyr nsc sym beta winv
  | .demapQpsk lyr nsc sym beta winv => encodeDemap .qpsk lyr nsc sym beta winv
  | .demapQam16 lyr nsc sym beta winv => encodeDemap .qam16 lyr nsc sym beta winv
  | .demapQam64 lyr nsc sym beta winv => encodeDemap .qam64 lyr nsc sym beta winv
  | .demapQam256 lyr nsc sym beta winv => encodeDemap .qam256 lyr nsc sym beta winv
  | .dmrsBpsk lyr nsc t c p sym beta winv => encodeDmrs .bpsk lyr nsc t c p sym beta winv
  | .dmrsQpsk lyr nsc t c p sym beta winv => encodeDmrs .qpsk lyr nsc t c p sym beta winv
  | .dmrsQam16 lyr nsc t c p sym beta winv => encodeDmrs .qam16 lyr nsc t c p sym beta winv
  | .dmrsQam64 lyr nsc t c p sym beta winv => encodeDmrs .qam64 lyr nsc t c p sym beta winv
  | .dmrsQam256 lyr nsc t c p sym beta winv => encodeDmrs .qam256 lyr nsc t c p sym beta winv
  | .cholinv n src dst => { w0 := w0Cholinv n, w1 := src, w2 := dst, w3 := 0 }

/-- The 16 bytes of a descriptor in BUF (20_memory.md R73). -/
def descriptorBytes (d : Descriptor) : List Byte :=
  leBytes 4 d.w0.toNat ++ leBytes 4 d.w1.toNat ++ leBytes 4 d.w2.toNat ++ leBytes 4 d.w3.toNat

/-- The 16 bytes of a command in BUF. -/
def encodeBytes (i : Instr) : List Byte := descriptorBytes (encode i)

end Sys2Proof
end

