-- ==== Sys2Proof/Machine/State.lean ====
section
/-! DEFINITION. The state of LLRD (10_state.md, 20_memory.md R70), the reasons a step can stop, and the
state after hardware reset (10_state.md R60). -/

namespace Sys2Proof.Machine

/-- STATUS.STATE (10_state.md R36). -/
inductive EngState where
  | idle | busy | error
  deriving DecidableEq, Repr

/-- BUF as plain data: the initialised bytes with their offsets, offsets strictly rising
(`Memory.wf`). An offset that is not listed is an uninitialised byte: it reads as no value
(10_state.md R57, log entry 1). -/
abbrev Memory := List Host.Cell

/-- A host access at the host port (20_memory.md R72 to R75): a host address, a size in bytes, and for a
write the written integer, of which the low 8·size bits count (00_scope.md R12; log entry 5). -/
inductive HostAccess where
  | read (addr size : Nat)
  | write (addr size : Nat) (value : Word)
  deriving DecidableEq, Repr

/-- One event of the total order of 20_memory.md R83, as the model's `inbox` holds it (log entry 4). -/
inductive PortEvent where
  /-- a host access (R78) -/
  | access (a : HostAccess)
  /-- `rst_n` asserted (70_reset_and_hazards.md R290) -/
  | hardwareReset
  /-- the ENGINE's turn: its step, if it has one, comes before the next event -/
  | engineTurn
  deriving DecidableEq, Repr

/-- What the host port answered to the latest host access (10_state.md R58, 20_memory.md R75). -/
inductive HostResp where
  /-- no access yet -/
  | none
  /-- OKAY to a write -/
  | okayWrite
  /-- OKAY to a read, with the unsigned integer that the read bytes form (00_scope.md R12) -/
  | okayRead (value : Word)
  /-- ERROR: the access did nothing (20_memory.md R75) -/
  | busError
  deriving DecidableEq, Repr

/-- The state of one LLRD block. The last three fields are the model's own (log entries 4, 5, 9). -/
structure State where
  /-- STATUS.STATE (10_state.md R36) -/
  engState  : EngState
  /-- CP (10_state.md R37, R52) -/
  cp        : Word
  /-- OUTP (10_state.md R38) -/
  outp      : Word
  /-- SCALE.SHIFT (10_state.md R39) -/
  shift     : BitVec 6
  /-- LLR_RANGE.LOW (10_state.md R40) -/
  low       : Half
  /-- LLR_RANGE.HIGH (10_state.md R40) -/
  high      : Half
  /-- LAST_COUNT (10_state.md R41) -/
  lastCount : BitVec 9
  /-- CMD_COUNT (10_state.md R42) -/
  cmdCount  : Word
  /-- ERR_CODE (10_state.md R43) -/
  errCode   : BitVec 4
  /-- ERR_CP (10_state.md R44) -/
  errCp     : Word
  /-- ERR_INFO (10_state.md R45) -/
  errInfo   : Word
  /-- IRQ_EN (10_state.md R46) -/
  irqEn     : BitVec 4
  /-- IRQ_STATUS (10_state.md R47) -/
  irqStatus : BitVec 4
  /-- BUF (20_memory.md R70) -/
  buf       : Memory
  /-- the build's parameters (00_scope.md R8; log entry 2): no step changes them -/
  params    : Config.Params
  /-- the host-side events still to come (model's own, log entry 4) -/
  inbox     : List PortEvent
  /-- the host port's latest answer (model's own, log entry 5) -/
  hostResp  : HostResp
  /-- how many free bytes have been drawn (model's own, log entry 9) -/
  freeIdx   : Nat
  deriving DecidableEq, Repr

/-- Why the machine stops. -/
inductive Fault where
  /-- A read of a BUF byte that nothing has written, by the ENGINE or the HOST (10_state.md R57).
  Raised by descriptor fetch, operand reads and host reads. Safe: the hardware would go on with an
  unspecified value. -/
  | uninitRead
  /-- A host access to BUF while BUSY (20_memory.md R84). Raised by the host port. Safe: the hardware
  would go on with an unspecified result. -/
  | hostRace
  /-- A host address of more than BUF_ADDR_BITS + 1 bits (20_memory.md R72; log entry 6). Raised by the
  host port. Safe: the port has no such address. -/
  | noSuchHostAddress
  deriving DecidableEq, Repr

/-- Why a command has no meaning. Every command has one: nothing raises this. -/
inductive Refusal where
  /-- The command of that mnemonic has no meaning yet. Raised by nobody. Safe. -/
  | notModelled (mnemonic : String)
  deriving DecidableEq, Repr

/-- The answer of a step or of a command's meaning. -/
abbrev Answer := Host.Outcome State Fault Refusal

/-- LLRD right after hardware reset (10_state.md R60, 70_reset_and_hazards.md R290), in the build the spec
takes. The model's own fields start empty (log entry 11). -/
def State.reset : State :=
  { engState := .idle, cp := 0, outp := 0, shift := 37, low := 0xFF80, high := 0x007F,
    lastCount := 0, cmdCount := 0, errCode := 0, errCp := 0, errInfo := 0, irqEn := 0, irqStatus := 0,
    buf := [], params := specParams, inbox := [], hostResp := .none, freeIdx := 0 }

end Sys2Proof.Machine
end

