-- ==== Sys2Proof/Machine/Flags.lean ====
section
/-! DEFINITION. The sticky status bits of IRQ_STATUS and the interrupt line (10_state.md R46, R47, R53, R59;
60_exceptions.md R270). LLRD has no other flag and no condition code (R53). -/

namespace Sys2Proof.Machine

/-- IRQ_STATUS bit 0, DONE (10_state.md R47). -/
def irqDone : BitVec 4 := 0b0001

/-- IRQ_STATUS bit 1, ERR. -/
def irqErr : BitVec 4 := 0b0010

/-- IRQ_STATUS bit 2, IGN. -/
def irqIgn : BitVec 4 := 0b0100

/-- IRQ_STATUS bit 3, NPD. -/
def irqNpd : BitVec 4 := 0b1000

/-- A hardware event sets its sticky bit, enabled or not; a bit already set stays set
(60_exceptions.md R270). -/
def State.pend (s : State) (bit : BitVec 4) : State := { s with irqStatus := s.irqStatus ||| bit }

/-- The host's write-1-to-clear of IRQ_STATUS (10_state.md R47). -/
def State.acknowledge (s : State) (v : Word) : State :=
  { s with irqStatus := s.irqStatus &&& ~~~(v.extractLsb' 0 4) }

/-- The `irq` line (10_state.md R59). -/
def State.irq (s : State) : Bool := s.irqStatus &&& s.irqEn != 0

end Sys2Proof.Machine
end

