-- ==== Sys2Proof/Machine/Ops.lean ====
section
/-! DEFINITION. The named operations over BUF and the registers: bytes of BUF, the end of a command, error
entry and the return from it. -/

namespace Sys2Proof.Machine

/-! ### BUF (20_memory.md R70, R73; 10_state.md R57) -/

/-- The byte at an offset, none where nothing has been written (10_state.md R57). -/
def Memory.readByte : Memory → Nat → Option Byte
  | [], _ => none
  | (k, b) :: m, a => if k = a then some b else Memory.readByte m a

/-- All of `f 0`, …, `f (n - 1)`, if each has a value. -/
def readAll {α : Type} (f : Nat → Option α) : Nat → Option (List α)
  | 0 => some []
  | n + 1 =>
    match readAll f n, f n with
    | some xs, some x => some (xs ++ [x])
    | _, _ => none

/-- The `n` bytes from an offset on. -/
def Memory.readBytes (m : Memory) (a n : Nat) : Option (List Byte) :=
  readAll (fun i => m.readByte (a + i)) n

/-- `MemRead(addr, n)` (00_scope.md R12): the little-endian integer of `n` bytes. -/
def Memory.memRead (m : Memory) (a n : Nat) : Option Nat := (m.readBytes a n).map leNat

/-- A 16-bit read (00_scope.md R12). -/
def Memory.readHalf (m : Memory) (a : Nat) : Option Half := (m.memRead a 2).map (BitVec.ofNat 16)

/-- A 32-bit read (00_scope.md R12). -/
def Memory.readWord (m : Memory) (a : Nat) : Option Word := (m.memRead a 4).map (BitVec.ofNat 32)

/-- Bytes with their offsets, from `a` on. -/
def cellsFrom (a : Nat) : List Byte → Memory
  | [] => []
  | b :: bs => (a, b) :: cellsFrom (a + 1) bs

/-- Writing bytes from an offset on: the listed bytes below, the new ones, the listed bytes above. The empty
run writes nothing. -/
def Memory.writeBytes (m : Memory) (a : Nat) (bs : List Byte) : Memory :=
  if bs = [] then m
  else
    m.filter (fun c => decide (c.1 < a)) ++ cellsFrom a bs
      ++ m.filter (fun c => decide (a + bs.length ≤ c.1))

/-- The canonical form: offsets strictly rising. An unlisted offset reads as no value, which no entry can
equal, so equal memories are equal lists. -/
abbrev Memory.wf (m : Memory) : Prop := m.Pairwise (fun x y => x.1 < y.1)

/-- Every listed byte lies inside a BUF of `n` bytes (20_memory.md R70). -/
abbrev Memory.within (m : Memory) (n : Nat) : Prop := ∀ c ∈ m, c.1 < n

/-- A write to BUF from a state. -/
def State.writeBuf (s : State) (a : Nat) (bs : List Byte) : State :=
  { s with buf := s.buf.writeBytes a bs }

/-! ### Registers -/

/-- The end of a command that completes (40_control.md R130): CP <- next, CMD_COUNT + 1 mod 2^32. -/
def State.complete (s : State) (next : Word) : State := { s with cp := next, cmdCount := s.cmdCount + 1 }

/-- The end of every completed command but JUMP (10_state.md R52): CP + 16 mod 2^32. -/
def State.advance (s : State) : State := s.complete (s.cp + 16)

/-- SETOUT's register (40_control.md R134). -/
def State.setOutp (s : State) (v : Word) : State := { s with outp := v }

/-- CONFIG's registers, all three together (40_control.md R135). -/
def State.setConfig (s : State) (shift : BitVec 6) (low high : Half) : State :=
  { s with shift := shift, low := low, high := high }

/-- After a demap command's writes: OUTP <- OUTP + count mod 2^32, LAST_COUNT <- count
(41_llr_demap.md R171). -/
def State.advanceOut (s : State) (count : Nat) : State :=
  { s with outp := s.outp + BitVec.ofNat 32 count, lastCount := BitVec.ofNat 9 count }

/-- END's effect on STATUS.STATE (40_control.md R131). -/
def State.stop (s : State) : State := { s with engState := .idle }

/-! ### Errors (60_exceptions.md R260, R265, R267) -/

/-- The value recorded in ERR_CODE (60_exceptions.md R260). -/
def errorNumber : ErrorCode → BitVec 4
  | .illegalOpcode => 1 | .reservedField => 2 | .invalidConfig => 3 | .bufRange => 4 | .misaligned => 5

/-- Error entry, the effects of `raise E(info)` (60_exceptions.md R265): STATE, ERR_CODE, ERR_CP, ERR_INFO
and IRQ_STATUS.ERR; nothing else changes, CP and CMD_COUNT included. -/
def State.enterError (s : State) (e : ErrorCode) (info : Word) : State :=
  { s with engState := .error, errCode := errorNumber e, errCp := s.cp, errInfo := info,
           irqStatus := s.irqStatus ||| irqErr }

/-- `raise E(info)` (00_scope.md R13): the command ends in error entry, and the step in a next state. -/
def raise (e : ErrorCode) (info : Word) (s : State) : Answer := .next (s.enterError e info)

/-- The return from an error, CTRL.CLEAR (60_exceptions.md R267, 10_state.md R50): ERROR to IDLE, no effect
in another state; the error registers keep their values. -/
def State.clearError (s : State) : State :=
  match s.engState with
  | .error => { s with engState := .idle }
  | .idle => s
  | .busy => s

/-- CTRL.START (10_state.md R50): from IDLE to BUSY; otherwise it is ignored and sets IGN. -/
def State.start (s : State) : State :=
  match s.engState with
  | .idle => { s with engState := .busy }
  | .busy => s.pend irqIgn
  | .error => s.pend irqIgn

/-! ### Range checks (60_exceptions.md R263) -/

/-- Whether a region of `size` bytes at `base` lies in BUF, in unbounded integers. -/
abbrev State.inRange (s : State) (base : Word) (size : Nat) : Prop := base.toNat + size ≤ s.params.bufBytes

/-- The base of the first region, in order, that is not in range. -/
def State.firstOutside (s : State) : List (Word × Nat) → Option Word
  | [] => none
  | (base, size) :: rest => if s.inRange base size then s.firstOutside rest else some base

/-! ### Reset (10_state.md R60; 70_reset_and_hazards.md R290, R292) -/

/-- Every CSR at its reset value; BUF, the build and the model's own fields as they were. -/
def State.resetCsrs (s : State) : State :=
  { State.reset with buf := s.buf, params := s.params, inbox := s.inbox, hostResp := s.hostResp,
                     freeIdx := s.freeIdx }

/-- Hardware reset (70_reset_and_hazards.md R290): every CSR at its reset value, every BUF byte
uninitialised, the constants as they are. The events still to come stay (log entry 11). -/
def State.hardwareReset (s : State) : State := { s.resetCsrs with buf := [] }

end Sys2Proof.Machine
end

