-- ==== Sys2Proof/Machine/Operands.lean ====
section
/-! DEFINITION. The operands of the commands: the values of the descriptor's fields (30_encoding.md R103),
the input batch of a demap command (41_llr_demap.md R150) and its regions (R170), the input grids of
CHOLINV (43_cholesky.md R231, R233). -/

namespace Sys2Proof.Machine

/-! ### Field values (30_encoding.md R103) -/

/-- L: 1 or 2. -/
def layerCount : Layers → Nat
  | .one => 1 | .two => 2

/-- nSc: 4, 8, 12 or 16. -/
def subcarrierCount : Subcarriers → Nat
  | .n4 => 4 | .n8 => 8 | .n12 => 12 | .n16 => 16

/-! ### Demap operands -/

/-- What a demap command reads of SCALE and LLR_RANGE (41_llr_demap.md R158). -/
def State.llrConfig (s : State) : LlrConfig :=
  { shift := s.shift.toNat, low := s.low.toInt, high := s.high.toInt }

/-- The inputs of lane `i` of layer `l` (41_llr_demap.md R150). -/
def readLane (m : Memory) (sym beta winv : Word) (l i : Nat) : Option LaneInput :=
  match m.readHalf (sym.toNat + 64 * l + 4 * i), m.readHalf (sym.toNat + 64 * l + 4 * i + 2),
    m.readHalf (beta.toNat + 32 * l + 2 * i), m.readHalf (winv.toNat + 32 * l + 2 * i) with
  | some vi, some vq, some vb, some vw => some { i := vi, q := vq, beta := vb, w := vw }
  | _, _, _, _ => none

/-- The whole read set of a demap command (41_llr_demap.md R150, R170; 42_dmrs_demap.md R205): lanes 0 to
nSc - 1 of each layer, selected or not; none if a byte of it is uninitialised. -/
def readBatch (m : Memory) (sym beta winv : Word) (lyr : Layers) (nsc : Subcarriers) :
    Option (List (List LaneInput)) :=
  readAll (fun l => readAll (fun i => readLane m sym beta winv l i) (subcarrierCount nsc)) (layerCount lyr)

/-- The inputs of lane `i` of layer `l` in a batch that was read. -/
def laneOf (batch : List (List LaneInput)) (l i : Nat) : LaneInput := (batch.getD l []).getD i default

/-- The number of LLR bytes (41_llr_demap.md R170, 42_dmrs_demap.md R204). -/
def llrCount (order : Modulation) (lyr : Layers) (sel : List Nat) : Nat :=
  sel.length * layerCount lyr * bitsPerSymbol order

/-- The regions a demap command checks, in order (41_llr_demap.md R170). -/
def State.demapRegions (s : State) (order : Modulation) (lyr : Layers) (nsc : Subcarriers) (sel : List Nat)
    (sym beta winv : Word) : List (Word × Nat) :=
  [(sym, 64 * (layerCount lyr - 1) + 4 * subcarrierCount nsc),
   (beta, 32 * (layerCount lyr - 1) + 2 * subcarrierCount nsc),
   (winv, 32 * (layerCount lyr - 1) + 2 * subcarrierCount nsc),
   (s.outp, llrCount order lyr sel)]

/-- The output bytes in store order (41_llr_demap.md R169): selected lane, then layer, then LLR. -/
def llrOutput (order : Modulation) (cfg : LlrConfig) (lyr : Layers) (sel : List Nat)
    (batch : List (List LaneInput)) : List Byte :=
  sel.flatMap fun i => (List.range (layerCount lyr)).flatMap fun l => llrBytes order cfg (laneOf batch l i)

/-- The lanes DEMAP selects: all of 0 to nSc - 1 (41_llr_demap.md R172). -/
def allLanes (nsc : Subcarriers) : List Nat := List.range (subcarrierCount nsc)

/-- The lanes DEMAP_DMRS selects (42_dmrs_demap.md R204). -/
def dmrsLanes (p : Config.Params) (nsc : Subcarriers) (dtype : DmrsType) (ncdm : CdmGroups)
    (ppar : PortParity) : List Nat :=
  lanesOf (dmrsMask p.dmrsSel dtype ncdm ppar &&& lanesBelow (subcarrierCount nsc))

/-! ### CHOLINV operands -/

/-- The size in bytes of a batch of 16 complex n×n matrices (43_cholesky.md R231). -/
def gridBytes (n : Nat) : Nat := 128 * n * n

/-- `elem(base, p, r, c, k)` (43_cholesky.md R231). -/
def elemAddr (base n p r c k : Nat) : Nat := base + (((p * n + r) * n + c) * 16 + k) * 4

/-- A complex number of two binary32 parts (43_cholesky.md R235). -/
structure Cplx where
  re : F32
  im : F32
  deriving DecidableEq, Repr, Inhabited

/-- Element (r, c) of lane `k` of the input, both parts (43_cholesky.md R231). -/
def readElem (m : Memory) (src n r c k : Nat) : Option Cplx :=
  match m.readWord (elemAddr src n 0 r c k), m.readWord (elemAddr src n 1 r c k) with
  | some re, some im => some { re := re, im := im }
  | _, _ => none

/-- The lower triangle with the diagonal of lane `k`, by rows (43_cholesky.md R231, R233); the imaginary
part of a diagonal element is read too. -/
def readLower (m : Memory) (src n k : Nat) : Option (List (List Cplx)) :=
  readAll (fun r => readAll (fun c => readElem m src n r c k) (r + 1)) n

/-- The whole read set of CHOLINV (43_cholesky.md R231), lane by lane. -/
def readGrids (m : Memory) (src n : Nat) : Option (List (List (List Cplx))) :=
  readAll (fun k => readLower m src n k) lanes

end Sys2Proof.Machine
end

