-- ==== Sys2Proof/Machine/Cholesky.lean ====
section
/-! DEFINITION. The Cholesky inverse of one lane (43_cholesky.md R233 to R241): complex operations in
binary32, the three phases, the pivot diagnostic. Every sum runs left to right in ascending index order
(R237). A matrix is a list of columns, each a list indexed by row; entries outside the triangle that a
phase defines are 0 and are not used. -/

namespace Sys2Proof.Machine

/-! ### Complex operations (43_cholesky.md R235) -/

def cmul (x y : Cplx) : Cplx :=
  { re := subf (mulf x.re y.re) (mulf x.im y.im), im := addf (mulf x.re y.im) (mulf x.im y.re) }

def cadd (x y : Cplx) : Cplx := { re := addf x.re y.re, im := addf x.im y.im }

def csub (x y : Cplx) : Cplx := { re := subf x.re y.re, im := subf x.im y.im }

def conj (x : Cplx) : Cplx := { re := x.re, im := negf x.im }

def cscale (x : Cplx) (s : F32) : Cplx := { re := mulf x.re s, im := mulf x.im s }

def norm2 (x : Cplx) : F32 := addf (mulf x.re x.re) (mulf x.im x.im)

/-- (+0.0, +0.0). -/
def czero : Cplx := { re := 0, im := 0 }

/-- Entry (row, column) of a matrix held by columns. -/
def colEntry (cols : List (List Cplx)) (row col : Nat) : Cplx := (cols.getD col []).getD row czero

/-- The indices `a`, …, `b - 1`. -/
def indices (a b : Nat) : List Nat := (List.range (b - a)).map (a + ·)

/-- The input of one lane (43_cholesky.md R233): A[r][c] for r ≥ c, the imaginary part of the diagonal
taken as +0.0. -/
def inputEntry (rows : List (List Cplx)) (r c : Nat) : Cplx :=
  let x := (rows.getD r []).getD c czero
  if r = c then { re := x.re, im := 0 } else x

/-! ### Phase 1 (43_cholesky.md R238) -/

/-- The columns of G, the r[j] and the pivot diagnostic so far. -/
structure Factor where
  cols  : List (List Cplx)
  recip : List F32
  npd   : Bool
  deriving DecidableEq, Repr, Inhabited

/-- The pivot d of column `j`: A[j][j].re less norm2(G[j][k]) for k = 0 to j - 1. -/
def pivot (a : Nat → Nat → Cplx) (f : Factor) (j : Nat) : F32 :=
  (List.range j).foldl (fun d k => subf d (norm2 (colEntry f.cols j k))) (a j j).re

/-- G[i][j] for i > j, with r[j] given. -/
def factorEntry (a : Nat → Nat → Cplx) (f : Factor) (j : Nat) (rj : F32) (i : Nat) : Cplx :=
  cscale
    ((List.range j).foldl
      (fun acc k => csub acc (cmul (colEntry f.cols i k) (conj (colEntry f.cols j k)))) (a i j))
    rj

/-- One column of phase 1. -/
def factorStep (rsqrt : F32 → F32) (a : Nat → Nat → Cplx) (n : Nat) (f : Factor) (j : Nat) : Factor :=
  let d := pivot a f j
  let rj := rsqrt d
  { cols := f.cols ++ [(List.range n).map fun i => if j < i then factorEntry a f j rj i else czero],
    recip := f.recip ++ [rj],
    npd := f.npd || !positivef d }

/-- Phase 1: the factorization, column by column. -/
def factorize (rsqrt : F32 → F32) (a : Nat → Nat → Cplx) (n : Nat) : Factor :=
  (List.range n).foldl (factorStep rsqrt a n) { cols := [], recip := [], npd := false }

/-! ### Phase 2 (43_cholesky.md R239) -/

/-- L[i][j], the next entry of column `j` whose entries 0 to i - 1 are given. -/
def invertEntry (f : Factor) (j i : Nat) (col : List Cplx) : Cplx :=
  if i < j then czero
  else if i = j then { re := f.recip.getD j 0, im := 0 }
  else
    let acc := (indices j i).foldl
      (fun acc k => cadd acc (cmul (colEntry f.cols i k) (col.getD k czero))) czero
    { re := negf (mulf (f.recip.getD i 0) acc.re), im := negf (mulf (f.recip.getD i 0) acc.im) }

/-- Column `j` of L = G⁻¹, by forward substitution. -/
def invertColumn (f : Factor) (n j : Nat) : List Cplx :=
  (List.range n).foldl (fun col i => col ++ [invertEntry f j i col]) []

/-- Phase 2: the columns of L. -/
def invertFactor (f : Factor) (n : Nat) : List (List Cplx) := (List.range n).map (invertColumn f n)

/-! ### Phase 3 (43_cholesky.md R240) -/

/-- Inv[i][j] for i ≥ j: the sum of conj(L[k][i])·L[k][j], with a diagonal imaginary part of +0.0. -/
def productEntry (l : List (List Cplx)) (n i j : Nat) : Cplx :=
  let acc := (indices i n).foldl
    (fun acc k => cadd acc (cmul (conj (colEntry l k i)) (colEntry l k j))) czero
  if i = j then { re := acc.re, im := 0 } else acc

/-- Inv[r][c]: the upper triangle is the conjugate of the lower. -/
def inverseEntry (l : List (List Cplx)) (n r c : Nat) : Cplx :=
  if c ≤ r then productEntry l n r c else conj (productEntry l n c r)

/-! ### One lane, and the batch -/

/-- The output of one lane: Inv by rows, and whether a pivot failed d > 0 (43_cholesky.md R241). -/
structure LaneInverse where
  rows : List (List Cplx)
  npd  : Bool
  deriving DecidableEq, Repr, Inhabited

/-- Phases 1 to 3 on the lower triangle of one lane, given by rows (43_cholesky.md R232, R238 to R241). -/
def invertLane (rsqrt : F32 → F32) (n : Nat) (rows : List (List Cplx)) : LaneInverse :=
  let f := factorize rsqrt (inputEntry rows) n
  let l := invertFactor f n
  { rows := (List.range n).map fun r => (List.range n).map fun c => inverseEntry l n r c, npd := f.npd }

/-- The word of part `p` (0 real, 1 imaginary), row `r`, column `c` of a lane's output. -/
def outputWord (x : LaneInverse) (p r c : Nat) : F32 :=
  let e := (x.rows.getD r []).getD c czero
  if p = 0 then e.re else e.im

/-- The output grids as bytes in the order of 43_cholesky.md R231: part, row, column, lane. -/
def gridOutput (n : Nat) (invs : List LaneInverse) : List Byte :=
  (List.range 2).flatMap fun p => (List.range n).flatMap fun r => (List.range n).flatMap fun c =>
    invs.flatMap fun x => leBytes 4 (outputWord x p r c).toNat

end Sys2Proof.Machine
end

