-- ==== Sys2Proof/Machine/Cholinv.lean ====
section
/-! DEFINITION. CHOLINV (43_cholesky.md R242). -/

namespace Sys2Proof.Machine

/-- The error CHOLINV raises, if any, with its information word (60_exceptions.md R262 steps 4 and 6): N
outside 2 to 16, then the regions of SRC and DST. LLR_RANGE is not looked at. -/
def State.cholinvError (s : State) (n : BitVec 5) (src dst : Word) : Option (ErrorCode × Word) :=
  if legalSize n then
    match s.firstOutside [(src, gridBytes n.toNat), (dst, gridBytes n.toNat)] with
    | some base => some (.bufRange, base)
    | none => none
  else some (.invalidConfig, w0Cholinv n)

/-- The inverses of the 16 lanes (43_cholesky.md R232), with the build's RSQRT. -/
def State.laneInverses (s : State) (n : Nat) (grids : List (List (List Cplx))) : List LaneInverse :=
  grids.map (invertLane (rsqrtBy s.params.rsqrtTable) n)

/-- NPD is set when a pivot of any lane failed (43_cholesky.md R241). -/
def State.pendNpd (s : State) (invs : List LaneInverse) : State :=
  if invs.any (·.npd) then s.pend irqNpd else s

/-- CHOLINV (43_cholesky.md R242). -/
def execCholinv (n : BitVec 5) (src dst : Word) (s : State) : Answer :=
  match s.cholinvError n src dst with
  | some (e, info) => raise e info s
  | none =>
    match readGrids s.buf src.toNat n.toNat with
    | none => .fault .uninitRead
    | some grids =>
      let invs := s.laneInverses n.toNat grids
      .next ((s.writeBuf dst.toNat (gridOutput n.toNat invs)).pendNpd invs).advance

end Sys2Proof.Machine
end

