-- ==== Sys2Proof/Machine/Control.lean ====
section
/-! DEFINITION. The control commands (40_control.md R131 to R135). -/

namespace Sys2Proof.Machine

/-- NOP (40_control.md R132): nothing but the end of the command. -/
def execNop (s : State) : Answer := .next s.advance

/-- END (40_control.md R131): STATE <- IDLE, DONE <- 1, and CP moves past it. -/
def execEnd (s : State) : Answer := .next (s.stop.pend irqDone).advance

/-- JUMP (40_control.md R133): MISALIGNED when ADDR[3:0] is not 0, else CP <- ADDR; the range of the
target is the next fetch's affair. -/
def execJump (addr : Word) (s : State) : Answer :=
  if addr.extractLsb' 0 4 ≠ 0 then raise .misaligned addr s else .next (s.complete addr)

/-- SETOUT (40_control.md R134): OUTP <- ADDR, not checked here. -/
def execSetout (addr : Word) (s : State) : Answer := .next (s.setOutp addr).advance

/-- CONFIG (40_control.md R135): SHIFT, LOW and HIGH, not checked here. -/
def execConfig (shift : BitVec 6) (low high : Half) (s : State) : Answer :=
  .next (s.setConfig shift low high).advance

end Sys2Proof.Machine
end

