-- ==== Sys2Proof/Machine/Demap.lean ====
section
/-! DEFINITION. The common body of the demap commands (41_llr_demap.md R152, R170 to R172) and the five
DEMAP commands (R173 to R177). -/

namespace Sys2Proof.Machine

/-- The error a demap command raises, if any, with its information word (60_exceptions.md R262 steps 4 and
6): LOW > HIGH, then the regions of SYM, BETA, WINV and OUTP in order. -/
def State.demapError (s : State) (order : Modulation) (w0 : Word) (lyr : Layers) (nsc : Subcarriers)
    (sel : List Nat) (sym beta winv : Word) : Option (ErrorCode × Word) :=
  if s.high.toInt < s.low.toInt then some (.invalidConfig, w0)
  else
    match s.firstOutside (s.demapRegions order lyr nsc sel sym beta winv) with
    | some base => some (.bufRange, base)
    | none => none

/-- The common body (41_llr_demap.md R172, 42_dmrs_demap.md R207) over the selected lanes `sel`: the checks,
all reads, then the LLR bytes at OUTP, OUTP and LAST_COUNT. `w0` is the descriptor's W0
(log entry 13). -/
def demapOver (order : Modulation) (w0 : Word) (lyr : Layers) (nsc : Subcarriers) (sel : List Nat)
    (sym beta winv : Word) (s : State) : Answer :=
  match s.demapError order w0 lyr nsc sel sym beta winv with
  | some (e, info) => raise e info s
  | none =>
    match readBatch s.buf sym beta winv lyr nsc with
    | none => .fault .uninitRead
    | some batch =>
      .next ((s.writeBuf s.outp.toNat (llrOutput order s.llrConfig lyr sel batch)).advanceOut
        (llrCount order lyr sel)).advance

/-- DEMAP of an order (41_llr_demap.md R172). -/
def demap (order : Modulation) (lyr : Layers) (nsc : Subcarriers) (sym beta winv : Word) (s : State) :
    Answer :=
  demapOver order (w0Demap order lyr nsc) lyr nsc (allLanes nsc) sym beta winv s

/-- DEMAP.BPSK (41_llr_demap.md R173). -/
def execDemapBpsk (lyr : Layers) (nsc : Subcarriers) (sym beta winv : Word) (s : State) : Answer :=
  demap .bpsk lyr nsc sym beta winv s

/-- DEMAP.QPSK (41_llr_demap.md R174). -/
def execDemapQpsk (lyr : Layers) (nsc : Subcarriers) (sym beta winv : Word) (s : State) : Answer :=
  demap .qpsk lyr nsc sym beta winv s

/-- DEMAP.QAM16 (41_llr_demap.md R175). -/
def execDemapQam16 (lyr : Layers) (nsc : Subcarriers) (sym beta winv : Word) (s : State) : Answer :=
  demap .qam16 lyr nsc sym beta winv s

/-- DEMAP.QAM64 (41_llr_demap.md R176). -/
def execDemapQam64 (lyr : Layers) (nsc : Subcarriers) (sym beta winv : Word) (s : State) : Answer :=
  demap .qam64 lyr nsc sym beta winv s

/-- DEMAP.QAM256 (41_llr_demap.md R177). -/
def execDemapQam256 (lyr : Layers) (nsc : Subcarriers) (sym beta winv : Word) (s : State) : Answer :=
  demap .qam256 lyr nsc sym beta winv s

end Sys2Proof.Machine
end

