-- ==== Sys2Proof/Machine/DemapDmrs.lean ====
section
/-! DEFINITION. The five DEMAP_DMRS commands (42_dmrs_demap.md R207 to R212): the demap body over the lanes
that DMRS_SEL selects. -/

namespace Sys2Proof.Machine

/-- DEMAP_DMRS of an order (42_dmrs_demap.md R207). -/
def demapDmrs (order : Modulation) (lyr : Layers) (nsc : Subcarriers) (dtype : DmrsType)
    (ncdm : CdmGroups) (ppar : PortParity) (sym beta winv : Word) (s : State) : Answer :=
  demapOver order (w0Dmrs order lyr nsc dtype ncdm ppar) lyr nsc (dmrsLanes s.params nsc dtype ncdm ppar)
    sym beta winv s

/-- DEMAP_DMRS.BPSK (42_dmrs_demap.md R208). -/
def execDmrsBpsk (lyr : Layers) (nsc : Subcarriers) (dtype : DmrsType) (ncdm : CdmGroups)
    (ppar : PortParity) (sym beta winv : Word) (s : State) : Answer :=
  demapDmrs .bpsk lyr nsc dtype ncdm ppar sym beta winv s

/-- DEMAP_DMRS.QPSK (42_dmrs_demap.md R209). -/
def execDmrsQpsk (lyr : Layers) (nsc : Subcarriers) (dtype : DmrsType) (ncdm : CdmGroups)
    (ppar : PortParity) (sym beta winv : Word) (s : State) : Answer :=
  demapDmrs .qpsk lyr nsc dtype ncdm ppar sym beta winv s

/-- DEMAP_DMRS.QAM16 (42_dmrs_demap.md R210). -/
def execDmrsQam16 (lyr : Layers) (nsc : Subcarriers) (dtype : DmrsType) (ncdm : CdmGroups)
    (ppar : PortParity) (sym beta winv : Word) (s : State) : Answer :=
  demapDmrs .qam16 lyr nsc dtype ncdm ppar sym beta winv s

/-- DEMAP_DMRS.QAM64 (42_dmrs_demap.md R211). -/
def execDmrsQam64 (lyr : Layers) (nsc : Subcarriers) (dtype : DmrsType) (ncdm : CdmGroups)
    (ppar : PortParity) (sym beta winv : Word) (s : State) : Answer :=
  demapDmrs .qam64 lyr nsc dtype ncdm ppar sym beta winv s

/-- DEMAP_DMRS.QAM256 (42_dmrs_demap.md R212). -/
def execDmrsQam256 (lyr : Layers) (nsc : Subcarriers) (dtype : DmrsType) (ncdm : CdmGroups)
    (ppar : PortParity) (sym beta winv : Word) (s : State) : Answer :=
  demapDmrs .qam256 lyr nsc dtype ncdm ppar sym beta winv s

end Sys2Proof.Machine
end

