-- ==== Sys2Proof/Machine/Dispatch.lean ====
section
/-! DEFINITION. The meaning of each command, one arm per constructor of `Instr`. -/

namespace Sys2Proof.Machine

def exec (i : Instr) (s : State) : Host.Outcome State Fault Refusal :=
  match i with
  | .nop => Sys2Proof.Machine.execNop s
  | .endList => Sys2Proof.Machine.execEnd s
  | .jump addr => Sys2Proof.Machine.execJump addr s
  | .setout addr => Sys2Proof.Machine.execSetout addr s
  | .config shift low high => Sys2Proof.Machine.execConfig shift low high s
  | .demapBpsk lyr nsc sym beta winv => Sys2Proof.Machine.execDemapBpsk lyr nsc sym beta winv s
  | .demapQpsk lyr nsc sym beta winv => Sys2Proof.Machine.execDemapQpsk lyr nsc sym beta winv s
  | .demapQam16 lyr nsc sym beta winv => Sys2Proof.Machine.execDemapQam16 lyr nsc sym beta winv s
  | .demapQam64 lyr nsc sym beta winv => Sys2Proof.Machine.execDemapQam64 lyr nsc sym beta winv s
  | .demapQam256 lyr nsc sym beta winv => Sys2Proof.Machine.execDemapQam256 lyr nsc sym beta winv s
  | .dmrsBpsk lyr nsc t c p sym beta winv => Sys2Proof.Machine.execDmrsBpsk lyr nsc t c p sym beta winv s
  | .dmrsQpsk lyr nsc t c p sym beta winv => Sys2Proof.Machine.execDmrsQpsk lyr nsc t c p sym beta winv s
  | .dmrsQam16 lyr nsc t c p sym beta winv => Sys2Proof.Machine.execDmrsQam16 lyr nsc t c p sym beta winv s
  | .dmrsQam64 lyr nsc t c p sym beta winv => Sys2Proof.Machine.execDmrsQam64 lyr nsc t c p sym beta winv s
  | .dmrsQam256 lyr nsc t c p sym beta winv => Sys2Proof.Machine.execDmrsQam256 lyr nsc t c p sym beta winv s
  | .cholinv n src dst => Sys2Proof.Machine.execCholinv n src dst s

end Sys2Proof.Machine
end

