-- ==== Sys2Proof/Machine/Engine.lean ====
section
/-! DEFINITION. The ENGINE's turn (40_control.md R130): fetch (30_encoding.md R100), decode (R108), execute. -/

namespace Sys2Proof.Machine

/-- Why a fetch gives no descriptor. -/
inductive FetchStop where
  /-- CP + 16 > BUF_BYTES (30_encoding.md R100): the error BUF_RANGE(CP) -/
  | outside
  /-- a byte of the descriptor was never written (10_state.md R57) -/
  | uninit
  deriving DecidableEq, Repr

/-- The descriptor at an offset of BUF, all four words (30_encoding.md R100). -/
def Memory.readDescriptor (m : Memory) (a : Nat) : Option Descriptor :=
  match m.readWord a, m.readWord (a + 4), m.readWord (a + 8), m.readWord (a + 12) with
  | some w0, some w1, some w2, some w3 => some { w0 := w0, w1 := w1, w2 := w2, w3 := w3 }
  | _, _, _, _ => none

/-- Descriptor fetch at CP (30_encoding.md R100): the range check comes before any read. -/
def State.fetch (s : State) : Except FetchStop Descriptor :=
  if s.inRange s.cp 16 then
    match s.buf.readDescriptor s.cp.toNat with
    | some d => .ok d
    | none => .error .uninit
  else .error .outside

/-- One ENGINE step (40_control.md R130), for a BUSY ENGINE. -/
def engineStep (s : State) : Answer :=
  match s.fetch with
  | .error .outside => raise .bufRange s.cp s
  | .error .uninit => .fault .uninitRead
  | .ok d =>
    match decodeWords d with
    | .error e => raise e d.w0 s
    | .ok i => exec i s

/-- The ENGINE's turn: a step while BUSY; while IDLE or ERROR it has none and nothing happens
(40_control.md R130; log entry 3). -/
def engineTurn (s : State) : Answer :=
  match s.engState with
  | .busy => engineStep s
  | .idle => .next s
  | .error => .next s

/-- A descriptor placed where the ENGINE fetches next (at CP), with the ENGINE started: what the HOST's
writes of BUF and CTRL.START do (70_reset_and_hazards.md R295; log entry 4). -/
def State.placeAtFetch (s : State) (bs : List Byte) : State :=
  { s with engState := .busy, inbox := [], buf := s.buf.writeBytes s.cp.toNat bs }

end Sys2Proof.Machine
end

