-- ==== Sys2Proof/Machine/HostPort.lean ====
section
/-! DEFINITION. The host port: the host address map (20_memory.md R72), the CSRs (10_state.md R32 to R51), the
BUF window (20_memory.md R74, R75, R84) and soft reset (70_reset_and_hazards.md R292, R293). -/

namespace Sys2Proof.Machine

/-! ### CSRs (10_state.md R32) -/

/-- The CSRs of 10_state.md R32. -/
inductive Csr where
  | id | params | ctrl | status | cp | outp | scale | llrRange | lastCount | cmdCount
  | errCode | errCp | errInfo | irqEn | irqStatus
  deriving DecidableEq, Repr

/-- The CSR at an offset of the CSR block, none for a reserved offset (10_state.md R32, R48). -/
def csrAt (offset : Nat) : Option Csr :=
  match offset with
  | 0x000 => some .id
  | 0x004 => some .params
  | 0x008 => some .ctrl
  | 0x00C => some .status
  | 0x010 => some .cp
  | 0x014 => some .outp
  | 0x018 => some .scale
  | 0x01C => some .llrRange
  | 0x020 => some .lastCount
  | 0x024 => some .cmdCount
  | 0x028 => some .errCode
  | 0x02C => some .errCp
  | 0x030 => some .errInfo
  | 0x034 => some .irqEn
  | 0x038 => some .irqStatus
  | _ => none

/-- The number of STATUS.STATE (10_state.md R36). -/
def stateNumber : EngState → Word
  | .idle => 0 | .busy => 1 | .error => 2

/-- PARAMS (10_state.md R34). -/
def paramsValue (p : Config.Params) : Word :=
  field (BitVec.ofNat 5 p.bufAddrBits) 0 ||| field (BitVec.ofNat 5 lanes) 8
    ||| field (BitVec.ofNat 8 cmdVersion) 16

/-- The value a host read of a CSR returns (10_state.md R33 to R47). -/
def readCsr (c : Csr) (s : State) : Word :=
  match c with
  | .id => idValue
  | .params => paramsValue s.params
  | .ctrl => 0
  | .status => stateNumber s.engState
  | .cp => s.cp
  | .outp => s.outp
  | .scale => s.shift.setWidth 32
  | .llrRange => field s.low 0 ||| field s.high 16
  | .lastCount => s.lastCount.setWidth 32
  | .cmdCount => s.cmdCount
  | .errCode => s.errCode.setWidth 32
  | .errCp => s.errCp
  | .errInfo => s.errInfo
  | .irqEn => s.irqEn.setWidth 32
  | .irqStatus => s.irqStatus.setWidth 32

/-- A host write to a locked register (10_state.md R49): while BUSY it is ignored and sets IGN. -/
def State.lockedWrite (s : State) (written : State) : State :=
  match s.engState with
  | .busy => s.pend irqIgn
  | .idle => written
  | .error => written

/-! ### Soft reset (70_reset_and_hazards.md R292, R293) -/

/-- The write set of a demap command, as base and length; empty when it would raise an error
(70_reset_and_hazards.md R293, 41_llr_demap.md R170). -/
def State.demapWriteSet (s : State) (order : Modulation) (w0 : Word) (lyr : Layers) (nsc : Subcarriers)
    (sel : List Nat) (sym beta winv : Word) : Nat × Nat :=
  match s.demapError order w0 lyr nsc sel sym beta winv with
  | some _ => (s.outp.toNat, 0)
  | none => (s.outp.toNat, llrCount order lyr sel)

/-- The write set of DEMAP (41_llr_demap.md R170). -/
def State.plainWriteSet (s : State) (order : Modulation) (lyr : Layers) (nsc : Subcarriers)
    (sym beta winv : Word) : Nat × Nat :=
  s.demapWriteSet order (w0Demap order lyr nsc) lyr nsc (allLanes nsc) sym beta winv

/-- The write set of DEMAP_DMRS (42_dmrs_demap.md R205). -/
def State.dmrsWriteSet (s : State) (order : Modulation) (lyr : Layers) (nsc : Subcarriers)
    (t : DmrsType) (c : CdmGroups) (p : PortParity) (sym beta winv : Word) : Nat × Nat :=
  s.demapWriteSet order (w0Dmrs order lyr nsc t c p) lyr nsc (dmrsLanes s.params nsc t c p) sym beta winv

/-- The write set of CHOLINV (43_cholesky.md R231). -/
def State.cholinvWriteSet (s : State) (n : BitVec 5) (src dst : Word) : Nat × Nat :=
  match s.cholinvError n src dst with
  | some _ => (dst.toNat, 0)
  | none => (dst.toNat, gridBytes n.toNat)

/-- The write set of a command, as base and length (70_reset_and_hazards.md R293): empty for a control
command and for a command that would raise an error. -/
def State.writeSet (s : State) (i : Instr) : Nat × Nat :=
  match i with
  | .nop => (0, 0)
  | .endList => (0, 0)
  | .jump _ => (0, 0)
  | .setout _ => (0, 0)
  | .config _ _ _ => (0, 0)
  | .demapBpsk lyr nsc sym beta winv => s.plainWriteSet .bpsk lyr nsc sym beta winv
  | .demapQpsk lyr nsc sym beta winv => s.plainWriteSet .qpsk lyr nsc sym beta winv
  | .demapQam16 lyr nsc sym beta winv => s.plainWriteSet .qam16 lyr nsc sym beta winv
  | .demapQam64 lyr nsc sym beta winv => s.plainWriteSet .qam64 lyr nsc sym beta winv
  | .demapQam256 lyr nsc sym beta winv => s.plainWriteSet .qam256 lyr nsc sym beta winv
  | .dmrsBpsk lyr nsc t c p sym beta winv => s.dmrsWriteSet .bpsk lyr nsc t c p sym beta winv
  | .dmrsQpsk lyr nsc t c p sym beta winv => s.dmrsWriteSet .qpsk lyr nsc t c p sym beta winv
  | .dmrsQam16 lyr nsc t c p sym beta winv => s.dmrsWriteSet .qam16 lyr nsc t c p sym beta winv
  | .dmrsQam64 lyr nsc t c p sym beta winv => s.dmrsWriteSet .qam64 lyr nsc t c p sym beta winv
  | .dmrsQam256 lyr nsc t c p sym beta winv => s.dmrsWriteSet .qam256 lyr nsc t c p sym beta winv
  | .cholinv n src dst => s.cholinvWriteSet n src dst

/-- The next `n` free bytes (log entry 9). -/
def freeBytes (start n : Nat) : List Byte := (List.range n).map fun j => Config.freeByte (start + j)

/-- A region takes free bytes (70_reset_and_hazards.md R293). -/
def State.scramble (s : State) (base n : Nat) : State :=
  { s.writeBuf base (freeBytes s.freeIdx n) with freeIdx := s.freeIdx + n }

/-- `n` free bytes drawn (log entry 9). -/
def State.drawn (s : State) (n : Nat) : State := { s with freeIdx := s.freeIdx + n }

/-- The descriptor at CP with a free byte in place of each byte that nothing has written (log entry 10). -/
def State.freeDescriptor (s : State) : Descriptor :=
  descriptorOf ((List.range 16).map fun j =>
    (s.buf.readByte (s.cp.toNat + j)).getD (Config.freeByte (s.freeIdx + j)))

/-- The command of a descriptor is interrupted: its write set takes free bytes
(70_reset_and_hazards.md R293). -/
def State.interrupted (s : State) (d : Descriptor) : State :=
  match decodeWords d with
  | .error _ => s
  | .ok i => s.scramble (s.writeSet i).1 (s.writeSet i).2

/-- Soft reset (70_reset_and_hazards.md R292, R293): the CSRs at their reset values; while BUSY, the write set
of the command at CP takes free bytes first. Where bytes of the descriptor were never written the command
at CP is itself open: it is the one of `freeDescriptor` (log entry 10). -/
def softReset (s : State) : Answer :=
  match s.engState with
  | .idle => .next s.resetCsrs
  | .error => .next s.resetCsrs
  | .busy =>
    match s.fetch with
    | .error .outside => .next s.resetCsrs
    | .error .uninit => .next ((s.drawn 16).interrupted s.freeDescriptor).resetCsrs
    | .ok d => .next (s.interrupted d).resetCsrs

/-! ### CSR writes -/

/-- CLEAR of a CTRL write (10_state.md R50). -/
def State.ctrlClear (s : State) (v : Word) : State := if v.getLsbD 1 then s.clearError else s

/-- START of a CTRL write (10_state.md R50). -/
def State.ctrlStart (s : State) (v : Word) : State := if v.getLsbD 0 then s.start else s

/-- A host write of CTRL (10_state.md R50): SOFT_RESET alone, or CLEAR and then START. -/
def writeCtrl (v : Word) (s : State) : Answer :=
  if v.getLsbD 2 then softReset s else .next ((s.ctrlClear v).ctrlStart v)

/-- A host write of a CSR (10_state.md R33 to R47, R49, R50): read-only ones ignore it. -/
def writeCsr (c : Csr) (v : Word) (s : State) : Answer :=
  match c with
  | .ctrl => writeCtrl v s
  | .cp => .next (s.lockedWrite { s with cp := v &&& 0xFFFFFFF0 })
  | .outp => .next (s.lockedWrite { s with outp := v })
  | .scale => .next (s.lockedWrite { s with shift := v.extractLsb' 0 6 })
  | .llrRange => .next (s.lockedWrite { s with low := v.extractLsb' 0 16, high := v.extractLsb' 16 16 })
  | .irqEn => .next { s with irqEn := v.extractLsb' 0 4 }
  | .irqStatus => .next (s.acknowledge v)
  | .id => .next s
  | .params => .next s
  | .status => .next s
  | .lastCount => .next s
  | .cmdCount => .next s
  | .errCode => .next s
  | .errCp => .next s
  | .errInfo => .next s

/-! ### Host accesses -/

/-- Where a host address leads (20_memory.md R72). -/
inductive HostRegion where
  /-- the CSR block, 0x000 to 0xFFF -/
  | csrBlock
  /-- reserved, 0x1000 to BUF_BYTES - 1 -/
  | reserved
  /-- the BUF window, with the BUF offset -/
  | bufWindow (offset : Nat)
  /-- beyond the port's address bits -/
  | nowhere
  deriving DecidableEq, Repr

/-- The host address map (20_memory.md R72). An access belongs to the region of its first byte, also where it is not
aligned and its last bytes lie in the next region: the model's choice (DESIGN CHOICE, log entry 27). -/
def hostRegion (p : Config.Params) (addr : Nat) : HostRegion :=
  if addr < 0x1000 then .csrBlock
  else if addr < p.bufBytes then .reserved
  else if addr < 2 * p.bufBytes then .bufWindow (addr - p.bufBytes)
  else .nowhere

/-- A CSR access must be 4 bytes wide and 4-aligned (10_state.md R51). -/
abbrev csrAccessOk (addr size : Nat) : Prop := size = 4 ∧ addr % 4 = 0

/-- A BUF access must be 1, 2 or 4 bytes wide and naturally aligned (20_memory.md R74). -/
abbrev bufAccessOk (addr size : Nat) : Prop := (size = 1 ∨ size = 2 ∨ size = 4) ∧ addr % size = 0

/-- The host port's answer to an access, kept for the reader of the state (log entry 5). -/
def State.respond (s : State) (r : HostResp) : State := { s with hostResp := r }

/-- A host read (20_memory.md R72 to R75, R80, R84): no side effect on the block. A read of BUF while BUSY is the fault
of R84 also where it meets bytes that nothing has written, to which 10_state.md R57 gives the other fault: the model's
choice (DESIGN CHOICE, log entry 29). -/
def hostRead (addr size : Nat) (s : State) : Answer :=
  match hostRegion s.params addr with
  | .nowhere => .fault .noSuchHostAddress
  | .reserved => .next (s.respond (.okayRead 0))
  | .csrBlock =>
    if csrAccessOk addr size then
      match csrAt addr with
      | some c => .next (s.respond (.okayRead (readCsr c s)))
      | none => .next (s.respond (.okayRead 0))
    else .next (s.respond .busError)
  | .bufWindow offset =>
    if bufAccessOk addr size then
      match s.engState with
      | .busy => .fault .hostRace
      | .idle => fromBuf offset
      | .error => fromBuf offset
    else .next (s.respond .busError)
where
  /-- The read of BUF itself. -/
  fromBuf (offset : Nat) : Answer :=
    match s.buf.memRead offset size with
    | some v => .next (s.respond (.okayRead (BitVec.ofNat 32 v)))
    | none => .fault .uninitRead

/-- A host write (20_memory.md R72 to R75, R84; 10_state.md R48 to R51). -/
def hostWrite (addr size : Nat) (value : Word) (s : State) : Answer :=
  match hostRegion s.params addr with
  | .nowhere => .fault .noSuchHostAddress
  | .reserved => .next (s.respond .okayWrite)
  | .csrBlock =>
    if csrAccessOk addr size then
      match csrAt addr with
      | some c => writeCsr c value (s.respond .okayWrite)
      | none => .next (s.respond .okayWrite)
    else .next (s.respond .busError)
  | .bufWindow offset =>
    if bufAccessOk addr size then
      match s.engState with
      | .busy => .fault .hostRace
      | .idle => .next ((s.writeBuf offset (leBytes size value.toNat)).respond .okayWrite)
      | .error => .next ((s.writeBuf offset (leBytes size value.toNat)).respond .okayWrite)
    else .next (s.respond .busError)

/-- A host access (20_memory.md R78: one event between two ENGINE steps). -/
def hostAccess (a : HostAccess) (s : State) : Answer :=
  match a with
  | .read addr size => hostRead addr size s
  | .write addr size value => hostWrite addr size value s

/-- One event of the host side (20_memory.md R83; log entry 4). -/
def portEvent (e : PortEvent) (s : State) : Answer :=
  match e with
  | .access a => hostAccess a s
  | .hardwareReset => .next s.hardwareReset
  | .engineTurn => engineTurn s

/-- The state with its first event taken. -/
def State.withInbox (s : State) (rest : List PortEvent) : State := { s with inbox := rest }

end Sys2Proof.Machine
end

