-- ==== Sys2Proof/Machine/Step.lean ====
section
/-! DEFINITION. The step: the next event of the total order of 20_memory.md R83. -/

namespace Sys2Proof.Machine

/-- One event: the first of `inbox`, or the ENGINE's turn when none is waiting (log entry 4). -/
def step (s : State) : Host.Outcome State Fault Refusal :=
  match s.inbox with
  | [] => engineTurn s
  | e :: rest => portEvent e (s.withInbox rest)

/-- `s` with the descriptor of a table word where the ENGINE fetches next, and the ENGINE BUSY: what
loading a program and CTRL.START do from outside the block (log entry 4). -/
def State.withFetchWord (s : State) (nbits w : Nat) : State := s.placeAtFetch (tableBytes nbits w)

end Sys2Proof.Machine
end

