-- ==== Sys2Proof/Machine/Assembler.lean ====
section
/-! DEFINITION. LLRD-CMD1 assembly (30_encoding.md R109, R110) on syntax trees: operands, directives,
pseudo-instructions, labels. The characters of a source line are not modelled (log entry 20). No step of
the machine uses this file: the assembler is the HOST's tool. -/

namespace Sys2Proof.Machine

/-- An address operand: a number or a label (30_encoding.md R109). -/
inductive AsmAddr where
  | num (n : Nat)
  | label (name : String)
  deriving DecidableEq, Repr

/-- `l=` and `nsc=`, given or both omitted (30_encoding.md R109, R110). -/
inductive AsmLanes where
  | given (l nsc : Nat)
  | omitted
  deriving DecidableEq, Repr

/-- A command line (30_encoding.md R109) or a pseudo-instruction (R110). -/
inductive AsmCommand where
  | nop
  | endList
  | halt
  | jump (target : AsmAddr)
  | b (target : AsmAddr)
  | setout (addr : AsmAddr)
  | config (shift : Nat) (low high : Int)
  | configDefault
  | demap (m : Modulation) (dims : AsmLanes) (sym beta w : AsmAddr)
  | demapDmrs (m : Modulation) (dims : AsmLanes) (type cdm port : Nat) (sym beta w : AsmAddr)
  | cholinv (n : Nat) (src dst : AsmAddr)
  deriving DecidableEq, Repr

/-- A decimal number for `.float`: (-1)^neg · digits · 10^exp10. -/
structure AsmDecimal where
  neg    : Bool
  digits : Nat
  exp10  : Int
  deriving DecidableEq, Repr

/-- One line of a source (30_encoding.md R109). The address of `.org` is a number and the data of `.word`, `.half` and
`.byte` are values: that a label stands for neither is the model's choice (DESIGN CHOICE, log entry 28). -/
inductive AsmLine where
  | command (c : AsmCommand)
  | label (name : String)
  | org (addr : Nat)
  | word (vs : List Word)
  | half (vs : List Half)
  | byte (vs : List Byte)
  | float (vs : List AsmDecimal)
  deriving DecidableEq, Repr

/-- The value of an address operand, if it fits 32 bits and its label is defined (R109; log entry 20). Of a label
that is defined twice the first definition counts, and the source is not rejected: the model's choice (DESIGN
CHOICE, log entry 24). -/
def asmAddr (labels : List (String × Nat)) (a : AsmAddr) : Option Word :=
  match a with
  | .num n => if n < 2 ^ 32 then some (BitVec.ofNat 32 n) else none
  | .label name =>
    match labels.lookup name with
    | some n => if n < 2 ^ 32 then some (BitVec.ofNat 32 n) else none
    | none => none

/-- `l=<1|2>`. -/
def asmLayers (l : Nat) : Option Layers :=
  match l with
  | 1 => some .one
  | 2 => some .two
  | _ => none

/-- `nsc=<4|8|12|16>`. -/
def asmSubcarriers (n : Nat) : Option Subcarriers :=
  match n with
  | 4 => some .n4
  | 8 => some .n8
  | 12 => some .n12
  | 16 => some .n16
  | _ => none

/-- `l` and `nsc`; omitted they are 1 and 16 (30_encoding.md R110). -/
def asmLanes (d : AsmLanes) : Option (Layers × Subcarriers) :=
  match d with
  | .omitted => some (.one, .n16)
  | .given l nsc =>
    match asmLayers l, asmSubcarriers nsc with
    | some lyr, some n => some (lyr, n)
    | _, _ => none

/-- `type=<1|2>`. -/
def asmType (t : Nat) : Option DmrsType :=
  match t with
  | 1 => some .type1
  | 2 => some .type2
  | _ => none

/-- `cdm=<1|2>`. -/
def asmCdm (c : Nat) : Option CdmGroups :=
  match c with
  | 1 => some .one
  | 2 => some .two
  | _ => none

/-- `port=<n>`: PPAR = n mod 2 (30_encoding.md R109). -/
def asmPort (n : Nat) : PortParity := if n % 2 = 0 then .even else .odd

/-- An int16 operand. -/
def asmInt16 (v : Int) : Option Half := if -32768 ≤ v ∧ v ≤ 32767 then some (BitVec.ofInt 16 v) else none

/-- The command of a line, none where an operand is outside its range (30_encoding.md R109, R110). -/
def asmCommand (labels : List (String × Nat)) (c : AsmCommand) : Option Instr :=
  match c with
  | .nop => some .nop
  | .endList => some .endList
  | .halt => some .endList
  | .jump t => (asmAddr labels t).map .jump
  | .b t => (asmAddr labels t).map .jump
  | .setout a => (asmAddr labels a).map .setout
  | .config shift low high =>
    match asmInt16 low, asmInt16 high with
    | some lo, some hi => if shift < 64 then some (.config (BitVec.ofNat 6 shift) lo hi) else none
    | _, _ => none
  | .configDefault => some (.config 37 0xFF80 0x007F)
  | .demap m dims sym beta w =>
    match asmLanes dims, asmAddr labels sym, asmAddr labels beta, asmAddr labels w with
    | some (lyr, nsc), some a, some b, some c => some (demapInstr m lyr nsc a b c)
    | _, _, _, _ => none
  | .demapDmrs m dims type cdm port sym beta w =>
    match asmLanes dims, asmType type, asmCdm cdm, asmAddr labels sym, asmAddr labels beta,
      asmAddr labels w with
    | some (lyr, nsc), some t, some g, some a, some b, some c =>
      some (dmrsInstr m lyr nsc t g (asmPort port) a b c)
    | _, _, _, _, _, _ => none
  | .cholinv n src dst =>
    match asmAddr labels src, asmAddr labels dst with
    | some a, some b => if 2 ≤ n ∧ n ≤ 16 then some (.cholinv (BitVec.ofNat 5 n) a b) else none
    | _, _ => none

/-- The binary32 value nearest to a decimal, for `.float`, by the rounding of 43_cholesky.md R234: the model's
choice (DESIGN CHOICE, log entry 26). -/
def asmFloat (d : AsmDecimal) : F32 :=
  match d.exp10 with
  | .ofNat k => roundF32 d.neg (d.digits * 10 ^ k) 0 false
  | .negSucc k =>
    let scale := 64 + 4 * (k + 1)
    let num := d.digits * 2 ^ scale
    roundF32 d.neg (num / 10 ^ (k + 1)) (-(scale : Int)) (num % 10 ^ (k + 1) != 0)

/-- The offset after a line that stands at `at_`. -/
def asmNext (at_ : Nat) (l : AsmLine) : Nat :=
  match l with
  | .command _ => at_ + 16
  | .label _ => at_
  | .org a => a
  | .word vs => at_ + 4 * vs.length
  | .half vs => at_ + 2 * vs.length
  | .byte vs => at_ + vs.length
  | .float vs => at_ + 4 * vs.length

/-- First pass: the labels with their offsets. -/
def asmLabels (at_ : Nat) : List AsmLine → List (String × Nat)
  | [] => []
  | l :: rest =>
    match l with
    | .label name => (name, at_) :: asmLabels at_ rest
    | .command _ => asmLabels (asmNext at_ l) rest
    | .org _ => asmLabels (asmNext at_ l) rest
    | .word _ => asmLabels (asmNext at_ l) rest
    | .half _ => asmLabels (asmNext at_ l) rest
    | .byte _ => asmLabels (asmNext at_ l) rest
    | .float _ => asmLabels (asmNext at_ l) rest

/-- The bytes of a line at an offset; a command at an offset that is not 16-aligned is rejected
(30_encoding.md R109). -/
def asmBytes (labels : List (String × Nat)) (at_ : Nat) (l : AsmLine) : Option (List Byte) :=
  match l with
  | .command c => if at_ % 16 = 0 then (asmCommand labels c).map encodeBytes else none
  | .label _ => some []
  | .org _ => some []
  | .word vs => some (vs.flatMap fun v => leBytes 4 v.toNat)
  | .half vs => some (vs.flatMap fun v => leBytes 2 v.toNat)
  | .byte vs => some vs
  | .float vs => some (vs.flatMap fun v => leBytes 4 (asmFloat v).toNat)

/-- Second pass: the memory image from an offset on, over what is already there: a later line overwrites an earlier
one. An offset at or beyond BUF_BYTES is not rejected, since a source does not know the build: both are the model's
choice (DESIGN CHOICE, log entry 25). -/
def asmImage (labels : List (String × Nat)) : Nat → Memory → List AsmLine → Option Memory
  | _, m, [] => some m
  | at_, m, l :: rest =>
    match asmBytes labels at_ l with
    | some bs => asmImage labels (asmNext at_ l) (m.writeBytes at_ bs) rest
    | none => none

/-- The BUF image of a source that starts at offset 0 (30_encoding.md R109). -/
def assemble (lines : List AsmLine) : Option Memory := asmImage (asmLabels 0 lines) 0 [] lines

end Sys2Proof.Machine
end

