-- ==== Sys2Proof/Safety.lean ====
section
/-! DEFINITION. What the statements about LLRD speak of: the invariant of the machine, a safe step, and the
set of bytes a command reads or writes. -/

namespace Sys2Proof.Machine

/-- CP and ERR_CP are 16-aligned (10_state.md R37, R44, R52). -/
abbrev aligned16 (a : Word) : Prop := a.extractLsb' 0 4 = 0

/-- What every step keeps: the build is a legal one (00_scope.md R8); CP bits [3:0] are 0 (10_state.md R37)
and so are those of ERR_CP (R44); BUF is in canonical form and inside BUF_BYTES (20_memory.md R70);
ERR_CODE is one of 0 to 5 (60_exceptions.md R260), it is not 0 in ERROR (R265), and while it is 0 the other
error registers are 0 (10_state.md R43 to R45); LAST_COUNT is at most 256 (10_state.md R41). -/
structure MachineInv (s : State) : Prop where
  legalBuild  : s.params.legal
  cpAligned   : aligned16 s.cp
  bufWf       : s.buf.wf
  bufWithin   : s.buf.within s.params.bufBytes
  codeRange   : s.errCode.toNat ≤ 5
  errorCoded  : s.engState = .error → s.errCode ≠ 0
  noErrorZero : s.errCode = 0 → s.errCp = 0 ∧ s.errInfo = 0
  errCpAligned : aligned16 s.errCp
  countRange  : s.lastCount.toNat ≤ 256

/-- A step that stops neither at a fault nor at a refusal. -/
abbrev SafeStep (s : State) : Prop := ∃ t, step s = .next t

/-- Every one of the `n` bytes from `a` on has been written (10_state.md R57). -/
abbrev Memory.initialised (m : Memory) (a n : Nat) : Prop := ∀ j < n, m.readByte (a + j) ≠ none

/-- The read set of a demap command is initialised (41_llr_demap.md R150, 42_dmrs_demap.md R205). -/
abbrev batchInitialised (m : Memory) (sym beta winv : Word) (lyr : Layers) (nsc : Subcarriers) : Prop :=
  ∀ l < layerCount lyr, m.initialised (sym.toNat + 64 * l) (4 * subcarrierCount nsc) ∧
    m.initialised (beta.toNat + 32 * l) (2 * subcarrierCount nsc) ∧
    m.initialised (winv.toNat + 32 * l) (2 * subcarrierCount nsc)

/-- The read set of CHOLINV is initialised: the lower triangle with the diagonal, both parts, every lane
(43_cholesky.md R231). -/
abbrev gridInitialised (m : Memory) (src n : Nat) : Prop :=
  ∀ p < 2, ∀ r < n, ∀ c ≤ r, ∀ k < lanes, m.initialised (elemAddr src n p r c k) 4

/-- The ENGINE is BUSY with no event waiting, and the descriptor at CP is `d` (30_encoding.md R100). -/
abbrev EngineFetches (s : State) (d : Descriptor) : Prop :=
  s.engState = .busy ∧ s.inbox = [] ∧ s.fetch = .ok d

/-- What a BUSY ENGINE does where the descriptor at CP is not wholly inside BUF: BUF_RANGE(CP), before
anything is read (10_state.md R52, 60_exceptions.md R262 step 1). -/
abbrev FetchRangeChecked : Prop :=
  ∀ s : State, s.engState = .busy → s.inbox = [] → ¬ s.inRange s.cp 16 →
    step s = .next (s.enterError .bufRange s.cp)

/-- The regions of a demap command's inputs are in BUF (41_llr_demap.md R170). -/
abbrev inputsInRange (s : State) (lyr : Layers) (nsc : Subcarriers) (sym beta winv : Word) : Prop :=
  s.inRange sym (64 * (layerCount lyr - 1) + 4 * subcarrierCount nsc) ∧
    s.inRange beta (32 * (layerCount lyr - 1) + 2 * subcarrierCount nsc) ∧
    s.inRange winv (32 * (layerCount lyr - 1) + 2 * subcarrierCount nsc)

/-- The LLRs of a symbol from literal constants (41_llr_demap.md R161, R168): for each axis bit k with its segment table,
the LLR of the I axis and then that of the Q axis; only axis bit 0 takes the sign of the sample. -/
def axisBits (cfg : LlrConfig) (x : LaneInput) (k2 t1 : Int) (tables : List (List Seg)) : List Int :=
  tables.zipIdx.flatMap fun p =>
    [llrOut cfg (pw p.1 (absInt x.i.toInt) t1) k2 x.w.toInt (decide (p.2 = 0 ∧ x.i.toInt < 0)),
     llrOut cfg (pw p.1 (absInt x.q.toInt) t1) k2 x.w.toInt (decide (p.2 = 0 ∧ x.q.toInt < 0))]

/-- The rational value of a finite binary32 pattern (43_cholesky.md R234). -/
def f32Value (x : F32) : ℚ :=
  (if f32Sign x then -1 else 1) * (f32Significand x : ℚ) * (2 : ℚ) ^ ((f32Scale x : ℤ) - 150)

/-- Half a unit in the last place of a finite pattern. -/
def f32HalfUlp (x : F32) : ℚ := (2 : ℚ) ^ ((f32Scale x : ℤ) - 151)

/-- A pattern that is neither NaN nor an infinity. -/
abbrev f32Finite (x : F32) : Prop := f32Exp x ≠ 255

/-- The finite pattern `r` is `x` rounded to nearest, ties to even (43_cholesky.md R234): no finite pattern is nearer
to `x`, `r` is within half a unit in its own last place, and where `x` lies halfway between the value of `r` and
another its significand is even. -/
abbrev nearestEven (r : F32) (x : ℝ) : Prop :=
  (∀ y, f32Finite y → |(f32Value r : ℝ) - x| ≤ |(f32Value y : ℝ) - x| ∧
    (|(f32Value r : ℝ) - x| = |(f32Value y : ℝ) - x| → f32Value y ≠ f32Value r → f32Significand r % 2 = 0)) ∧
  |(f32Value r : ℝ) - x| ≤ f32HalfUlp r ∧
  (|(f32Value r : ℝ) - x| = f32HalfUlp r → f32Significand r % 2 = 0)

/-- `r` is the binary32 result whose exact value is `x` (43_cholesky.md R234; log entry 14): below half a unit above
the largest finite value it is finite, nearest, and of sign `neg`; from there on it is the infinity of sign `neg`. -/
abbrev roundsTo (r : F32) (x : ℝ) (neg : Bool) : Prop :=
  (|x| < 2 ^ 128 - 2 ^ 103 → f32Finite r ∧ f32Sign r = neg ∧ nearestEven r x) ∧
  (2 ^ 128 - 2 ^ 103 ≤ |x| → r = if neg then 0xFF800000 else 0x7F800000)

/-- Two memories agree on a run of bytes. -/
abbrev Memory.agree (m m' : Memory) (a n : Nat) : Prop := ∀ j < n, m.readByte (a + j) = m'.readByte (a + j)

end Sys2Proof.Machine
end

