-- ==== Sys2Proof/Certificates/Slice0/Obligations.lean ====
section
/-! DEFINITION. The statements about LLRD for the provers, one `def Obligations.<Name> : Prop` each, in the
order of OBLIGATIONS.json. -/

open Sys2Proof Sys2Proof.Machine

/-! ### Control commands (40_control.md) -/

/-- R132: NOP changes CP and CMD_COUNT only, whatever W1 to W3 hold; a res0 bit raises RESERVED_FIELD; the
fetch is range-checked; unwritten descriptor bytes fault. -/
def Obligations.NopOnlyAdvances : Prop :=
  (∀ s : State, exec .nop s = .next { s with cp := s.cp + 16, cmdCount := s.cmdCount + 1 }) ∧
  (∀ (s : State) (d : Descriptor), EngineFetches s d → opOf d.w0 = 0 →
    step s = if d.w0 = 0 then .next { s with cp := s.cp + 16, cmdCount := s.cmdCount + 1 }
      else .next (s.enterError .reservedField d.w0)) ∧
  FetchRangeChecked ∧
  (∀ s : State, s.engState = .busy → s.inbox = [] → s.inRange s.cp 16 →
    ¬ s.buf.initialised s.cp.toNat 16 → step s = .fault .uninitRead)

/-- R131: END stops the ENGINE, sets DONE, moves CP past itself and counts; a res0 bit raises RESERVED_FIELD;
at the last 16 bytes of BUF it leaves CP = BUF_BYTES, so that the ENGINE, started again, raises BUF_RANGE. -/
def Obligations.EndStopsAndSignalsDone : Prop :=
  (∀ s : State, exec .endList s =
    .next { s with engState := .idle, irqStatus := s.irqStatus ||| 1, cp := s.cp + 16,
                   cmdCount := s.cmdCount + 1 }) ∧
  (∀ (s : State) (d : Descriptor), EngineFetches s d → opOf d.w0 = 1 →
    step s = if d.w0 = 1 then exec .endList s else .next (s.enterError .reservedField d.w0)) ∧
  (∀ s t : State, s.params.legal → s.inbox = [] → s.cp.toNat + 16 = s.params.bufBytes →
    exec .endList s = .next t →
      t.cp.toNat = s.params.bufBytes ∧ step t.start = .next (t.start.enterError .bufRange t.cp)) ∧
  FetchRangeChecked

/-- R133: JUMP goes to a 16-aligned target and changes nothing else but CMD_COUNT; another target raises
MISALIGNED; a target outside BUF is the next fetch's error. -/
def Obligations.JumpNeedsAlignedTarget : Prop :=
  (∀ (s : State) (a : Word), aligned16 a →
    exec (.jump a) s = .next { s with cp := a, cmdCount := s.cmdCount + 1 }) ∧
  (∀ (s : State) (a : Word), ¬ aligned16 a → exec (.jump a) s = .next (s.enterError .misaligned a)) ∧
  (∀ (s : State) (d : Descriptor), EngineFetches s d → opOf d.w0 = 2 →
    step s = if d.w0 = 2 then exec (.jump d.w1) s else .next (s.enterError .reservedField d.w0)) ∧
  (∀ (s t : State) (a : Word), aligned16 a → s.engState = .busy → s.inbox = [] → ¬ s.inRange a 16 →
    exec (.jump a) s = .next t → step t = .next (t.enterError .bufRange a) ∧ t.cp = a) ∧
  FetchRangeChecked

/-- R134: SETOUT sets OUTP to any value, unchecked, and changes nothing else but CP and CMD_COUNT. -/
def Obligations.SetoutSetsOnlyOutp : Prop :=
  (∀ (s : State) (a : Word),
    exec (.setout a) s = .next { s with outp := a, cp := s.cp + 16, cmdCount := s.cmdCount + 1 }) ∧
  (∀ (s : State) (d : Descriptor), EngineFetches s d → opOf d.w0 = 3 →
    step s = if d.w0 = 3 then exec (.setout d.w1) s else .next (s.enterError .reservedField d.w0)) ∧
  FetchRangeChecked

/-- R135: CONFIG sets SHIFT, LOW and HIGH together, LOW > HIGH included, and changes nothing else but CP and
CMD_COUNT; after LOW > HIGH every demap command raises INVALID_CONFIG. -/
def Obligations.ConfigSetsAllThree : Prop :=
  (∀ (s : State) (k : BitVec 6) (lo hi : Half),
    exec (.config k lo hi) s =
      .next { s with shift := k, low := lo, high := hi, cp := s.cp + 16, cmdCount := s.cmdCount + 1 }) ∧
  (∀ (s : State) (d : Descriptor), EngineFetches s d → opOf d.w0 = 4 →
    step s = if d.w0 &&& 0xFFFFFC00 = 0 then
        exec (.config (d.w0.extractLsb' 4 6) (d.w1.extractLsb' 0 16) (d.w1.extractLsb' 16 16)) s
      else .next (s.enterError .reservedField d.w0)) ∧
  (∀ (s t : State) (k : BitVec 6) (lo hi : Half), hi.toInt < lo.toInt → exec (.config k lo hi) s = .next t →
    (∀ order lyr nsc sym beta winv, exec (demapInstr order lyr nsc sym beta winv) t =
      .next (t.enterError .invalidConfig (w0Demap order lyr nsc))) ∧
    (∀ order lyr nsc ty cd pp sym beta winv, exec (dmrsInstr order lyr nsc ty cd pp sym beta winv) t =
      .next (t.enterError .invalidConfig (w0Dmrs order lyr nsc ty cd pp)))) ∧
  FetchRangeChecked

/-! ### The ENGINE step -/

/-- R130: a BUSY ENGINE runs the command it decodes from the 16 bytes at CP, and raises the error that decoding
names; an `engineTurn` at the head of `inbox` does the same, command or error, after leaving the list (the
model's choice, log entry 4). -/
def Obligations.StepRunsDecodedCommand : Prop :=
  (∀ s : State, s.engState = .busy → s.inRange s.cp 16 → s.buf.initialised s.cp.toNat 16 →
    ∃ d, s.fetch = .ok d ∧ s.buf.readWord s.cp.toNat = some d.w0 ∧
      s.buf.readWord (s.cp.toNat + 4) = some d.w1 ∧ s.buf.readWord (s.cp.toNat + 8) = some d.w2 ∧
      s.buf.readWord (s.cp.toNat + 12) = some d.w3) ∧
  (∀ (s : State) (d : Descriptor) (i : Instr), EngineFetches s d → decodeWords d = .ok i →
    step s = exec i s) ∧
  (∀ (s : State) (d : Descriptor) (e : ErrorCode), EngineFetches s d → decodeWords d = .error e →
    step s = .next (s.enterError e d.w0)) ∧
  (∀ (s : State) (rest : List PortEvent) (d : Descriptor) (i : Instr), s.engState = .busy →
    s.inbox = .engineTurn :: rest → s.fetch = .ok d → decodeWords d = .ok i →
    step s = exec i { s with inbox := rest }) ∧
  (∀ (s : State) (rest : List PortEvent) (d : Descriptor) (e : ErrorCode), s.engState = .busy →
    s.inbox = .engineTurn :: rest → s.fetch = .ok d → decodeWords d = .error e →
    step s = .next (({ s with inbox := rest } : State).enterError e d.w0))

/-- R130: while IDLE or ERROR the ENGINE has no step. That `step` then answers the same state is the model's
choice (log entry 3). -/
def Obligations.StoppedEngineChangesNothing : Prop :=
  ∀ s : State, s.engState ≠ .busy → s.inbox = [] → step s = .next s

/-- The total order of R83 as the model runs it (log entry 4): the first event of `inbox` is served, alone. -/
def Obligations.StepServesFirstEvent : Prop :=
  ∀ (s : State) (rest : List PortEvent),
    (∀ a, s.inbox = .access a :: rest → step s = hostAccess a { s with inbox := rest }) ∧
    (s.inbox = .hardwareReset :: rest →
      step s = .next { State.reset with params := s.params, inbox := rest, hostResp := s.hostResp,
                                        freeIdx := s.freeIdx })

/-! ### Errors (60_exceptions.md) -/

/-- R265: the effects of error entry, and that the ENGINE then has no step. That `step` then answers the same
state is the model's choice (log entry 3). -/
def Obligations.ErrorEntryWritesItsRegisters : Prop :=
  ∀ (s : State) (e : ErrorCode) (info : Word),
    raise e info s = .next
      { s with engState := .error, errCode := errorNumber e, errCp := s.cp, errInfo := info,
               irqStatus := s.irqStatus ||| 2 } ∧
    (∀ t, raise e info s = .next t → t.inbox = [] → step t = .next t) ∧
    (errorNumber .illegalOpcode = 1 ∧ errorNumber .reservedField = 2 ∧ errorNumber .invalidConfig = 3 ∧
      errorNumber .bufRange = 4 ∧ errorNumber .misaligned = 5)

/-- R264: a command that ends in ERROR has changed nothing but what error entry writes, and the error does not
depend on a byte of BUF (it is found before an operand byte is read). -/
def Obligations.ErrorsArePrecise : Prop :=
  ∀ (i : Instr) (s t : State), s.engState = .busy → exec i s = .next t → t.engState = .error →
    ∃ e info, t = s.enterError e info ∧
      ∀ m : Memory, exec i { s with buf := m } = .next (({ s with buf := m } : State).enterError e info)

/-- R42, R52, R271: a command of a BUSY ENGINE either ends in ERROR, with CP and CMD_COUNT as they were and ERR
set, or completes, with CMD_COUNT + 1, CP + 16 (JUMP: a 16-aligned target) and at most one of DONE (END only)
and NPD (CHOLINV only) set; the error registers, IRQ_EN, the build and the host side stay. -/
def Obligations.CommandsCompleteOrRaise : Prop :=
  ∀ (i : Instr) (s t : State), s.engState = .busy → exec i s = .next t →
    (t.engState = .error ∧ t.cp = s.cp ∧ t.cmdCount = s.cmdCount ∧ t.irqStatus = s.irqStatus ||| irqErr ∧
      t.errCode ≠ 0 ∧ t.errCp = s.cp) ∨
    (t.engState ≠ .error ∧ t.cmdCount = s.cmdCount + 1 ∧
      (match i with | .jump a => aligned16 a ∧ t.cp = a | _ => t.cp = s.cp + 16) ∧
      t.errCode = s.errCode ∧ t.errCp = s.errCp ∧ t.errInfo = s.errInfo ∧ t.irqEn = s.irqEn ∧
      t.params = s.params ∧ t.inbox = s.inbox ∧ t.hostResp = s.hostResp ∧
      (t.engState = .idle ↔ i = .endList) ∧
      (match i with
        | .endList => t.irqStatus = s.irqStatus ||| irqDone
        | .cholinv _ _ _ => t.irqStatus = s.irqStatus ∨ t.irqStatus = s.irqStatus ||| irqNpd
        | _ => t.irqStatus = s.irqStatus))

/-- R262 steps 2 to 4 and R108: opcode, then reserved fields, then MOD and N, each whatever the later ones. -/
def Obligations.DecodeErrorsInOrder : Prop :=
  ∀ d : Descriptor,
    (8 ≤ (opOf d.w0).toNat → decodeWords d = .error .illegalOpcode) ∧
    ((opOf d.w0).toNat < 8 → d.w0 &&& res0Mask (opOf d.w0) ≠ 0 → decodeWords d = .error .reservedField) ∧
    ((opOf d.w0).toNat < 8 → d.w0 &&& res0Mask (opOf d.w0) = 0 →
      (decodeWords d = .error .invalidConfig ↔
        ((opOf d.w0 = 5 ∨ opOf d.w0 = 6) ∧ 5 ≤ (d.w0.extractLsb' 4 3).toNat) ∨
          (opOf d.w0 = 7 ∧ ¬ (2 ≤ (d.w0.extractLsb' 4 5).toNat ∧ (d.w0.extractLsb' 4 5).toNat ≤ 16))) ∧
      (decodeWords d ≠ .error .invalidConfig → ∃ i, decodeWords d = .ok i))

/-- R107: the res0 mask of each opcode. -/
def Obligations.ReservedMasks : Prop :=
  res0Mask 0 = 0xFFFFFFF0 ∧ res0Mask 1 = 0xFFFFFFF0 ∧ res0Mask 2 = 0xFFFFFFF0 ∧ res0Mask 3 = 0xFFFFFFF0 ∧
    res0Mask 4 = 0xFFFFFC00 ∧ res0Mask 5 = 0xFFFFFC00 ∧ res0Mask 6 = 0xFFFFE000 ∧ res0Mask 7 = 0xFFFFFE00

/-! ### Encoding (30_encoding.md) -/

/-- Decoding an encoded well-formed command gives it back, from its words and from its bytes. -/
def Obligations.DecodeOfEncode : Prop :=
  ∀ i : Instr, WellFormed i →
    decodeWords (encode i) = .ok i ∧ ∀ rest : List Byte, decode (encodeBytes i ++ rest) = .ok (i, rest)

/-- A descriptor that decodes is the encoding of its command up to the words the format ignores (R102, R106). -/
def Obligations.EncodeOfDecode : Prop :=
  ∀ (d : Descriptor) (i : Instr), decodeWords d = .ok i →
    WellFormed i ∧ (encode i).w0 = d.w0 ∧
      (match i with
        | .nop => True
        | .endList => True
        | .jump _ => (encode i).w1 = d.w1
        | .setout _ => (encode i).w1 = d.w1
        | .config _ _ _ => (encode i).w1 = d.w1
        | .cholinv _ _ _ => (encode i).w1 = d.w1 ∧ (encode i).w2 = d.w2
        | _ => encode i = d)

/-- Words written out in the spec (R111 and 95_test_vectors.md section 3) decode to the commands they stand
for. -/
def Obligations.SpecWordsDecode : Prop :=
  decodeWords ⟨0x00000000, 7, 8, 9⟩ = .ok .nop ∧
  decodeWords ⟨0x00000001, 0, 0, 0⟩ = .ok .endList ∧
  decodeWords ⟨0x00000002, 0x40, 0, 0⟩ = .ok (.jump 0x40) ∧
  decodeWords ⟨0x00000003, 0x1000, 0, 0⟩ = .ok (.setout 0x1000) ∧
  decodeWords ⟨0x00000254, 0x007FFF80, 0, 0⟩ = .ok (.config 37 0xFF80 0x007F) ∧
  decodeWords ⟨0x00000015, 0x100, 0x140, 0x160⟩ = .ok (.demapQpsk .one .n4 0x100 0x140 0x160) ∧
  decodeWords ⟨0x000000A5, 0x1400, 0x1500, 0x1600⟩ = .ok (.demapQam16 .two .n4 0x1400 0x1500 0x1600) ∧
  decodeWords ⟨0x00000345, 0, 0, 0⟩ = .ok (.demapQam256 .one .n16 0 0 0) ∧
  decodeWords ⟨0x00000636, 0, 0, 0⟩ = .ok (.dmrsQam64 .one .n12 .type2 .one .even 0 0 0) ∧
  decodeWords ⟨0x00001116, 0, 0, 0⟩ = .ok (.dmrsQpsk .one .n8 .type1 .one .odd 0 0 0) ∧
  decodeWords ⟨0x00000FA6, 0, 0, 0⟩ = .ok (.dmrsQam16 .two .n16 .type2 .two .even 0 0 0) ∧
  decodeWords ⟨0x00000027, 0x400, 0xC00, 5⟩ = .ok (.cholinv 2 0x400 0xC00) ∧
  decodeWords ⟨0x0000FFFF, 0, 0, 0⟩ = .error .illegalOpcode ∧
  decodeWords ⟨0x00010075, 0, 0, 0⟩ = .error .reservedField ∧
  decodeWords ⟨0x00000012, 0x44, 0, 0⟩ = .error .reservedField ∧
  decodeWords ⟨0x00000117, 0, 0, 0⟩ = .error .invalidConfig

/-- R109: an assembled command line stands at its offset as the 16 bytes that fetch back as its encoding and
decode to its command, and leaves every other byte; an offset that is not 16-aligned is rejected. The line is a
syntax tree, and a line that names no command is rejected: the model's choice (log entry 20). So is that the words
the format ignores are 0 (log entry 12), and that an offset at or beyond BUF_BYTES is not rejected and that the line
overwrites what an earlier one left there (log entry 25). -/
def Obligations.AssembledCommandsDecode : Prop :=
  ∀ (labels : List (String × Nat)) (a : Nat) (m : Memory) (c : AsmCommand),
    (a % 16 ≠ 0 → asmImage labels a m [.command c] = none) ∧
    (asmCommand labels c = none → asmImage labels a m [.command c] = none) ∧
    (∀ i, a % 16 = 0 → asmCommand labels c = some i →
      ∃ m', asmImage labels a m [.command c] = some m' ∧ m'.readDescriptor a = some (encode i) ∧
        decodeWords (encode i) = .ok i ∧
        ∀ x, (x < a ∨ a + 16 ≤ x) → m'.readByte x = m.readByte x)

/-- R110: the pseudo-instructions and the lines they stand for. -/
def Obligations.PseudoInstructionsExpand : Prop :=
  ∀ (labels : List (String × Nat)) (t sym beta w : AsmAddr) (m : Modulation) (ty cdm port : Nat),
    asmCommand labels .halt = asmCommand labels .endList ∧
    asmCommand labels (.b t) = asmCommand labels (.jump t) ∧
    asmCommand labels (.demap m .omitted sym beta w) = asmCommand labels (.demap m (.given 1 16) sym beta w) ∧
    asmCommand labels (.demapDmrs m .omitted ty cdm port sym beta w) =
      asmCommand labels (.demapDmrs m (.given 1 16) ty cdm port sym beta w) ∧
    asmCommand labels .configDefault = asmCommand labels (.config 37 (-128) 127)

/-! ### DEMAP and DEMAP_DMRS (41_llr_demap.md, 42_dmrs_demap.md) -/

/-- R169 to R172: DEMAP.BPSK, .QPSK, .QAM16, .QAM64 and .QAM256 complete where LOW ≤ HIGH, every region is in
BUF and every input byte is written. The LLR b of layer l of lane r is the byte at
OUTP + (r·L + l)·Qm + b; every other byte is as it was; OUTP, LAST_COUNT, CP and CMD_COUNT are the only
registers that change. -/
def Obligations.DemapStoresItsLlrs : Prop :=
  ∀ (order : Modulation) (lyr : Layers) (nsc : Subcarriers) (sym beta winv : Word) (s : State),
    s.low.toInt ≤ s.high.toInt → inputsInRange s lyr nsc sym beta winv →
    s.inRange s.outp (subcarrierCount nsc * layerCount lyr * bitsPerSymbol order) →
    batchInitialised s.buf sym beta winv lyr nsc →
    ∃ t, exec (demapInstr order lyr nsc sym beta winv) s = .next t ∧
      (∀ r < subcarrierCount nsc, ∀ l < layerCount lyr, ∀ b < bitsPerSymbol order,
        ∃ x, readLane s.buf sym beta winv l r = some x ∧
          t.buf.readByte (s.outp.toNat + (r * layerCount lyr + l) * bitsPerSymbol order + b) =
            ((llrVec order s.llrConfig x)[b]?).map (BitVec.ofInt 8)) ∧
      (∀ a, (a < s.outp.toNat ∨
          s.outp.toNat + subcarrierCount nsc * layerCount lyr * bitsPerSymbol order ≤ a) →
        t.buf.readByte a = s.buf.readByte a) ∧
      t.lastCount.toNat = subcarrierCount nsc * layerCount lyr * bitsPerSymbol order ∧
      t = { s with buf := t.buf, lastCount := t.lastCount,
                   outp := s.outp + BitVec.ofNat 32 (subcarrierCount nsc * layerCount lyr * bitsPerSymbol order),
                   cp := s.cp + 16, cmdCount := s.cmdCount + 1 }

/-- R204 to R207: the same for DEMAP_DMRS.BPSK, .QPSK, .QAM16, .QAM64 and .QAM256, over the lanes that
DMRS_SEL selects, in ascending order and without gaps; for every table. -/
def Obligations.DmrsStoresSelectedLlrs : Prop :=
  ∀ (order : Modulation) (lyr : Layers) (nsc : Subcarriers) (ty : DmrsType) (cd : CdmGroups)
    (pp : PortParity) (sym beta winv : Word) (s : State) (sel : List Nat),
    sel = dmrsLanes s.params nsc ty cd pp →
    s.low.toInt ≤ s.high.toInt → inputsInRange s lyr nsc sym beta winv →
    s.inRange s.outp (sel.length * layerCount lyr * bitsPerSymbol order) →
    batchInitialised s.buf sym beta winv lyr nsc →
    ∃ t, exec (dmrsInstr order lyr nsc ty cd pp sym beta winv) s = .next t ∧
      (∀ r i, sel[r]? = some i → ∀ l < layerCount lyr, ∀ b < bitsPerSymbol order,
        ∃ x, readLane s.buf sym beta winv l i = some x ∧
          t.buf.readByte (s.outp.toNat + (r * layerCount lyr + l) * bitsPerSymbol order + b) =
            ((llrVec order s.llrConfig x)[b]?).map (BitVec.ofInt 8)) ∧
      (∀ a, (a < s.outp.toNat ∨
          s.outp.toNat + sel.length * layerCount lyr * bitsPerSymbol order ≤ a) →
        t.buf.readByte a = s.buf.readByte a) ∧
      t.lastCount.toNat = sel.length * layerCount lyr * bitsPerSymbol order ∧
      t = { s with buf := t.buf, lastCount := t.lastCount,
                   outp := s.outp + BitVec.ofNat 32 (sel.length * layerCount lyr * bitsPerSymbol order),
                   cp := s.cp + 16, cmdCount := s.cmdCount + 1 }

/-- R204: the selected lanes are those below nSc whose bit of the key's mask is 1, each once, ascending. -/
def Obligations.SelectedLanesFollowMask : Prop :=
  ∀ (p : Config.Params) (nsc : Subcarriers) (ty : DmrsType) (cd : CdmGroups) (pp : PortParity),
    (∀ i, i ∈ dmrsLanes p nsc ty cd pp ↔
      i < subcarrierCount nsc ∧ (dmrsMask p.dmrsSel ty cd pp).getLsbD i = true) ∧
    (dmrsLanes p nsc ty cd pp).Pairwise (· < ·)

/-- R152, R172: LOW > HIGH raises INVALID_CONFIG(W0) in every demap command, before any range check. -/
def Obligations.InvertedBoundsRaise : Prop :=
  ∀ (order : Modulation) (lyr : Layers) (nsc : Subcarriers) (sym beta winv : Word) (s : State),
    s.high.toInt < s.low.toInt →
    exec (demapInstr order lyr nsc sym beta winv) s =
      .next (s.enterError .invalidConfig (encode (demapInstr order lyr nsc sym beta winv)).w0) ∧
    ∀ (ty : DmrsType) (cd : CdmGroups) (pp : PortParity),
      exec (dmrsInstr order lyr nsc ty cd pp sym beta winv) s =
        .next (s.enterError .invalidConfig (encode (dmrsInstr order lyr nsc ty cd pp sym beta winv)).w0)

/-- R170, R205, R262 step 6: the regions of SYM, BETA, WINV and OUTP are checked in this order, the first that
is not in BUF raising BUF_RANGE with its base, in DEMAP and DEMAP_DMRS. -/
def Obligations.DemapRangeErrorsInOrder : Prop :=
  ∀ (order : Modulation) (lyr : Layers) (nsc : Subcarriers) (sym beta winv : Word) (s : State) (i : Instr)
    (count : Nat),
    (i = demapInstr order lyr nsc sym beta winv ∧
        count = subcarrierCount nsc * layerCount lyr * bitsPerSymbol order ∨
      ∃ ty cd pp, i = dmrsInstr order lyr nsc ty cd pp sym beta winv ∧
        count = (dmrsLanes s.params nsc ty cd pp).length * layerCount lyr * bitsPerSymbol order) →
    s.low.toInt ≤ s.high.toInt →
    (¬ s.inRange sym (64 * (layerCount lyr - 1) + 4 * subcarrierCount nsc) →
      exec i s = .next (s.enterError .bufRange sym)) ∧
    (s.inRange sym (64 * (layerCount lyr - 1) + 4 * subcarrierCount nsc) →
      ¬ s.inRange beta (32 * (layerCount lyr - 1) + 2 * subcarrierCount nsc) →
      exec i s = .next (s.enterError .bufRange beta)) ∧
    (s.inRange sym (64 * (layerCount lyr - 1) + 4 * subcarrierCount nsc) →
      s.inRange beta (32 * (layerCount lyr - 1) + 2 * subcarrierCount nsc) →
      ¬ s.inRange winv (32 * (layerCount lyr - 1) + 2 * subcarrierCount nsc) →
      exec i s = .next (s.enterError .bufRange winv)) ∧
    (inputsInRange s lyr nsc sym beta winv → ¬ s.inRange s.outp count →
      exec i s = .next (s.enterError .bufRange s.outp))

/-- R205, R57: once the checks pass, a byte of the read set that was never written faults, in a selected lane or
not. -/
def Obligations.DemapFaultsOnUnwrittenInput : Prop :=
  ∀ (order : Modulation) (lyr : Layers) (nsc : Subcarriers) (sym beta winv : Word) (s : State),
    s.low.toInt ≤ s.high.toInt → inputsInRange s lyr nsc sym beta winv →
    ¬ batchInitialised s.buf sym beta winv lyr nsc →
    (s.inRange s.outp (subcarrierCount nsc * layerCount lyr * bitsPerSymbol order) →
      exec (demapInstr order lyr nsc sym beta winv) s = .fault .uninitRead) ∧
    ∀ (ty : DmrsType) (cd : CdmGroups) (pp : PortParity),
      s.inRange s.outp ((dmrsLanes s.params nsc ty cd pp).length * layerCount lyr * bitsPerSymbol order) →
      exec (dmrsInstr order lyr nsc ty cd pp sym beta winv) s = .fault .uninitRead

/-- R213: a DMRS_SEL entry of 0xFFFF makes DEMAP_DMRS the same as DEMAP, at every nSc (where LOW ≤ HIGH; the
INVALID_CONFIG of R152 records each command's own W0). -/
def Obligations.FullMaskIsPlainDemap : Prop :=
  ∀ (order : Modulation) (lyr : Layers) (nsc : Subcarriers) (ty : DmrsType) (cd : CdmGroups)
    (pp : PortParity) (sym beta winv : Word) (s : State),
    dmrsMask s.params.dmrsSel ty cd pp = 0xFFFF → s.low.toInt ≤ s.high.toInt →
    exec (dmrsInstr order lyr nsc ty cd pp sym beta winv) s = exec (demapInstr order lyr nsc sym beta winv) s

/-- R213, first bullet: with no lane selected nothing is written, OUTP stays, LAST_COUNT becomes 0. -/
def Obligations.NoSelectedLaneWritesNothing : Prop :=
  ∀ (order : Modulation) (lyr : Layers) (nsc : Subcarriers) (ty : DmrsType) (cd : CdmGroups)
    (pp : PortParity) (sym beta winv : Word) (s : State),
    dmrsLanes s.params nsc ty cd pp = [] → s.low.toInt ≤ s.high.toInt →
    inputsInRange s lyr nsc sym beta winv → s.outp.toNat ≤ s.params.bufBytes →
    batchInitialised s.buf sym beta winv lyr nsc →
    exec (dmrsInstr order lyr nsc ty cd pp sym beta winv) s =
      .next { s with lastCount := 0, cp := s.cp + 16, cmdCount := s.cmdCount + 1 }

/-- R202, R204, R213: the numbers of selected lanes with the default table, at nSc = 16, 12, 8 and 4, and that
the parity does not matter there. -/
def Obligations.DefaultDmrsCounts : Prop :=
  ∀ (p : Config.Params) (pp : PortParity), p.dmrsSel = dmrsSelDefault →
    (∀ ty cd nsc, dmrsLanes p nsc ty cd pp = dmrsLanes p nsc ty cd .even) ∧
    ([Subcarriers.n16, .n12, .n8, .n4].map fun n => (dmrsLanes p n .type1 .one pp).length) = [8, 6, 4, 2] ∧
    ([Subcarriers.n16, .n12, .n8, .n4].map fun n => (dmrsLanes p n .type1 .two pp).length) = [0, 0, 0, 0] ∧
    ([Subcarriers.n16, .n12, .n8, .n4].map fun n => (dmrsLanes p n .type2 .one pp).length) = [10, 8, 4, 2] ∧
    ([Subcarriers.n16, .n12, .n8, .n4].map fun n => (dmrsLanes p n .type2 .two pp).length) = [4, 4, 2, 0]

/-- R214 (b): the bytes DEMAP_DMRS writes are the groups of L·Qm bytes of the selected lanes in DEMAP's output,
in order. -/
def Obligations.DmrsIsSubsequenceOfDemap : Prop :=
  ∀ (order : Modulation) (lyr : Layers) (nsc : Subcarriers) (ty : DmrsType) (cd : CdmGroups)
    (pp : PortParity) (sym beta winv : Word) (s : State),
    s.low.toInt ≤ s.high.toInt → inputsInRange s lyr nsc sym beta winv →
    s.inRange s.outp (subcarrierCount nsc * layerCount lyr * bitsPerSymbol order) →
    batchInitialised s.buf sym beta winv lyr nsc →
    ∃ t u, exec (dmrsInstr order lyr nsc ty cd pp sym beta winv) s = .next t ∧
      exec (demapInstr order lyr nsc sym beta winv) s = .next u ∧
      ∀ r i, (dmrsLanes s.params nsc ty cd pp)[r]? = some i →
        ∀ j < layerCount lyr * bitsPerSymbol order,
          t.buf.readByte (s.outp.toNat + r * (layerCount lyr * bitsPerSymbol order) + j) =
            u.buf.readByte (s.outp.toNat + i * (layerCount lyr * bitsPerSymbol order) + j)

/-- R214 (c): the input bytes of unselected lanes do not influence a byte that DEMAP_DMRS writes. -/
def Obligations.UnselectedLanesDoNotLeak : Prop :=
  ∀ (order : Modulation) (lyr : Layers) (nsc : Subcarriers) (ty : DmrsType) (cd : CdmGroups)
    (pp : PortParity) (sym beta winv : Word) (s t u : State) (m : Memory),
    (∀ i ∈ dmrsLanes s.params nsc ty cd pp, ∀ l < layerCount lyr,
      s.buf.agree m (sym.toNat + 64 * l + 4 * i) 4 ∧ s.buf.agree m (beta.toNat + 32 * l + 2 * i) 2 ∧
        s.buf.agree m (winv.toNat + 32 * l + 2 * i) 2) →
    s.engState = .busy →
    exec (dmrsInstr order lyr nsc ty cd pp sym beta winv) s = .next t → t.engState = .busy →
    exec (dmrsInstr order lyr nsc ty cd pp sym beta winv) { s with buf := m } = .next u →
    t.buf.agree u.buf s.outp.toNat
        ((dmrsLanes s.params nsc ty cd pp).length * layerCount lyr * bitsPerSymbol order) ∧
      u = { t with buf := u.buf }

/-! ### The LLR datapath (41_llr_demap.md, 00_scope.md) -/

/-- R157: the cascade picks the last row s of the table with s = 0 or v > m_s·t1, and gives
a_s·v + c_s·t1. -/
def Obligations.CascadePicksHighestExceeded : Prop :=
  ∀ (tab : List Seg) (v t1 : Int), tab ≠ [] →
    ∃ (s : Nat) (row : Seg), tab[s]? = some row ∧ (s = 0 ∨ row.m * t1 < v) ∧
      (∀ (j : Nat) (later : Seg), s < j → tab[j]? = some later → v ≤ later.m * t1) ∧
      pw tab v t1 = row.a * v + row.c * t1 ∧ pw tab v t1 = nestedSelect v t1 tab.reverse

/-- R155 to R158, R162 to R166, R168: the LLRs of every order with its constants and segment tables as the rules give
them; what one LLR is (R15, R17, R158); and, as R157 says, every segment table is continuous at its breakpoints. -/
def Obligations.TablesAreContinuous : Prop :=
  (∀ (order : Modulation) (k s : Nat) (lower upper : Seg) (t1 : Int),
    (segTable order k)[s]? = some lower → (segTable order k)[s + 1]? = some upper →
    segValue lower (upper.m * t1) t1 = segValue upper (upper.m * t1) t1) ∧
  (∀ (cfg : LlrConfig) (x : LaneInput),
    llrVec .bpsk cfg x = [llrOut cfg (absInt (x.i.toInt + x.q.toInt)) 11585 x.w.toInt
      (decide (x.i.toInt + x.q.toInt < 0))] ∧
    llrVec .qpsk cfg x = [llrOut cfg (absInt x.i.toInt) 23170 x.w.toInt (decide (x.i.toInt < 0)),
      llrOut cfg (absInt x.q.toInt) 23170 x.w.toInt (decide (x.q.toInt < 0))] ∧
    llrVec .qam16 cfg x = axisBits cfg x 10362 (roundedMulHigh x.beta.toInt 20724)
      [[⟨0, 1, 0⟩, ⟨1, 2, -1⟩], [⟨0, -1, 1⟩]] ∧
    llrVec .qam64 cfg x = axisBits cfg x 5056 (roundedMulHigh x.beta.toInt 10112)
      [[⟨0, 1, 0⟩, ⟨1, 2, -1⟩, ⟨2, 3, -3⟩, ⟨3, 4, -6⟩], [⟨0, -2, 3⟩, ⟨1, -1, 2⟩, ⟨3, -2, 5⟩],
       [⟨0, 1, -1⟩, ⟨2, -1, 3⟩]] ∧
    llrVec .qam256 cfg x = axisBits cfg x 2513 (roundedMulHigh x.beta.toInt 5026)
      [[⟨0, 1, 0⟩, ⟨1, 2, -1⟩, ⟨2, 3, -3⟩, ⟨3, 4, -6⟩, ⟨4, 5, -10⟩, ⟨5, 6, -15⟩, ⟨6, 7, -21⟩, ⟨7, 8, -28⟩],
       [⟨0, -4, 10⟩, ⟨1, -3, 9⟩, ⟨2, -2, 7⟩, ⟨3, -1, 4⟩, ⟨5, -2, 9⟩, ⟨6, -3, 15⟩, ⟨7, -4, 22⟩],
       [⟨0, 2, -3⟩, ⟨1, 1, -2⟩, ⟨3, 2, -5⟩, ⟨4, -2, 11⟩, ⟨5, -1, 6⟩, ⟨7, -2, 13⟩],
       [⟨0, 1, -1⟩, ⟨2, -1, 3⟩, ⟨4, 1, -5⟩, ⟨6, -1, 7⟩]]) ∧
  ∀ (cfg : LlrConfig) (f k2 w : Int) (neg : Bool), cfg.low ≤ cfg.high →
    ∃ r : Int, (cfg.shift = 0 → r = f * k2 * w) ∧
      (∀ n, cfg.shift = n + 1 →
        2 ^ (n + 1) * r ≤ f * k2 * w + 2 ^ n ∧ f * k2 * w + 2 ^ n < 2 ^ (n + 1) * r + 2 ^ (n + 1)) ∧
      llrOut cfg f k2 w neg =
        max (-128) (min 127 (max cfg.low (min cfg.high (if neg = true then -r else r))))

/-- R179 (a): the sign-bit LLR before clamping is odd in the axis sample. The rule says it for every order and
sample; by R157 it fails at y = 0 where t1 < 0 (log entry 19), so that corner is left out. -/
def Obligations.SignBitIsOdd : Prop :=
  ∀ (order : Modulation) (shift : Nat) (y t1 w : Int), (y ≠ 0 ∨ 0 ≤ t1) →
    llrScaled shift (pw (segTable order 0) (absInt (-y)) t1) (k2 order) w (decide (-y < 0)) =
      -llrScaled shift (pw (segTable order 0) (absInt y) t1) (k2 order) w (decide (y < 0))

/-- R179 (b): with LOW ≤ HIGH every stored LLR lies in [sat8(LOW), sat8(HIGH)], and the clamp and saturation are
non-decreasing. -/
def Obligations.StoredLlrsAreBounded : Prop :=
  (∀ (order : Modulation) (cfg : LlrConfig) (x : LaneInput) (v : Int), cfg.low ≤ cfg.high →
    v ∈ llrVec order cfg x → sat8 cfg.low ≤ v ∧ v ≤ sat8 cfg.high) ∧
  (∀ (lo hi r r' : Int), lo ≤ hi → r ≤ r' → sat8 (clampToRange r lo hi) ≤ sat8 (clampToRange r' lo hi))

/-- R179 (c): before saturation the QPSK LLR of 2I differs from twice the LLR of I by at most 1. -/
def Obligations.QpskIsNearlyLinear : Prop :=
  ∀ (shift : Nat) (i w : Int),
    (llrScaled shift (pw (segTable .qpsk 0) (absInt (2 * i)) 0) (k2 .qpsk) w (decide (2 * i < 0)) -
      2 * llrScaled shift (pw (segTable .qpsk 0) (absInt i) 0) (k2 .qpsk) w (decide (i < 0))).natAbs ≤ 1

/-- R16: roundedMulHigh of two int16 values is floor((a·b + 2^14) / 2^15), an int16, but for
a = b = -32768, where it is 32767. -/
def Obligations.RoundedMulHighSaturatesOnce : Prop :=
  ∀ a b : Half,
    (a.toInt = -32768 ∧ b.toInt = -32768 → roundedMulHigh a.toInt b.toInt = 32767) ∧
    (¬ (a.toInt = -32768 ∧ b.toInt = -32768) →
      2 ^ 15 * roundedMulHigh a.toInt b.toInt ≤ a.toInt * b.toInt + 2 ^ 14 ∧
        a.toInt * b.toInt + 2 ^ 14 < 2 ^ 15 * roundedMulHigh a.toInt b.toInt + 2 ^ 15)

/-- R178: with t1 < 0 the top segment is used; with w = 0 every LLR is sat8(sat(0, LOW, HIGH)); with LOW = HIGH
every LLR is sat8(LOW). -/
def Obligations.DemapCornerValues : Prop :=
  (∀ (order : Modulation) (k : Nat) (v t1 : Int) (top : Seg), 0 ≤ v → t1 < 0 →
    (segTable order k).getLast? = some top → pw (segTable order k) v t1 = segValue top v t1) ∧
  (∀ (order : Modulation) (cfg : LlrConfig) (x : LaneInput) (v : Int), x.w = 0 →
    v ∈ llrVec order cfg x → v = sat8 (sat 0 cfg.low cfg.high)) ∧
  (∀ (order : Modulation) (cfg : LlrConfig) (x : LaneInput) (v : Int), cfg.low = cfg.high →
    v ∈ llrVec order cfg x → v = sat8 cfg.low)

/-- R162, R163, R173, R174: β does not affect the LLRs of π/2-BPSK and QPSK; a symbol's QPSK LLRs depend on one
axis each. -/
def Obligations.BetaUnusedBelow16Qam : Prop :=
  ∀ (cfg : LlrConfig) (x : LaneInput) (b q : Half),
    llrVec .bpsk cfg { x with beta := b } = llrVec .bpsk cfg x ∧
    llrVec .qpsk cfg { x with beta := b } = llrVec .qpsk cfg x ∧
    (llrVec .qpsk cfg { x with q := q })[0]? = (llrVec .qpsk cfg x)[0]? ∧
    (llrVec .qpsk cfg { x with i := q })[1]? = (llrVec .qpsk cfg x)[1]?

/-! ### CHOLINV (43_cholesky.md) -/

/-- R231, R240 to R242: CHOLINV completes where 2 ≤ N ≤ 16, both regions are in BUF and the read set is written.
Every word of the write set is the lane's result at that element; every other byte is as it was; NPD is set
exactly when a pivot of some lane failed; CP and CMD_COUNT are the only other registers that change. -/
def Obligations.CholinvStoresInverses : Prop :=
  ∀ (n : BitVec 5) (src dst : Word) (s : State), legalSize n →
    s.inRange src (128 * n.toNat * n.toNat) → s.inRange dst (128 * n.toNat * n.toNat) →
    gridInitialised s.buf src.toNat n.toNat →
    ∃ t grids, readGrids s.buf src.toNat n.toNat = some grids ∧ exec (.cholinv n src dst) s = .next t ∧
      (∀ p < 2, ∀ r < n.toNat, ∀ c < n.toNat, ∀ k lower, grids[k]? = some lower →
        t.buf.readWord (elemAddr dst.toNat n.toNat p r c k) =
          some (outputWord (invertLane (rsqrtBy s.params.rsqrtTable) n.toNat lower) p r c)) ∧
      (∀ a, (a < dst.toNat ∨ dst.toNat + 128 * n.toNat * n.toNat ≤ a) →
        t.buf.readByte a = s.buf.readByte a) ∧
      t = { s with buf := t.buf, cp := s.cp + 16, cmdCount := s.cmdCount + 1,
                   irqStatus := if ∃ lower ∈ grids,
                       (invertLane (rsqrtBy s.params.rsqrtTable) n.toNat lower).npd = true
                     then s.irqStatus ||| 8 else s.irqStatus }

/-- R231, R242, R262: N outside 2 to 16 raises INVALID_CONFIG(W0), then SRC, then DST raise BUF_RANGE with the
base; LLR_RANGE is not looked at; an unwritten byte of the read set faults. -/
def Obligations.CholinvErrorsInOrder : Prop :=
  ∀ (n : BitVec 5) (src dst : Word) (s : State),
    (¬ legalSize n →
      exec (.cholinv n src dst) s = .next (s.enterError .invalidConfig (encode (.cholinv n src dst)).w0)) ∧
    (legalSize n → ¬ s.inRange src (128 * n.toNat * n.toNat) →
      exec (.cholinv n src dst) s = .next (s.enterError .bufRange src)) ∧
    (legalSize n → s.inRange src (128 * n.toNat * n.toNat) → ¬ s.inRange dst (128 * n.toNat * n.toNat) →
      exec (.cholinv n src dst) s = .next (s.enterError .bufRange dst)) ∧
    (legalSize n → s.inRange src (128 * n.toNat * n.toNat) → s.inRange dst (128 * n.toNat * n.toNat) →
      ¬ gridInitialised s.buf src.toNat n.toNat → exec (.cholinv n src dst) s = .fault .uninitRead)

/-- R233, R235, R237 to R241: the words of a lane come by the three phases, every sum left to right, from the lower
triangle `lower` of the lane's input; NPD of the lane is set where a pivot d is not > 0. And the output is Hermitian
bit for bit (R244, R240): Inv[j][i] = conj(Inv[i][j]), and the diagonal has the imaginary word 0. -/
def Obligations.CholinvOutputIsHermitian : Prop :=
  ∀ (rsqrt : F32 → F32) (n : Nat) (lower : List (List Cplx)),
    (∃ (a g l : Nat → Nat → Cplx) (d r : Nat → F32),
      (∀ i j, i < n → j < i → a i j = (lower.getD i []).getD j czero) ∧
      (∀ j < n, a j j = ⟨((lower.getD j []).getD j czero).re, 0⟩) ∧
      (∀ j < n, r j = rsqrt (d j) ∧
        d j = (List.range j).foldl (fun acc k =>
          subf acc (addf (mulf (g j k).re (g j k).re) (mulf (g j k).im (g j k).im))) (a j j).re) ∧
      (∀ i j, i < n → j < i → g i j = cscale
        ((List.range j).foldl (fun acc k => csub acc (cmul (g i k) (conj (g j k)))) (a i j)) (r j)) ∧
      (∀ j < n, l j j = ⟨r j, 0⟩) ∧
      (∀ i j, i < n → j < i →
        let acc := (List.range (i - j)).foldl (fun acc k => cadd acc (cmul (g i (j + k)) (l (j + k) j))) ⟨0, 0⟩
        l i j = ⟨negf (mulf (r i) acc.re), negf (mulf (r i) acc.im)⟩) ∧
      (∀ i j, i < n → j ≤ i →
        let acc := (List.range (n - i)).foldl
          (fun acc k => cadd acc (cmul (conj (l (i + k) i)) (l (i + k) j))) ⟨0, 0⟩
        outputWord (invertLane rsqrt n lower) 0 i j = acc.re ∧
          (j < i → outputWord (invertLane rsqrt n lower) 1 i j = acc.im)) ∧
      ((invertLane rsqrt n lower).npd = true ↔ ∃ j < n, positivef (d j) = false)) ∧
    ∀ i j : Nat, i < n → j < n →
      (i ≠ j → outputWord (invertLane rsqrt n lower) 0 j i = outputWord (invertLane rsqrt n lower) 0 i j ∧
        outputWord (invertLane rsqrt n lower) 1 j i = negf (outputWord (invertLane rsqrt n lower) 1 i j)) ∧
      outputWord (invertLane rsqrt n lower) 1 j j = 0

/-- R232, R233: lane k of the output depends only on lane k of the input, and there only on the elements below
the diagonal and the real parts on it. -/
def Obligations.CholinvLanesAreIndependent : Prop :=
  ∀ (n : BitVec 5) (src dst : Word) (s t u : State) (m : Memory) (k : Nat), k < lanes →
    (∀ p < 2, ∀ r < n.toNat, ∀ c < n.toNat, (c < r ∨ (c = r ∧ p = 0)) →
      s.buf.agree m (elemAddr src.toNat n.toNat p r c k) 4) →
    s.engState = .busy → exec (.cholinv n src dst) s = .next t → t.engState = .busy →
    exec (.cholinv n src dst) { s with buf := m } = .next u →
    ∀ p < 2, ∀ r < n.toNat, ∀ c < n.toNat,
      t.buf.agree u.buf (elemAddr dst.toNat n.toNat p r c k) 4

/-- R234: every NaN result of +f, −f, ×f and RSQRT is 0x7FC00000, whatever the operands and the build. -/
def Obligations.NanResultsAreCanonical : Prop :=
  ∀ (a b : F32) (table : List (F32 × F32)),
    (f32IsNaN (addf a b) = true → addf a b = 0x7FC00000) ∧
    (f32IsNaN (subf a b) = true → subf a b = 0x7FC00000) ∧
    (f32IsNaN (mulf a b) = true → mulf a b = 0x7FC00000) ∧
    (f32IsNaN (rsqrtBy table a) = true → rsqrtBy table a = 0x7FC00000)

/-- R234: a sum, difference or product of finite values is the nearest binary32 value, ties to even, or the infinity
of the exact value's sign from half a unit above the largest finite value on; the sign of a zero result; and the
results with an operand that is NaN or infinite. What R234 leaves to IEEE 754-2019 is log entry 14: what a pattern
stands for, where the overflow begins, and the results with an infinite operand. -/
def Obligations.SumsAndProductsAreRounded : Prop :=
  (∀ a b : F32, f32Finite a → f32Finite b →
    roundsTo (addf a b) ((f32Value a + f32Value b : ℚ) : ℝ)
      (if f32Value a + f32Value b = 0 then f32Sign a && f32Sign b else decide (f32Value a + f32Value b < 0)) ∧
    roundsTo (subf a b) ((f32Value a - f32Value b : ℚ) : ℝ)
      (if f32Value a - f32Value b = 0 then f32Sign a && !f32Sign b else decide (f32Value a - f32Value b < 0)) ∧
    roundsTo (mulf a b) ((f32Value a * f32Value b : ℚ) : ℝ) (f32Sign a != f32Sign b)) ∧
  addf 0 0x80000000 = 0 ∧
  (∀ a b : F32, f32IsNaN a = true ∨ f32IsNaN b = true →
    addf a b = 0x7FC00000 ∧ subf a b = 0x7FC00000 ∧ mulf a b = 0x7FC00000) ∧
  ∀ a b : F32, f32IsInf a = true → f32IsNaN b = false →
    addf a b = (if f32IsInf b = true ∧ f32Sign a ≠ f32Sign b then 0x7FC00000 else a) ∧
    subf a b = (if f32IsInf b = true ∧ f32Sign a = f32Sign b then 0x7FC00000 else a) ∧
    mulf a b = (if f32IsZero b = true then 0x7FC00000
      else if f32Sign a = f32Sign b then 0x7F800000 else 0xFF800000) ∧
    addf b a = addf a b ∧ mulf b a = mulf a b ∧ (f32Finite b → subf b a = negf a)

/-- R236: the default RSQRT: the special cases, and for finite x > 0 the finite positive result y nearest to 1/√x,
ties to even, also in squares: (y − h)²·x ≤ 1 ≤ (y + h)²·x for h half a unit in the last place of y. -/
def Obligations.DefaultRsqrtIsRounded : Prop :=
  (rsqrtBy [] 0x00000000 = 0x7F800000 ∧ rsqrtBy [] 0x80000000 = 0xFF800000 ∧
    rsqrtBy [] 0x7F800000 = 0x00000000) ∧
  (∀ x : F32, (f32IsNaN x = true ∨ (f32Sign x = true ∧ f32IsZero x = false)) → rsqrtBy [] x = 0x7FC00000) ∧
  (∀ x : F32, f32Finite x → positivef x = true →
    f32Finite (rsqrtBy [] x) ∧ positivef (rsqrtBy [] x) = true ∧
    nearestEven (rsqrtBy [] x) (1 / Real.sqrt ((f32Value x : ℚ) : ℝ)) ∧
    (f32Value (rsqrtBy [] x) - f32HalfUlp (rsqrtBy [] x)) ^ 2 * f32Value x ≤ 1 ∧
    1 ≤ (f32Value (rsqrtBy [] x) + f32HalfUlp (rsqrtBy [] x)) ^ 2 * f32Value x)

/-! ### The host port (10_state.md, 20_memory.md) -/

/-- R73, R57: while not BUSY a host write of 1, 2 or 4 bytes of BUF puts the value's bytes at rising offsets, least
significant first, and touches no other byte; the value's higher bits do not count (log entry 5). A read returns
the integer its bytes form in the same order, and faults where one of them was never written (log entry 1). So a
read after a write returns the value, and a 2-byte read at the upper half of a word its upper 16 bits. -/
def Obligations.HostWordsAreLittleEndian : Prop :=
  ∀ (s : State) (a size : Nat), s.params.legal → s.engState ≠ .busy → (size = 1 ∨ size = 2 ∨ size = 4) →
    a % size = 0 → a + size ≤ s.params.bufBytes →
    (s.buf.initialised a size →
      ∃ w : Word, hostAccess (.read (s.params.bufBytes + a) size) s = .next { s with hostResp := .okayRead w } ∧
        w.toNat < 2 ^ (8 * size) ∧ ∀ j < size, s.buf.readByte (a + j) = some (w.extractLsb' (8 * j) 8)) ∧
    (¬ s.buf.initialised a size → hostAccess (.read (s.params.bufBytes + a) size) s = .fault .uninitRead) ∧
    ∀ v : Word, ∃ t, hostAccess (.write (s.params.bufBytes + a) size v) s = .next t ∧
      (∀ j < size, t.buf.readByte (a + j) = some (v.extractLsb' (8 * j) 8)) ∧
      (∀ x, (x < a ∨ a + size ≤ x) → t.buf.readByte x = s.buf.readByte x) ∧
      t = { s with buf := t.buf, hostResp := .okayWrite } ∧
      hostAccess (.read (s.params.bufBytes + a) size) t =
        .next { t with hostResp := .okayRead (BitVec.ofNat 32 (v.toNat % 2 ^ (8 * size))) } ∧
      (size = 4 → hostAccess (.read (s.params.bufBytes + a + 2) 2) t =
        .next { t with hostResp := .okayRead ((v.extractLsb' 16 16).setWidth 32) })

/-- R49, R37 to R40: while BUSY a host write of CP, OUTP, SCALE or LLR_RANGE only sets IGN; while IDLE or ERROR
it takes effect, with CP[3:0] held at 0 and SCALE[31:6] ignored. IRQ_EN and IRQ_STATUS are never locked. -/
def Obligations.LockedRegistersWhileBusy : Prop :=
  ∀ (s : State) (v : Word),
    (s.engState = .busy → ∀ addr ∈ [0x010, 0x014, 0x018, 0x01C],
      hostAccess (.write addr 4 v) s =
        .next { s with irqStatus := s.irqStatus ||| 4, hostResp := .okayWrite }) ∧
    (s.engState ≠ .busy →
      hostAccess (.write 0x010 4 v) s = .next { s with cp := v &&& 0xFFFFFFF0, hostResp := .okayWrite } ∧
      hostAccess (.write 0x014 4 v) s = .next { s with outp := v, hostResp := .okayWrite } ∧
      hostAccess (.write 0x018 4 v) s = .next { s with shift := v.extractLsb' 0 6, hostResp := .okayWrite } ∧
      hostAccess (.write 0x01C 4 v) s =
        .next { s with low := v.extractLsb' 0 16, high := v.extractLsb' 16 16, hostResp := .okayWrite }) ∧
    hostAccess (.write 0x034 4 v) s = .next { s with irqEn := v.extractLsb' 0 4, hostResp := .okayWrite } ∧
    hostAccess (.write 0x038 4 v) s =
      .next { s with irqStatus := s.irqStatus &&& ~~~(v.extractLsb' 0 4), hostResp := .okayWrite }

/-- R50, R267: CTRL without SOFT_RESET, for every state of the ENGINE: CLEAR takes ERROR to IDLE, then START takes
IDLE to BUSY or sets IGN; nothing else changes. -/
def Obligations.CtrlClearsThenStarts : Prop :=
  ∀ (s : State) (v : Word), v.getLsbD 2 = false →
    hostAccess (.write 0x008 4 v) s = .next
      { s with
        hostResp := .okayWrite
        engState := match s.engState, v.getLsbD 1, v.getLsbD 0 with
          | .idle, _, true => .busy
          | .idle, _, false => .idle
          | .busy, _, _ => .busy
          | .error, true, true => .busy
          | .error, true, false => .idle
          | .error, false, _ => .error
        irqStatus := match s.engState, v.getLsbD 1, v.getLsbD 0 with
          | .idle, _, _ => s.irqStatus
          | .busy, _, true => s.irqStatus ||| 4
          | .busy, _, false => s.irqStatus
          | .error, false, true => s.irqStatus ||| 4
          | .error, _, _ => s.irqStatus }

/-- R51, R74, R75, R278: an access of a wrong width or alignment gets ERROR and changes no state of the block. For
an access to BUF while BUSY, where the last sentence of R278 could be read the other way, this is the model's
choice (log entry 8); so it is for an access that starts in the CSR block or the BUF window and ends in another
region (log entry 27). -/
def Obligations.BadHostAccessesDoNothing : Prop :=
  ∀ (s : State) (addr size : Nat) (v : Word), s.params.legal →
    ((addr < 0x1000 ∧ ¬ (size = 4 ∧ addr % 4 = 0)) ∨
      (s.params.bufBytes ≤ addr ∧ addr < 2 * s.params.bufBytes ∧
        ¬ ((size = 1 ∨ size = 2 ∨ size = 4) ∧ addr % size = 0))) →
    hostAccess (.read addr size) s = .next { s with hostResp := .busError } ∧
    hostAccess (.write addr size v) s = .next { s with hostResp := .busError }

/-- R80: a host read changes no state of the block. -/
def Obligations.HostReadsHaveNoSideEffect : Prop :=
  ∀ (s t : State) (addr size : Nat), hostAccess (.read addr size) s = .next t →
    t = { s with hostResp := t.hostResp }

/-- R33 to R48, R72: what a 4-byte host read of each CSR returns; every reserved offset and the whole reserved
range read 0. -/
def Obligations.CsrReadsReturnTheirFields : Prop :=
  ∀ s : State, s.params.legal →
    (∀ addr value, (addr, value) ∈
      [(0x000, 0x4C4C5201#32), (0x008, 0#32), (0x010, s.cp), (0x014, s.outp),
       (0x018, s.shift.setWidth 32), (0x01C, s.high ++ s.low), (0x020, s.lastCount.setWidth 32),
       (0x024, s.cmdCount), (0x028, s.errCode.setWidth 32), (0x02C, s.errCp), (0x030, s.errInfo),
       (0x034, s.irqEn.setWidth 32), (0x038, s.irqStatus.setWidth 32),
       (0x004, 0x00011000#32 + BitVec.ofNat 32 s.params.bufAddrBits),
       (0x00C, match s.engState with | .idle => 0#32 | .busy => 1#32 | .error => 2#32)] →
      hostAccess (.read addr 4) s = .next { s with hostResp := .okayRead value }) ∧
    (∀ addr, addr % 4 = 0 → 0x03C ≤ addr → addr < s.params.bufBytes →
      hostAccess (.read addr 4) s = .next { s with hostResp := .okayRead 0 })

/-- R84: a well-formed host access to BUF while BUSY is the fault HostRace. That it is this fault and not UninitRead
(R57) for a read of unwritten bytes is the model's choice (log entry 29). -/
def Obligations.HostRaceFaults : Prop :=
  ∀ (s : State) (a size : Nat) (v : Word), s.params.legal → s.engState = .busy → a < s.params.bufBytes →
    (size = 1 ∨ size = 2 ∨ size = 4) → a % size = 0 →
    hostAccess (.read (s.params.bufBytes + a) size) s = .fault .hostRace ∧
    hostAccess (.write (s.params.bufBytes + a) size v) s = .fault .hostRace

/-- R59: `irq` is 1 exactly when an enabled bit of IRQ_STATUS is set. -/
def Obligations.IrqIsEnabledPending : Prop :=
  ∀ s : State, s.irq = true ↔ ∃ i < 4, s.irqStatus.getLsbD i = true ∧ s.irqEn.getLsbD i = true

/-! ### Reset (70_reset_and_hazards.md) -/

/-- R60, R290: the state right after hardware reset, in the build the spec takes; `irq` is 0. -/
def Obligations.ResetLeavesSpecValues : Prop :=
  State.reset.engState = .idle ∧ State.reset.cp = 0 ∧ State.reset.outp = 0 ∧ State.reset.shift = 37 ∧
    State.reset.low.toInt = -128 ∧ State.reset.high.toInt = 127 ∧ State.reset.lastCount = 0 ∧
    State.reset.cmdCount = 0 ∧ State.reset.errCode = 0 ∧ State.reset.errCp = 0 ∧ State.reset.errInfo = 0 ∧
    State.reset.irqEn = 0 ∧ State.reset.irqStatus = 0 ∧ (∀ a, State.reset.buf.readByte a = none) ∧
    State.reset.params.bufBytes = 131072 ∧ State.reset.irq = false

/-- R292, R293: SOFT_RESET puts every CSR at its reset value and ignores CLEAR and START of the same write. While
IDLE or ERROR, BUF is as it was. While BUSY, every byte outside the write set of the command at CP is as it
was; the bytes inside take free values (log entry 9). Where the descriptor at CP has an unwritten byte, the
command is itself open, and the CSRs are reset all the same (log entry 10). -/
def Obligations.SoftResetKeepsBuf : Prop :=
  ∀ (s : State) (v : Word), v.getLsbD 2 = true →
    (s.engState ≠ .busy → hostAccess (.write 0x008 4 v) s =
      .next { State.reset with buf := s.buf, params := s.params, inbox := s.inbox, hostResp := .okayWrite,
                               freeIdx := s.freeIdx }) ∧
    (∀ d i, s.engState = .busy → s.fetch = .ok d → decodeWords d = .ok i →
      ∃ t, hostAccess (.write 0x008 4 v) s = .next t ∧
        (∀ a, (a < (s.writeSet i).1 ∨ (s.writeSet i).1 + (s.writeSet i).2 ≤ a) →
          t.buf.readByte a = s.buf.readByte a) ∧
        t = { State.reset with buf := t.buf, params := s.params, inbox := s.inbox, hostResp := .okayWrite,
                               freeIdx := t.freeIdx }) ∧
    (∀ d e, s.engState = .busy → s.fetch = .ok d → decodeWords d = .error e →
      hostAccess (.write 0x008 4 v) s =
        .next { State.reset with buf := s.buf, params := s.params, inbox := s.inbox, hostResp := .okayWrite,
                                 freeIdx := s.freeIdx }) ∧
    (s.engState = .busy → ¬ s.inRange s.cp 16 → hostAccess (.write 0x008 4 v) s =
      .next { State.reset with buf := s.buf, params := s.params, inbox := s.inbox, hostResp := .okayWrite,
                               freeIdx := s.freeIdx }) ∧
    (s.engState = .busy → s.inRange s.cp 16 → ¬ s.buf.initialised s.cp.toNat 16 →
      ∃ t, hostAccess (.write 0x008 4 v) s = .next t ∧
        t = { State.reset with buf := t.buf, params := s.params, inbox := s.inbox, hostResp := .okayWrite,
                               freeIdx := t.freeIdx })

/-- R79, R293, R170, R205, R231: the write set that soft reset uses is the one commands have. It is `count` bytes at
OUTP for a demap command, 128·N² bytes at DST for CHOLINV, and empty for a control command and for a command that
would raise. A command that completes leaves every byte outside it as it was and every byte inside written; one
that raises leaves every byte. -/
def Obligations.CommandsWriteTheirWriteSet : Prop :=
  (∀ (i : Instr) (s t : State), s.engState = .busy → exec i s = .next t →
    (∀ a, (t.engState = .error ∨ a < (s.writeSet i).1 ∨ (s.writeSet i).1 + (s.writeSet i).2 ≤ a) →
      t.buf.readByte a = s.buf.readByte a) ∧
    (t.engState ≠ .error → t.buf.initialised (s.writeSet i).1 (s.writeSet i).2)) ∧
  ∀ s : State,
    (∀ (a : Word) (k : BitVec 6) (lo hi : Half),
      ∀ i ∈ [Instr.nop, .endList, .jump a, .setout a, .config k lo hi], (s.writeSet i).2 = 0) ∧
    (∀ (order : Modulation) (lyr : Layers) (nsc : Subcarriers) (sym beta winv : Word) (i : Instr) (count : Nat),
      (i = demapInstr order lyr nsc sym beta winv ∧
          count = subcarrierCount nsc * layerCount lyr * bitsPerSymbol order ∨
        ∃ ty cd pp, i = dmrsInstr order lyr nsc ty cd pp sym beta winv ∧
          count = (dmrsLanes s.params nsc ty cd pp).length * layerCount lyr * bitsPerSymbol order) →
      (s.low.toInt ≤ s.high.toInt ∧ inputsInRange s lyr nsc sym beta winv ∧ s.inRange s.outp count →
        s.writeSet i = (s.outp.toNat, count)) ∧
      (¬ (s.low.toInt ≤ s.high.toInt ∧ inputsInRange s lyr nsc sym beta winv ∧ s.inRange s.outp count) →
        (s.writeSet i).2 = 0)) ∧
    ∀ (n : BitVec 5) (src dst : Word),
      (legalSize n ∧ s.inRange src (128 * n.toNat * n.toNat) ∧ s.inRange dst (128 * n.toNat * n.toNat) →
        s.writeSet (.cholinv n src dst) = (dst.toNat, 128 * n.toNat * n.toNat)) ∧
      (¬ (legalSize n ∧ s.inRange src (128 * n.toNat * n.toNat) ∧ s.inRange dst (128 * n.toNat * n.toNat)) →
        (s.writeSet (.cholinv n src dst)).2 = 0)

/-! ### Invariants -/

/-- The invariant holds right after reset. -/
def Obligations.ResetMeetsInvariant : Prop := MachineInv State.reset

/-- Every step keeps the invariant: the ENGINE's, every host access, every reset, whatever waits in `inbox`. -/
def Obligations.StepKeepsInvariant : Prop :=
  ∀ s t : State, MachineInv s → step s = .next t → MachineInv t

/-- R55, R294: no step changes the build's constants. -/
def Obligations.BuildConstantsNeverChange : Prop :=
  ∀ s t : State, step s = .next t → t.params = s.params

/-! ### Assembly lines, and host writes that are ignored -/

/-- R109: the command each line names, with its operands: an address is a number below 2^32 or a label, `shift`,
`low`, `high`, `l`, `nsc`, `type`, `cdm` and `n` are the values of the fields, and `port` gives its parity. That
a line with another operand names no command is the model's choice (log entry 20); so is that the first definition
of a label counts (log entry 24). -/
def Obligations.AssemblyLinesNameCommands : Prop :=
  ∀ (labels : List (String × Nat)) (i : Instr),
    (∀ a v, asmAddr labels a = some v ↔
      (a = .num v.toNat ∨ ∃ name, a = .label name ∧ labels.lookup name = some v.toNat)) ∧
    (asmCommand labels .nop = some i ↔ i = .nop) ∧
    (asmCommand labels .endList = some i ↔ i = .endList) ∧
    (∀ t, asmCommand labels (.jump t) = some i ↔ ∃ v, asmAddr labels t = some v ∧ i = .jump v) ∧
    (∀ t, asmCommand labels (.setout t) = some i ↔ ∃ v, asmAddr labels t = some v ∧ i = .setout v) ∧
    (∀ shift low high, asmCommand labels (.config shift low high) = some i ↔
      ∃ (k : BitVec 6) (lo hi : Half), k.toNat = shift ∧ lo.toInt = low ∧ hi.toInt = high ∧
        i = .config k lo hi) ∧
    (∀ m l n sym beta w, asmCommand labels (.demap m (.given l n) sym beta w) = some i ↔
      ∃ lyr nsc a b c, layerCount lyr = l ∧ subcarrierCount nsc = n ∧ asmAddr labels sym = some a ∧
        asmAddr labels beta = some b ∧ asmAddr labels w = some c ∧ i = demapInstr m lyr nsc a b c) ∧
    (∀ m l n type cdm port sym beta w,
      asmCommand labels (.demapDmrs m (.given l n) type cdm port sym beta w) = some i ↔
      ∃ (lyr : Layers) (nsc : Subcarriers) (ty : DmrsType) (cd : CdmGroups) (pp : PortParity) (a b c : Word),
        layerCount lyr = l ∧ subcarrierCount nsc = n ∧ ty.code.toNat + 1 = type ∧ cd.code.toNat + 1 = cdm ∧
        pp.code.toNat = port % 2 ∧ asmAddr labels sym = some a ∧ asmAddr labels beta = some b ∧
        asmAddr labels w = some c ∧ i = dmrsInstr m lyr nsc ty cd pp a b c) ∧
    (∀ n src dst, asmCommand labels (.cholinv n src dst) = some i ↔
      ∃ (k : BitVec 5) (a b : Word), k.toNat = n ∧ legalSize k ∧ asmAddr labels src = some a ∧
        asmAddr labels dst = some b ∧ i = .cholinv k a b)

/-- R33, R34, R36, R41 to R45, R48: a host write of a read-only CSR, of a reserved offset or of the reserved range
changes no state of the block, IGN included, in every state of the ENGINE. -/
def Obligations.ReadOnlyWritesAreIgnored : Prop :=
  ∀ (s : State) (addr : Nat) (v : Word), s.params.legal → addr % 4 = 0 →
    (addr ∈ [0x000, 0x004, 0x00C, 0x020, 0x024, 0x028, 0x02C, 0x030] ∨
      (0x03C ≤ addr ∧ addr < s.params.bufBytes)) →
    hostAccess (.write addr 4 v) s = .next { s with hostResp := .okayWrite }
end

