-- ==== Sys2Proof/Laws/State.lean ====
section
/-! SUPPORT. One lemma per field per update of `State`, so that no proof unfolds a record update. -/

namespace Sys2Proof.Machine

/-! ### `pend` -/

@[simp] theorem State.pend_engState (s : State) (b : BitVec 4) : (s.pend b).engState = s.engState := rfl
@[simp] theorem State.pend_cp (s : State) (b : BitVec 4) : (s.pend b).cp = s.cp := rfl
@[simp] theorem State.pend_outp (s : State) (b : BitVec 4) : (s.pend b).outp = s.outp := rfl
@[simp] theorem State.pend_shift (s : State) (b : BitVec 4) : (s.pend b).shift = s.shift := rfl
@[simp] theorem State.pend_low (s : State) (b : BitVec 4) : (s.pend b).low = s.low := rfl
@[simp] theorem State.pend_high (s : State) (b : BitVec 4) : (s.pend b).high = s.high := rfl
@[simp] theorem State.pend_lastCount (s : State) (b : BitVec 4) : (s.pend b).lastCount = s.lastCount := rfl
@[simp] theorem State.pend_cmdCount (s : State) (b : BitVec 4) : (s.pend b).cmdCount = s.cmdCount := rfl
@[simp] theorem State.pend_errCode (s : State) (b : BitVec 4) : (s.pend b).errCode = s.errCode := rfl
@[simp] theorem State.pend_errCp (s : State) (b : BitVec 4) : (s.pend b).errCp = s.errCp := rfl
@[simp] theorem State.pend_errInfo (s : State) (b : BitVec 4) : (s.pend b).errInfo = s.errInfo := rfl
@[simp] theorem State.pend_irqEn (s : State) (b : BitVec 4) : (s.pend b).irqEn = s.irqEn := rfl
@[simp] theorem State.pend_irqStatus (s : State) (b : BitVec 4) : (s.pend b).irqStatus = s.irqStatus ||| b := rfl
@[simp] theorem State.pend_buf (s : State) (b : BitVec 4) : (s.pend b).buf = s.buf := rfl
@[simp] theorem State.pend_params (s : State) (b : BitVec 4) : (s.pend b).params = s.params := rfl
@[simp] theorem State.pend_inbox (s : State) (b : BitVec 4) : (s.pend b).inbox = s.inbox := rfl
@[simp] theorem State.pend_hostResp (s : State) (b : BitVec 4) : (s.pend b).hostResp = s.hostResp := rfl
@[simp] theorem State.pend_freeIdx (s : State) (b : BitVec 4) : (s.pend b).freeIdx = s.freeIdx := rfl

/-! ### `acknowledge` -/

@[simp] theorem State.acknowledge_engState (s : State) (v : Word) : (s.acknowledge v).engState = s.engState := rfl
@[simp] theorem State.acknowledge_cp (s : State) (v : Word) : (s.acknowledge v).cp = s.cp := rfl
@[simp] theorem State.acknowledge_outp (s : State) (v : Word) : (s.acknowledge v).outp = s.outp := rfl
@[simp] theorem State.acknowledge_shift (s : State) (v : Word) : (s.acknowledge v).shift = s.shift := rfl
@[simp] theorem State.acknowledge_low (s : State) (v : Word) : (s.acknowledge v).low = s.low := rfl
@[simp] theorem State.acknowledge_high (s : State) (v : Word) : (s.acknowledge v).high = s.high := rfl
@[simp] theorem State.acknowledge_lastCount (s : State) (v : Word) : (s.acknowledge v).lastCount = s.lastCount := rfl
@[simp] theorem State.acknowledge_cmdCount (s : State) (v : Word) : (s.acknowledge v).cmdCount = s.cmdCount := rfl
@[simp] theorem State.acknowledge_errCode (s : State) (v : Word) : (s.acknowledge v).errCode = s.errCode := rfl
@[simp] theorem State.acknowledge_errCp (s : State) (v : Word) : (s.acknowledge v).errCp = s.errCp := rfl
@[simp] theorem State.acknowledge_errInfo (s : State) (v : Word) : (s.acknowledge v).errInfo = s.errInfo := rfl
@[simp] theorem State.acknowledge_irqEn (s : State) (v : Word) : (s.acknowledge v).irqEn = s.irqEn := rfl
@[simp] theorem State.acknowledge_irqStatus (s : State) (v : Word) : (s.acknowledge v).irqStatus = s.irqStatus &&& ~~~(v.extractLsb' 0 4) := rfl
@[simp] theorem State.acknowledge_buf (s : State) (v : Word) : (s.acknowledge v).buf = s.buf := rfl
@[simp] theorem State.acknowledge_params (s : State) (v : Word) : (s.acknowledge v).params = s.params := rfl
@[simp] theorem State.acknowledge_inbox (s : State) (v : Word) : (s.acknowledge v).inbox = s.inbox := rfl
@[simp] theorem State.acknowledge_hostResp (s : State) (v : Word) : (s.acknowledge v).hostResp = s.hostResp := rfl
@[simp] theorem State.acknowledge_freeIdx (s : State) (v : Word) : (s.acknowledge v).freeIdx = s.freeIdx := rfl

/-! ### `writeBuf` -/

@[simp] theorem State.writeBuf_engState (s : State) (a : Nat) (bs : List Byte) : (s.writeBuf a bs).engState = s.engState := rfl
@[simp] theorem State.writeBuf_cp (s : State) (a : Nat) (bs : List Byte) : (s.writeBuf a bs).cp = s.cp := rfl
@[simp] theorem State.writeBuf_outp (s : State) (a : Nat) (bs : List Byte) : (s.writeBuf a bs).outp = s.outp := rfl
@[simp] theorem State.writeBuf_shift (s : State) (a : Nat) (bs : List Byte) : (s.writeBuf a bs).shift = s.shift := rfl
@[simp] theorem State.writeBuf_low (s : State) (a : Nat) (bs : List Byte) : (s.writeBuf a bs).low = s.low := rfl
@[simp] theorem State.writeBuf_high (s : State) (a : Nat) (bs : List Byte) : (s.writeBuf a bs).high = s.high := rfl
@[simp] theorem State.writeBuf_lastCount (s : State) (a : Nat) (bs : List Byte) : (s.writeBuf a bs).lastCount = s.lastCount := rfl
@[simp] theorem State.writeBuf_cmdCount (s : State) (a : Nat) (bs : List Byte) : (s.writeBuf a bs).cmdCount = s.cmdCount := rfl
@[simp] theorem State.writeBuf_errCode (s : State) (a : Nat) (bs : List Byte) : (s.writeBuf a bs).errCode = s.errCode := rfl
@[simp] theorem State.writeBuf_errCp (s : State) (a : Nat) (bs : List Byte) : (s.writeBuf a bs).errCp = s.errCp := rfl
@[simp] theorem State.writeBuf_errInfo (s : State) (a : Nat) (bs : List Byte) : (s.writeBuf a bs).errInfo = s.errInfo := rfl
@[simp] theorem State.writeBuf_irqEn (s : State) (a : Nat) (bs : List Byte) : (s.writeBuf a bs).irqEn = s.irqEn := rfl
@[simp] theorem State.writeBuf_irqStatus (s : State) (a : Nat) (bs : List Byte) : (s.writeBuf a bs).irqStatus = s.irqStatus := rfl
@[simp] theorem State.writeBuf_buf (s : State) (a : Nat) (bs : List Byte) : (s.writeBuf a bs).buf = s.buf.writeBytes a bs := rfl
@[simp] theorem State.writeBuf_params (s : State) (a : Nat) (bs : List Byte) : (s.writeBuf a bs).params = s.params := rfl
@[simp] theorem State.writeBuf_inbox (s : State) (a : Nat) (bs : List Byte) : (s.writeBuf a bs).inbox = s.inbox := rfl
@[simp] theorem State.writeBuf_hostResp (s : State) (a : Nat) (bs : List Byte) : (s.writeBuf a bs).hostResp = s.hostResp := rfl
@[simp] theorem State.writeBuf_freeIdx (s : State) (a : Nat) (bs : List Byte) : (s.writeBuf a bs).freeIdx = s.freeIdx := rfl

/-! ### `complete` -/

@[simp] theorem State.complete_engState (s : State) (n : Word) : (s.complete n).engState = s.engState := rfl
@[simp] theorem State.complete_cp (s : State) (n : Word) : (s.complete n).cp = n := rfl
@[simp] theorem State.complete_outp (s : State) (n : Word) : (s.complete n).outp = s.outp := rfl
@[simp] theorem State.complete_shift (s : State) (n : Word) : (s.complete n).shift = s.shift := rfl
@[simp] theorem State.complete_low (s : State) (n : Word) : (s.complete n).low = s.low := rfl
@[simp] theorem State.complete_high (s : State) (n : Word) : (s.complete n).high = s.high := rfl
@[simp] theorem State.complete_lastCount (s : State) (n : Word) : (s.complete n).lastCount = s.lastCount := rfl
@[simp] theorem State.complete_cmdCount (s : State) (n : Word) : (s.complete n).cmdCount = s.cmdCount + 1 := rfl
@[simp] theorem State.complete_errCode (s : State) (n : Word) : (s.complete n).errCode = s.errCode := rfl
@[simp] theorem State.complete_errCp (s : State) (n : Word) : (s.complete n).errCp = s.errCp := rfl
@[simp] theorem State.complete_errInfo (s : State) (n : Word) : (s.complete n).errInfo = s.errInfo := rfl
@[simp] theorem State.complete_irqEn (s : State) (n : Word) : (s.complete n).irqEn = s.irqEn := rfl
@[simp] theorem State.complete_irqStatus (s : State) (n : Word) : (s.complete n).irqStatus = s.irqStatus := rfl
@[simp] theorem State.complete_buf (s : State) (n : Word) : (s.complete n).buf = s.buf := rfl
@[simp] theorem State.complete_params (s : State) (n : Word) : (s.complete n).params = s.params := rfl
@[simp] theorem State.complete_inbox (s : State) (n : Word) : (s.complete n).inbox = s.inbox := rfl
@[simp] theorem State.complete_hostResp (s : State) (n : Word) : (s.complete n).hostResp = s.hostResp := rfl
@[simp] theorem State.complete_freeIdx (s : State) (n : Word) : (s.complete n).freeIdx = s.freeIdx := rfl

/-! ### `advance` -/

@[simp] theorem State.advance_engState (s : State) : s.advance.engState = s.engState := rfl
@[simp] theorem State.advance_cp (s : State) : s.advance.cp = s.cp + 16 := rfl
@[simp] theorem State.advance_outp (s : State) : s.advance.outp = s.outp := rfl
@[simp] theorem State.advance_shift (s : State) : s.advance.shift = s.shift := rfl
@[simp] theorem State.advance_low (s : State) : s.advance.low = s.low := rfl
@[simp] theorem State.advance_high (s : State) : s.advance.high = s.high := rfl
@[simp] theorem State.advance_lastCount (s : State) : s.advance.lastCount = s.lastCount := rfl
@[simp] theorem State.advance_cmdCount (s : State) : s.advance.cmdCount = s.cmdCount + 1 := rfl
@[simp] theorem State.advance_errCode (s : State) : s.advance.errCode = s.errCode := rfl
@[simp] theorem State.advance_errCp (s : State) : s.advance.errCp = s.errCp := rfl
@[simp] theorem State.advance_errInfo (s : State) : s.advance.errInfo = s.errInfo := rfl
@[simp] theorem State.advance_irqEn (s : State) : s.advance.irqEn = s.irqEn := rfl
@[simp] theorem State.advance_irqStatus (s : State) : s.advance.irqStatus = s.irqStatus := rfl
@[simp] theorem State.advance_buf (s : State) : s.advance.buf = s.buf := rfl
@[simp] theorem State.advance_params (s : State) : s.advance.params = s.params := rfl
@[simp] theorem State.advance_inbox (s : State) : s.advance.inbox = s.inbox := rfl
@[simp] theorem State.advance_hostResp (s : State) : s.advance.hostResp = s.hostResp := rfl
@[simp] theorem State.advance_freeIdx (s : State) : s.advance.freeIdx = s.freeIdx := rfl

/-! ### `setOutp` -/

@[simp] theorem State.setOutp_engState (s : State) (v : Word) : (s.setOutp v).engState = s.engState := rfl
@[simp] theorem State.setOutp_cp (s : State) (v : Word) : (s.setOutp v).cp = s.cp := rfl
@[simp] theorem State.setOutp_outp (s : State) (v : Word) : (s.setOutp v).outp = v := rfl
@[simp] theorem State.setOutp_shift (s : State) (v : Word) : (s.setOutp v).shift = s.shift := rfl
@[simp] theorem State.setOutp_low (s : State) (v : Word) : (s.setOutp v).low = s.low := rfl
@[simp] theorem State.setOutp_high (s : State) (v : Word) : (s.setOutp v).high = s.high := rfl
@[simp] theorem State.setOutp_lastCount (s : State) (v : Word) : (s.setOutp v).lastCount = s.lastCount := rfl
@[simp] theorem State.setOutp_cmdCount (s : State) (v : Word) : (s.setOutp v).cmdCount = s.cmdCount := rfl
@[simp] theorem State.setOutp_errCode (s : State) (v : Word) : (s.setOutp v).errCode = s.errCode := rfl
@[simp] theorem State.setOutp_errCp (s : State) (v : Word) : (s.setOutp v).errCp = s.errCp := rfl
@[simp] theorem State.setOutp_errInfo (s : State) (v : Word) : (s.setOutp v).errInfo = s.errInfo := rfl
@[simp] theorem State.setOutp_irqEn (s : State) (v : Word) : (s.setOutp v).irqEn = s.irqEn := rfl
@[simp] theorem State.setOutp_irqStatus (s : State) (v : Word) : (s.setOutp v).irqStatus = s.irqStatus := rfl
@[simp] theorem State.setOutp_buf (s : State) (v : Word) : (s.setOutp v).buf = s.buf := rfl
@[simp] theorem State.setOutp_params (s : State) (v : Word) : (s.setOutp v).params = s.params := rfl
@[simp] theorem State.setOutp_inbox (s : State) (v : Word) : (s.setOutp v).inbox = s.inbox := rfl
@[simp] theorem State.setOutp_hostResp (s : State) (v : Word) : (s.setOutp v).hostResp = s.hostResp := rfl
@[simp] theorem State.setOutp_freeIdx (s : State) (v : Word) : (s.setOutp v).freeIdx = s.freeIdx := rfl

/-! ### `setConfig` -/

@[simp] theorem State.setConfig_engState (s : State) (k : BitVec 6) (lo hi : Half) : (s.setConfig k lo hi).engState = s.engState := rfl
@[simp] theorem State.setConfig_cp (s : State) (k : BitVec 6) (lo hi : Half) : (s.setConfig k lo hi).cp = s.cp := rfl
@[simp] theorem State.setConfig_outp (s : State) (k : BitVec 6) (lo hi : Half) : (s.setConfig k lo hi).outp = s.outp := rfl
@[simp] theorem State.setConfig_shift (s : State) (k : BitVec 6) (lo hi : Half) : (s.setConfig k lo hi).shift = k := rfl
@[simp] theorem State.setConfig_low (s : State) (k : BitVec 6) (lo hi : Half) : (s.setConfig k lo hi).low = lo := rfl
@[simp] theorem State.setConfig_high (s : State) (k : BitVec 6) (lo hi : Half) : (s.setConfig k lo hi).high = hi := rfl
@[simp] theorem State.setConfig_lastCount (s : State) (k : BitVec 6) (lo hi : Half) : (s.setConfig k lo hi).lastCount = s.lastCount := rfl
@[simp] theorem State.setConfig_cmdCount (s : State) (k : BitVec 6) (lo hi : Half) : (s.setConfig k lo hi).cmdCount = s.cmdCount := rfl
@[simp] theorem State.setConfig_errCode (s : State) (k : BitVec 6) (lo hi : Half) : (s.setConfig k lo hi).errCode = s.errCode := rfl
@[simp] theorem State.setConfig_errCp (s : State) (k : BitVec 6) (lo hi : Half) : (s.setConfig k lo hi).errCp = s.errCp := rfl
@[simp] theorem State.setConfig_errInfo (s : State) (k : BitVec 6) (lo hi : Half) : (s.setConfig k lo hi).errInfo = s.errInfo := rfl
@[simp] theorem State.setConfig_irqEn (s : State) (k : BitVec 6) (lo hi : Half) : (s.setConfig k lo hi).irqEn = s.irqEn := rfl
@[simp] theorem State.setConfig_irqStatus (s : State) (k : BitVec 6) (lo hi : Half) : (s.setConfig k lo hi).irqStatus = s.irqStatus := rfl
@[simp] theorem State.setConfig_buf (s : State) (k : BitVec 6) (lo hi : Half) : (s.setConfig k lo hi).buf = s.buf := rfl
@[simp] theorem State.setConfig_params (s : State) (k : BitVec 6) (lo hi : Half) : (s.setConfig k lo hi).params = s.params := rfl
@[simp] theorem State.setConfig_inbox (s : State) (k : BitVec 6) (lo hi : Half) : (s.setConfig k lo hi).inbox = s.inbox := rfl
@[simp] theorem State.setConfig_hostResp (s : State) (k : BitVec 6) (lo hi : Half) : (s.setConfig k lo hi).hostResp = s.hostResp := rfl
@[simp] theorem State.setConfig_freeIdx (s : State) (k : BitVec 6) (lo hi : Half) : (s.setConfig k lo hi).freeIdx = s.freeIdx := rfl

/-! ### `advanceOut` -/

@[simp] theorem State.advanceOut_engState (s : State) (n : Nat) : (s.advanceOut n).engState = s.engState := rfl
@[simp] theorem State.advanceOut_cp (s : State) (n : Nat) : (s.advanceOut n).cp = s.cp := rfl
@[simp] theorem State.advanceOut_outp (s : State) (n : Nat) : (s.advanceOut n).outp = s.outp + BitVec.ofNat 32 n := rfl
@[simp] theorem State.advanceOut_shift (s : State) (n : Nat) : (s.advanceOut n).shift = s.shift := rfl
@[simp] theorem State.advanceOut_low (s : State) (n : Nat) : (s.advanceOut n).low = s.low := rfl
@[simp] theorem State.advanceOut_high (s : State) (n : Nat) : (s.advanceOut n).high = s.high := rfl
@[simp] theorem State.advanceOut_lastCount (s : State) (n : Nat) : (s.advanceOut n).lastCount = BitVec.ofNat 9 n := rfl
@[simp] theorem State.advanceOut_cmdCount (s : State) (n : Nat) : (s.advanceOut n).cmdCount = s.cmdCount := rfl
@[simp] theorem State.advanceOut_errCode (s : State) (n : Nat) : (s.advanceOut n).errCode = s.errCode := rfl
@[simp] theorem State.advanceOut_errCp (s : State) (n : Nat) : (s.advanceOut n).errCp = s.errCp := rfl
@[simp] theorem State.advanceOut_errInfo (s : State) (n : Nat) : (s.advanceOut n).errInfo = s.errInfo := rfl
@[simp] theorem State.advanceOut_irqEn (s : State) (n : Nat) : (s.advanceOut n).irqEn = s.irqEn := rfl
@[simp] theorem State.advanceOut_irqStatus (s : State) (n : Nat) : (s.advanceOut n).irqStatus = s.irqStatus := rfl
@[simp] theorem State.advanceOut_buf (s : State) (n : Nat) : (s.advanceOut n).buf = s.buf := rfl
@[simp] theorem State.advanceOut_params (s : State) (n : Nat) : (s.advanceOut n).params = s.params := rfl
@[simp] theorem State.advanceOut_inbox (s : State) (n : Nat) : (s.advanceOut n).inbox = s.inbox := rfl
@[simp] theorem State.advanceOut_hostResp (s : State) (n : Nat) : (s.advanceOut n).hostResp = s.hostResp := rfl
@[simp] theorem State.advanceOut_freeIdx (s : State) (n : Nat) : (s.advanceOut n).freeIdx = s.freeIdx := rfl

/-! ### `stop` -/

@[simp] theorem State.stop_engState (s : State) : s.stop.engState = .idle := rfl
@[simp] theorem State.stop_cp (s : State) : s.stop.cp = s.cp := rfl
@[simp] theorem State.stop_outp (s : State) : s.stop.outp = s.outp := rfl
@[simp] theorem State.stop_shift (s : State) : s.stop.shift = s.shift := rfl
@[simp] theorem State.stop_low (s : State) : s.stop.low = s.low := rfl
@[simp] theorem State.stop_high (s : State) : s.stop.high = s.high := rfl
@[simp] theorem State.stop_lastCount (s : State) : s.stop.lastCount = s.lastCount := rfl
@[simp] theorem State.stop_cmdCount (s : State) : s.stop.cmdCount = s.cmdCount := rfl
@[simp] theorem State.stop_errCode (s : State) : s.stop.errCode = s.errCode := rfl
@[simp] theorem State.stop_errCp (s : State) : s.stop.errCp = s.errCp := rfl
@[simp] theorem State.stop_errInfo (s : State) : s.stop.errInfo = s.errInfo := rfl
@[simp] theorem State.stop_irqEn (s : State) : s.stop.irqEn = s.irqEn := rfl
@[simp] theorem State.stop_irqStatus (s : State) : s.stop.irqStatus = s.irqStatus := rfl
@[simp] theorem State.stop_buf (s : State) : s.stop.buf = s.buf := rfl
@[simp] theorem State.stop_params (s : State) : s.stop.params = s.params := rfl
@[simp] theorem State.stop_inbox (s : State) : s.stop.inbox = s.inbox := rfl
@[simp] theorem State.stop_hostResp (s : State) : s.stop.hostResp = s.hostResp := rfl
@[simp] theorem State.stop_freeIdx (s : State) : s.stop.freeIdx = s.freeIdx := rfl

/-! ### `enterError` -/

@[simp] theorem State.enterError_engState (s : State) (e : ErrorCode) (w : Word) : (s.enterError e w).engState = .error := rfl
@[simp] theorem State.enterError_cp (s : State) (e : ErrorCode) (w : Word) : (s.enterError e w).cp = s.cp := rfl
@[simp] theorem State.enterError_outp (s : State) (e : ErrorCode) (w : Word) : (s.enterError e w).outp = s.outp := rfl
@[simp] theorem State.enterError_shift (s : State) (e : ErrorCode) (w : Word) : (s.enterError e w).shift = s.shift := rfl
@[simp] theorem State.enterError_low (s : State) (e : ErrorCode) (w : Word) : (s.enterError e w).low = s.low := rfl
@[simp] theorem State.enterError_high (s : State) (e : ErrorCode) (w : Word) : (s.enterError e w).high = s.high := rfl
@[simp] theorem State.enterError_lastCount (s : State) (e : ErrorCode) (w : Word) : (s.enterError e w).lastCount = s.lastCount := rfl
@[simp] theorem State.enterError_cmdCount (s : State) (e : ErrorCode) (w : Word) : (s.enterError e w).cmdCount = s.cmdCount := rfl
@[simp] theorem State.enterError_errCode (s : State) (e : ErrorCode) (w : Word) : (s.enterError e w).errCode = errorNumber e := rfl
@[simp] theorem State.enterError_errCp (s : State) (e : ErrorCode) (w : Word) : (s.enterError e w).errCp = s.cp := rfl
@[simp] theorem State.enterError_errInfo (s : State) (e : ErrorCode) (w : Word) : (s.enterError e w).errInfo = w := rfl
@[simp] theorem State.enterError_irqEn (s : State) (e : ErrorCode) (w : Word) : (s.enterError e w).irqEn = s.irqEn := rfl
@[simp] theorem State.enterError_irqStatus (s : State) (e : ErrorCode) (w : Word) : (s.enterError e w).irqStatus = s.irqStatus ||| irqErr := rfl
@[simp] theorem State.enterError_buf (s : State) (e : ErrorCode) (w : Word) : (s.enterError e w).buf = s.buf := rfl
@[simp] theorem State.enterError_params (s : State) (e : ErrorCode) (w : Word) : (s.enterError e w).params = s.params := rfl
@[simp] theorem State.enterError_inbox (s : State) (e : ErrorCode) (w : Word) : (s.enterError e w).inbox = s.inbox := rfl
@[simp] theorem State.enterError_hostResp (s : State) (e : ErrorCode) (w : Word) : (s.enterError e w).hostResp = s.hostResp := rfl
@[simp] theorem State.enterError_freeIdx (s : State) (e : ErrorCode) (w : Word) : (s.enterError e w).freeIdx = s.freeIdx := rfl

/-! ### `resetCsrs` -/

@[simp] theorem State.resetCsrs_engState (s : State) : s.resetCsrs.engState = State.reset.engState := rfl
@[simp] theorem State.resetCsrs_cp (s : State) : s.resetCsrs.cp = State.reset.cp := rfl
@[simp] theorem State.resetCsrs_outp (s : State) : s.resetCsrs.outp = State.reset.outp := rfl
@[simp] theorem State.resetCsrs_shift (s : State) : s.resetCsrs.shift = State.reset.shift := rfl
@[simp] theorem State.resetCsrs_low (s : State) : s.resetCsrs.low = State.reset.low := rfl
@[simp] theorem State.resetCsrs_high (s : State) : s.resetCsrs.high = State.reset.high := rfl
@[simp] theorem State.resetCsrs_lastCount (s : State) : s.resetCsrs.lastCount = State.reset.lastCount := rfl
@[simp] theorem State.resetCsrs_cmdCount (s : State) : s.resetCsrs.cmdCount = State.reset.cmdCount := rfl
@[simp] theorem State.resetCsrs_errCode (s : State) : s.resetCsrs.errCode = State.reset.errCode := rfl
@[simp] theorem State.resetCsrs_errCp (s : State) : s.resetCsrs.errCp = State.reset.errCp := rfl
@[simp] theorem State.resetCsrs_errInfo (s : State) : s.resetCsrs.errInfo = State.reset.errInfo := rfl
@[simp] theorem State.resetCsrs_irqEn (s : State) : s.resetCsrs.irqEn = State.reset.irqEn := rfl
@[simp] theorem State.resetCsrs_irqStatus (s : State) : s.resetCsrs.irqStatus = State.reset.irqStatus := rfl
@[simp] theorem State.resetCsrs_buf (s : State) : s.resetCsrs.buf = s.buf := rfl
@[simp] theorem State.resetCsrs_params (s : State) : s.resetCsrs.params = s.params := rfl
@[simp] theorem State.resetCsrs_inbox (s : State) : s.resetCsrs.inbox = s.inbox := rfl
@[simp] theorem State.resetCsrs_hostResp (s : State) : s.resetCsrs.hostResp = s.hostResp := rfl
@[simp] theorem State.resetCsrs_freeIdx (s : State) : s.resetCsrs.freeIdx = s.freeIdx := rfl

/-! ### `hardwareReset` -/

@[simp] theorem State.hardwareReset_engState (s : State) : s.hardwareReset.engState = State.reset.engState := rfl
@[simp] theorem State.hardwareReset_cp (s : State) : s.hardwareReset.cp = State.reset.cp := rfl
@[simp] theorem State.hardwareReset_outp (s : State) : s.hardwareReset.outp = State.reset.outp := rfl
@[simp] theorem State.hardwareReset_shift (s : State) : s.hardwareReset.shift = State.reset.shift := rfl
@[simp] theorem State.hardwareReset_low (s : State) : s.hardwareReset.low = State.reset.low := rfl
@[simp] theorem State.hardwareReset_high (s : State) : s.hardwareReset.high = State.reset.high := rfl
@[simp] theorem State.hardwareReset_lastCount (s : State) : s.hardwareReset.lastCount = State.reset.lastCount := rfl
@[simp] theorem State.hardwareReset_cmdCount (s : State) : s.hardwareReset.cmdCount = State.reset.cmdCount := rfl
@[simp] theorem State.hardwareReset_errCode (s : State) : s.hardwareReset.errCode = State.reset.errCode := rfl
@[simp] theorem State.hardwareReset_errCp (s : State) : s.hardwareReset.errCp = State.reset.errCp := rfl
@[simp] theorem State.hardwareReset_errInfo (s : State) : s.hardwareReset.errInfo = State.reset.errInfo := rfl
@[simp] theorem State.hardwareReset_irqEn (s : State) : s.hardwareReset.irqEn = State.reset.irqEn := rfl
@[simp] theorem State.hardwareReset_irqStatus (s : State) : s.hardwareReset.irqStatus = State.reset.irqStatus := rfl
@[simp] theorem State.hardwareReset_buf (s : State) : s.hardwareReset.buf = [] := rfl
@[simp] theorem State.hardwareReset_params (s : State) : s.hardwareReset.params = s.params := rfl
@[simp] theorem State.hardwareReset_inbox (s : State) : s.hardwareReset.inbox = s.inbox := rfl
@[simp] theorem State.hardwareReset_hostResp (s : State) : s.hardwareReset.hostResp = s.hostResp := rfl
@[simp] theorem State.hardwareReset_freeIdx (s : State) : s.hardwareReset.freeIdx = s.freeIdx := rfl

/-! ### `scramble` -/

@[simp] theorem State.scramble_engState (s : State) (a n : Nat) : (s.scramble a n).engState = s.engState := rfl
@[simp] theorem State.scramble_cp (s : State) (a n : Nat) : (s.scramble a n).cp = s.cp := rfl
@[simp] theorem State.scramble_outp (s : State) (a n : Nat) : (s.scramble a n).outp = s.outp := rfl
@[simp] theorem State.scramble_shift (s : State) (a n : Nat) : (s.scramble a n).shift = s.shift := rfl
@[simp] theorem State.scramble_low (s : State) (a n : Nat) : (s.scramble a n).low = s.low := rfl
@[simp] theorem State.scramble_high (s : State) (a n : Nat) : (s.scramble a n).high = s.high := rfl
@[simp] theorem State.scramble_lastCount (s : State) (a n : Nat) : (s.scramble a n).lastCount = s.lastCount := rfl
@[simp] theorem State.scramble_cmdCount (s : State) (a n : Nat) : (s.scramble a n).cmdCount = s.cmdCount := rfl
@[simp] theorem State.scramble_errCode (s : State) (a n : Nat) : (s.scramble a n).errCode = s.errCode := rfl
@[simp] theorem State.scramble_errCp (s : State) (a n : Nat) : (s.scramble a n).errCp = s.errCp := rfl
@[simp] theorem State.scramble_errInfo (s : State) (a n : Nat) : (s.scramble a n).errInfo = s.errInfo := rfl
@[simp] theorem State.scramble_irqEn (s : State) (a n : Nat) : (s.scramble a n).irqEn = s.irqEn := rfl
@[simp] theorem State.scramble_irqStatus (s : State) (a n : Nat) : (s.scramble a n).irqStatus = s.irqStatus := rfl
@[simp] theorem State.scramble_buf (s : State) (a n : Nat) : (s.scramble a n).buf = s.buf.writeBytes a (freeBytes s.freeIdx n) := rfl
@[simp] theorem State.scramble_params (s : State) (a n : Nat) : (s.scramble a n).params = s.params := rfl
@[simp] theorem State.scramble_inbox (s : State) (a n : Nat) : (s.scramble a n).inbox = s.inbox := rfl
@[simp] theorem State.scramble_hostResp (s : State) (a n : Nat) : (s.scramble a n).hostResp = s.hostResp := rfl
@[simp] theorem State.scramble_freeIdx (s : State) (a n : Nat) : (s.scramble a n).freeIdx = s.freeIdx + n := rfl

/-! ### `drawn` -/

@[simp] theorem State.drawn_engState (s : State) (n : Nat) : (s.drawn n).engState = s.engState := rfl
@[simp] theorem State.drawn_cp (s : State) (n : Nat) : (s.drawn n).cp = s.cp := rfl
@[simp] theorem State.drawn_outp (s : State) (n : Nat) : (s.drawn n).outp = s.outp := rfl
@[simp] theorem State.drawn_shift (s : State) (n : Nat) : (s.drawn n).shift = s.shift := rfl
@[simp] theorem State.drawn_low (s : State) (n : Nat) : (s.drawn n).low = s.low := rfl
@[simp] theorem State.drawn_high (s : State) (n : Nat) : (s.drawn n).high = s.high := rfl
@[simp] theorem State.drawn_lastCount (s : State) (n : Nat) : (s.drawn n).lastCount = s.lastCount := rfl
@[simp] theorem State.drawn_cmdCount (s : State) (n : Nat) : (s.drawn n).cmdCount = s.cmdCount := rfl
@[simp] theorem State.drawn_errCode (s : State) (n : Nat) : (s.drawn n).errCode = s.errCode := rfl
@[simp] theorem State.drawn_errCp (s : State) (n : Nat) : (s.drawn n).errCp = s.errCp := rfl
@[simp] theorem State.drawn_errInfo (s : State) (n : Nat) : (s.drawn n).errInfo = s.errInfo := rfl
@[simp] theorem State.drawn_irqEn (s : State) (n : Nat) : (s.drawn n).irqEn = s.irqEn := rfl
@[simp] theorem State.drawn_irqStatus (s : State) (n : Nat) : (s.drawn n).irqStatus = s.irqStatus := rfl
@[simp] theorem State.drawn_buf (s : State) (n : Nat) : (s.drawn n).buf = s.buf := rfl
@[simp] theorem State.drawn_params (s : State) (n : Nat) : (s.drawn n).params = s.params := rfl
@[simp] theorem State.drawn_inbox (s : State) (n : Nat) : (s.drawn n).inbox = s.inbox := rfl
@[simp] theorem State.drawn_hostResp (s : State) (n : Nat) : (s.drawn n).hostResp = s.hostResp := rfl
@[simp] theorem State.drawn_freeIdx (s : State) (n : Nat) : (s.drawn n).freeIdx = s.freeIdx + n := rfl

/-! ### `respond` -/

@[simp] theorem State.respond_engState (s : State) (r : HostResp) : (s.respond r).engState = s.engState := rfl
@[simp] theorem State.respond_cp (s : State) (r : HostResp) : (s.respond r).cp = s.cp := rfl
@[simp] theorem State.respond_outp (s : State) (r : HostResp) : (s.respond r).outp = s.outp := rfl
@[simp] theorem State.respond_shift (s : State) (r : HostResp) : (s.respond r).shift = s.shift := rfl
@[simp] theorem State.respond_low (s : State) (r : HostResp) : (s.respond r).low = s.low := rfl
@[simp] theorem State.respond_high (s : State) (r : HostResp) : (s.respond r).high = s.high := rfl
@[simp] theorem State.respond_lastCount (s : State) (r : HostResp) : (s.respond r).lastCount = s.lastCount := rfl
@[simp] theorem State.respond_cmdCount (s : State) (r : HostResp) : (s.respond r).cmdCount = s.cmdCount := rfl
@[simp] theorem State.respond_errCode (s : State) (r : HostResp) : (s.respond r).errCode = s.errCode := rfl
@[simp] theorem State.respond_errCp (s : State) (r : HostResp) : (s.respond r).errCp = s.errCp := rfl
@[simp] theorem State.respond_errInfo (s : State) (r : HostResp) : (s.respond r).errInfo = s.errInfo := rfl
@[simp] theorem State.respond_irqEn (s : State) (r : HostResp) : (s.respond r).irqEn = s.irqEn := rfl
@[simp] theorem State.respond_irqStatus (s : State) (r : HostResp) : (s.respond r).irqStatus = s.irqStatus := rfl
@[simp] theorem State.respond_buf (s : State) (r : HostResp) : (s.respond r).buf = s.buf := rfl
@[simp] theorem State.respond_params (s : State) (r : HostResp) : (s.respond r).params = s.params := rfl
@[simp] theorem State.respond_inbox (s : State) (r : HostResp) : (s.respond r).inbox = s.inbox := rfl
@[simp] theorem State.respond_hostResp (s : State) (r : HostResp) : (s.respond r).hostResp = r := rfl
@[simp] theorem State.respond_freeIdx (s : State) (r : HostResp) : (s.respond r).freeIdx = s.freeIdx := rfl

/-! ### `withInbox` -/

@[simp] theorem State.withInbox_engState (s : State) (es : List PortEvent) : (s.withInbox es).engState = s.engState := rfl
@[simp] theorem State.withInbox_cp (s : State) (es : List PortEvent) : (s.withInbox es).cp = s.cp := rfl
@[simp] theorem State.withInbox_outp (s : State) (es : List PortEvent) : (s.withInbox es).outp = s.outp := rfl
@[simp] theorem State.withInbox_shift (s : State) (es : List PortEvent) : (s.withInbox es).shift = s.shift := rfl
@[simp] theorem State.withInbox_low (s : State) (es : List PortEvent) : (s.withInbox es).low = s.low := rfl
@[simp] theorem State.withInbox_high (s : State) (es : List PortEvent) : (s.withInbox es).high = s.high := rfl
@[simp] theorem State.withInbox_lastCount (s : State) (es : List PortEvent) : (s.withInbox es).lastCount = s.lastCount := rfl
@[simp] theorem State.withInbox_cmdCount (s : State) (es : List PortEvent) : (s.withInbox es).cmdCount = s.cmdCount := rfl
@[simp] theorem State.withInbox_errCode (s : State) (es : List PortEvent) : (s.withInbox es).errCode = s.errCode := rfl
@[simp] theorem State.withInbox_errCp (s : State) (es : List PortEvent) : (s.withInbox es).errCp = s.errCp := rfl
@[simp] theorem State.withInbox_errInfo (s : State) (es : List PortEvent) : (s.withInbox es).errInfo = s.errInfo := rfl
@[simp] theorem State.withInbox_irqEn (s : State) (es : List PortEvent) : (s.withInbox es).irqEn = s.irqEn := rfl
@[simp] theorem State.withInbox_irqStatus (s : State) (es : List PortEvent) : (s.withInbox es).irqStatus = s.irqStatus := rfl
@[simp] theorem State.withInbox_buf (s : State) (es : List PortEvent) : (s.withInbox es).buf = s.buf := rfl
@[simp] theorem State.withInbox_params (s : State) (es : List PortEvent) : (s.withInbox es).params = s.params := rfl
@[simp] theorem State.withInbox_inbox (s : State) (es : List PortEvent) : (s.withInbox es).inbox = es := rfl
@[simp] theorem State.withInbox_hostResp (s : State) (es : List PortEvent) : (s.withInbox es).hostResp = s.hostResp := rfl
@[simp] theorem State.withInbox_freeIdx (s : State) (es : List PortEvent) : (s.withInbox es).freeIdx = s.freeIdx := rfl

/-! ### `placeAtFetch` -/

@[simp] theorem State.placeAtFetch_engState (s : State) (bs : List Byte) : (s.placeAtFetch bs).engState = .busy := rfl
@[simp] theorem State.placeAtFetch_cp (s : State) (bs : List Byte) : (s.placeAtFetch bs).cp = s.cp := rfl
@[simp] theorem State.placeAtFetch_outp (s : State) (bs : List Byte) : (s.placeAtFetch bs).outp = s.outp := rfl
@[simp] theorem State.placeAtFetch_shift (s : State) (bs : List Byte) : (s.placeAtFetch bs).shift = s.shift := rfl
@[simp] theorem State.placeAtFetch_low (s : State) (bs : List Byte) : (s.placeAtFetch bs).low = s.low := rfl
@[simp] theorem State.placeAtFetch_high (s : State) (bs : List Byte) : (s.placeAtFetch bs).high = s.high := rfl
@[simp] theorem State.placeAtFetch_lastCount (s : State) (bs : List Byte) : (s.placeAtFetch bs).lastCount = s.lastCount := rfl
@[simp] theorem State.placeAtFetch_cmdCount (s : State) (bs : List Byte) : (s.placeAtFetch bs).cmdCount = s.cmdCount := rfl
@[simp] theorem State.placeAtFetch_errCode (s : State) (bs : List Byte) : (s.placeAtFetch bs).errCode = s.errCode := rfl
@[simp] theorem State.placeAtFetch_errCp (s : State) (bs : List Byte) : (s.placeAtFetch bs).errCp = s.errCp := rfl
@[simp] theorem State.placeAtFetch_errInfo (s : State) (bs : List Byte) : (s.placeAtFetch bs).errInfo = s.errInfo := rfl
@[simp] theorem State.placeAtFetch_irqEn (s : State) (bs : List Byte) : (s.placeAtFetch bs).irqEn = s.irqEn := rfl
@[simp] theorem State.placeAtFetch_irqStatus (s : State) (bs : List Byte) : (s.placeAtFetch bs).irqStatus = s.irqStatus := rfl
@[simp] theorem State.placeAtFetch_buf (s : State) (bs : List Byte) : (s.placeAtFetch bs).buf = s.buf.writeBytes s.cp.toNat bs := rfl
@[simp] theorem State.placeAtFetch_params (s : State) (bs : List Byte) : (s.placeAtFetch bs).params = s.params := rfl
@[simp] theorem State.placeAtFetch_inbox (s : State) (bs : List Byte) : (s.placeAtFetch bs).inbox = [] := rfl
@[simp] theorem State.placeAtFetch_hostResp (s : State) (bs : List Byte) : (s.placeAtFetch bs).hostResp = s.hostResp := rfl
@[simp] theorem State.placeAtFetch_freeIdx (s : State) (bs : List Byte) : (s.placeAtFetch bs).freeIdx = s.freeIdx := rfl

/-! ### The conditional updates -/

/-- CLEAR either leaves the state or takes ERROR to IDLE. -/
theorem State.clearError_eq (s : State) :
    s.clearError = if s.engState = .error then { s with engState := .idle } else s := by
  unfold State.clearError
  cases h : s.engState <;> simp

/-- START takes IDLE to BUSY and is otherwise only noted in IGN. -/
theorem State.start_eq (s : State) :
    s.start = if s.engState = .idle then { s with engState := .busy } else s.pend irqIgn := by
  unfold State.start
  cases h : s.engState <;> simp

/-- A locked write happens unless BUSY, where it is only noted in IGN. -/
theorem State.lockedWrite_eq (s t : State) :
    s.lockedWrite t = if s.engState = .busy then s.pend irqIgn else t := by
  unfold State.lockedWrite
  cases h : s.engState <;> simp

/-- The NPD update changes nothing but IRQ_STATUS. -/
theorem State.pendNpd_eq (s : State) (invs : List LaneInverse) :
    s.pendNpd invs = { s with irqStatus := if invs.any (·.npd) then s.irqStatus ||| irqNpd else s.irqStatus } := by
  unfold State.pendNpd
  split <;> rfl

end Sys2Proof.Machine
end

