-- ==== Sys2Proof/Laws/Memory.lean ====
section
/-! SUPPORT. The laws of BUF: what a read gives after a write, and that every memory operation keeps the
canonical form. -/

namespace Sys2Proof.Machine

/-! ### Reading lists of cells -/

@[simp] theorem Memory.readByte_nil (x : Nat) : Memory.readByte [] x = none := rfl

theorem Memory.readByte_cons (k : Nat) (b : Byte) (m : Memory) (x : Nat) :
    Memory.readByte ((k, b) :: m) x = if k = x then some b else Memory.readByte m x := rfl

theorem Memory.readByte_append (m m' : Memory) (x : Nat) :
    Memory.readByte (m ++ m') x = (Memory.readByte m x).or (Memory.readByte m' x) := by
  induction m with
  | nil => simp
  | cons c m ih =>
    obtain ⟨k, b⟩ := c
    simp only [List.cons_append, Memory.readByte_cons, ih]
    split <;> simp

theorem Memory.readByte_filter (p : Nat → Bool) (m : Memory) (x : Nat) :
    Memory.readByte (m.filter fun c => p c.1) x = if p x then Memory.readByte m x else none := by
  induction m with
  | nil => simp
  | cons c m ih =>
    obtain ⟨k, b⟩ := c
    by_cases hk : k = x
    · subst hk
      cases hp : p k <;> simp [hp, Memory.readByte_cons, ih]
    · cases hp : p k <;> simp [hp, Memory.readByte_cons, ih, hk]

/-- A listed offset reads as a value, an unlisted one as none. -/
theorem Memory.readByte_eq_none_iff (m : Memory) (x : Nat) :
    m.readByte x = none ↔ ∀ c ∈ m, c.1 ≠ x := by
  induction m with
  | nil => simp
  | cons c m ih =>
    obtain ⟨k, b⟩ := c
    by_cases hk : k = x <;> simp [Memory.readByte_cons, hk, ih]

@[simp] theorem cellsFrom_nil (a : Nat) : cellsFrom a [] = [] := rfl

theorem readByte_cellsFrom (a : Nat) (bs : List Byte) (x : Nat) :
    Memory.readByte (cellsFrom a bs) x = if a ≤ x then bs[x - a]? else none := by
  induction bs generalizing a with
  | nil => simp [cellsFrom]
  | cons b bs ih =>
    simp only [cellsFrom, Memory.readByte_cons, ih]
    rcases Nat.lt_trichotomy a x with h | h | h
    · have h1 : a ≠ x := by omega
      have h2 : x - a = (x - (a + 1)) + 1 := by omega
      simp [h1, Nat.le_of_lt h, Nat.succ_le_of_lt h, h2]
    · subst h; simp
    · have h1 : a ≠ x := by omega
      simp [h1, Nat.not_le.mpr h, show ¬ a + 1 ≤ x by omega]

theorem mem_cellsFrom {a : Nat} {bs : List Byte} {c : Host.Cell} (h : c ∈ cellsFrom a bs) :
    a ≤ c.1 ∧ c.1 < a + bs.length := by
  induction bs generalizing a with
  | nil => simp at h
  | cons b bs ih =>
    rcases List.mem_cons.mp h with rfl | h
    · simp
    · have := ih h
      simp only [List.length_cons]
      omega

/-! ### Reading after a write -/

/-- What BUF holds after a write: the written bytes in their run, everything else as before
(20_memory.md R79, R83). -/
theorem Memory.readByte_writeBytes (m : Memory) (a : Nat) (bs : List Byte) (x : Nat) :
    (m.writeBytes a bs).readByte x
      = if a ≤ x ∧ x < a + bs.length then bs[x - a]? else m.readByte x := by
  unfold Memory.writeBytes
  split
  · rename_i h
    subst h
    rw [if_neg (by simp)]
  rw [Memory.readByte_append, Memory.readByte_append,
    Memory.readByte_filter (fun k => decide (k < a)),
    Memory.readByte_filter (fun k => decide (a + bs.length ≤ k)), readByte_cellsFrom]
  by_cases h1 : x < a
  · simp [h1, show ¬ a ≤ x by omega, show ¬ a + bs.length ≤ x by omega]
  · by_cases h2 : x < a + bs.length
    · simp [h1, h2, show a ≤ x by omega, show ¬ a + bs.length ≤ x by omega]
    · have : bs[x - a]? = none := by simp; omega
      simp [h1, h2, show a ≤ x by omega, show a + bs.length ≤ x by omega, this]

/-- The empty run writes nothing. -/
@[simp] theorem Memory.writeBytes_nil (m : Memory) (a : Nat) : m.writeBytes a [] = m := rfl

/-- A byte inside a written run. -/
theorem Memory.readByte_writeBytes_inside (m : Memory) (a : Nat) (bs : List Byte) (j : Nat)
    (h : j < bs.length) : (m.writeBytes a bs).readByte (a + j) = some bs[j] := by
  rw [Memory.readByte_writeBytes, if_pos (by omega)]
  simp [h]

/-- A byte outside a written run. -/
theorem Memory.readByte_writeBytes_outside (m : Memory) (a : Nat) (bs : List Byte) (x : Nat)
    (h : x < a ∨ a + bs.length ≤ x) : (m.writeBytes a bs).readByte x = m.readByte x := by
  rw [Memory.readByte_writeBytes, if_neg (by omega)]

/-! ### The canonical form -/

theorem cellsFrom_wf (a : Nat) (bs : List Byte) : Memory.wf (cellsFrom a bs) := by
  induction bs generalizing a with
  | nil => exact List.Pairwise.nil
  | cons b bs ih =>
    refine List.Pairwise.cons (fun c hc => ?_) (ih (a + 1))
    have := mem_cellsFrom hc
    simp only
    omega

/-- Every write keeps the canonical form. -/
theorem Memory.writeBytes_wf {m : Memory} (a : Nat) (bs : List Byte) (h : m.wf) :
    (m.writeBytes a bs).wf := by
  unfold Memory.writeBytes Memory.wf
  split
  · exact h
  refine List.pairwise_append.mpr ⟨List.pairwise_append.mpr
    ⟨List.Pairwise.filter _ h, cellsFrom_wf a bs, ?_⟩, List.Pairwise.filter _ h, ?_⟩
  · intro c hc d hd
    have h1 := (List.mem_filter.mp hc).2
    have h2 := mem_cellsFrom hd
    simp only [decide_eq_true_eq] at h1
    omega
  · intro c hc d hd
    have h2 := (List.mem_filter.mp hd).2
    simp only [decide_eq_true_eq] at h2
    rcases List.mem_append.mp hc with hc | hc
    · have h1 := (List.mem_filter.mp hc).2
      simp only [decide_eq_true_eq] at h1
      omega
    · have h1 := mem_cellsFrom hc
      omega

/-- A write of a run that lies inside BUF keeps every byte inside it; the empty run does so anywhere. -/
theorem Memory.writeBytes_within {m : Memory} {n : Nat} (a : Nat) (bs : List Byte) (h : m.within n)
    (hr : bs ≠ [] → a + bs.length ≤ n) : (m.writeBytes a bs).within n := by
  intro c hc
  unfold Memory.writeBytes at hc
  split at hc
  · exact h c hc
  rcases List.mem_append.mp hc with hc | hc
  · rcases List.mem_append.mp hc with hc | hc
    · exact h c (List.mem_filter.mp hc).1
    · have h1 := mem_cellsFrom hc
      have h2 : bs ≠ [] := by rintro rfl; simp at hc
      have := hr h2
      omega
  · exact h c (List.mem_filter.mp hc).1

/-- Reset's memory has the canonical form. -/
theorem State.reset_buf_wf : State.reset.buf.wf := List.Pairwise.nil

/-- Memories in canonical form that read alike are equal lists. -/
theorem Memory.ext_of_readByte {m m' : Memory} (h : m.wf) (h' : m'.wf)
    (hr : ∀ x, m.readByte x = m'.readByte x) : m = m' := by
  induction m generalizing m' with
  | nil =>
    cases m' with
    | nil => rfl
    | cons c m' =>
      obtain ⟨k, b⟩ := c
      have := hr k
      simp [Memory.readByte_cons] at this
  | cons c m ih =>
    obtain ⟨k, b⟩ := c
    cases m' with
    | nil =>
      have := hr k
      simp [Memory.readByte_cons] at this
    | cons c' m' =>
      obtain ⟨k', b'⟩ := c'
      have hm := List.pairwise_cons.mp h
      have hm' := List.pairwise_cons.mp h'
      have key : ∀ {n : Memory} {j : Nat}, (∀ d ∈ n, j < d.1) → ∀ x ≤ j, n.readByte x = none := by
        intro n j hn x hx
        rw [Memory.readByte_eq_none_iff]
        intro d hd
        have := hn d hd
        omega
      have hk : k = k' := by
        rcases Nat.lt_trichotomy k k' with hlt | heq | hlt
        · have h1 := hr k
          rw [Memory.readByte_cons, Memory.readByte_cons, if_pos rfl, if_neg (by omega),
            key (fun d hd => hm'.1 d hd) k (by omega)] at h1
          cases h1
        · exact heq
        · have h1 := hr k'
          rw [Memory.readByte_cons, Memory.readByte_cons, if_pos rfl, if_neg (by omega),
            key (fun d hd => hm.1 d hd) k' (by omega)] at h1
          cases h1
      subst hk
      have hb : b = b' := by simpa [Memory.readByte_cons] using hr k
      subst hb
      have : m = m' := by
        refine ih hm.2 hm'.2 fun x => ?_
        have h1 := hr x
        simp only [Memory.readByte_cons] at h1
        by_cases hx : k = x
        · subst hx
          rw [key (fun d hd => hm.1 d hd) k (by omega), key (fun d hd => hm'.1 d hd) k (by omega)]
        · simpa [hx] using h1
      rw [this]

/-! ### Reading runs of bytes -/

/-- `readAll` gives a list exactly when it lists all the values in order. -/
theorem readAll_eq_some_iff {α : Type} (f : Nat → Option α) (n : Nat) (xs : List α) :
    readAll f n = some xs ↔ xs.length = n ∧ ∀ i < n, f i = xs[i]? := by
  induction n generalizing xs with
  | zero =>
    cases xs <;> simp [readAll]
  | succ n ih =>
    constructor
    · intro h
      simp only [readAll] at h
      split at h
      · rename_i ys y hys hy
        cases h
        obtain ⟨hl, hf⟩ := (ih ys).mp hys
        refine ⟨by simp [hl], fun i hi => ?_⟩
        by_cases h2 : i < n
        · rw [hf i h2, List.getElem?_append_left (by omega)]
        · obtain rfl : i = n := by omega
          rw [hy, List.getElem?_append_right (by omega), hl]
          simp
      · cases h
    · rintro ⟨hl, hf⟩
      have hne : xs ≠ [] := by rintro rfl; simp at hl
      obtain ⟨ys, y, rfl⟩ : ∃ ys y, xs = ys ++ [y] :=
        ⟨xs.dropLast, xs.getLast hne, (List.dropLast_append_getLast hne).symm⟩
      have hl' : ys.length = n := by simpa using hl
      have h1 : readAll f n = some ys := (ih ys).mpr ⟨hl', fun i hi => by
        rw [hf i (by omega), List.getElem?_append_left (by omega)]⟩
      have h2 : f n = some y := by
        rw [hf n (by omega), List.getElem?_append_right (by omega), hl']
        simp
      simp [readAll, h1, h2]

/-- `readAll` succeeds exactly when every value is there. -/
theorem readAll_ne_none_iff {α : Type} (f : Nat → Option α) (n : Nat) :
    readAll f n ≠ none ↔ ∀ i < n, f i ≠ none := by
  induction n with
  | zero => simp [readAll]
  | succ n ih =>
    constructor
    · intro h i hi
      simp only [readAll] at h
      split at h
      · rename_i ys y hys hy
        by_cases h2 : i < n
        · exact ih.mp (by simp [hys]) i h2
        · obtain rfl : i = n := by omega
          simp [hy]
      · exact absurd rfl h
    · intro h
      have h1 := ih.mpr fun i hi => h i (by omega)
      have h2 := h n (by omega)
      obtain ⟨ys, hys⟩ := Option.ne_none_iff_exists'.mp h1
      obtain ⟨y, hy⟩ := Option.ne_none_iff_exists'.mp h2
      simp [readAll, hys, hy]

/-- `readAll` depends only on the values it reads. -/
theorem readAll_congr {α : Type} {f g : Nat → Option α} {n : Nat} (h : ∀ i < n, f i = g i) :
    readAll f n = readAll g n := by
  induction n with
  | zero => rfl
  | succ n ih => simp only [readAll]; rw [ih fun i hi => h i (by omega), h n (by omega)]

/-- A read of `n` bytes has a value exactly when the bytes are initialised. -/
theorem Memory.memRead_ne_none_iff (m : Memory) (a n : Nat) :
    m.memRead a n ≠ none ↔ m.initialised a n := by
  unfold Memory.memRead Memory.readBytes
  rw [ne_eq, Option.map_eq_none_iff, ← ne_eq, readAll_ne_none_iff]

theorem Memory.readHalf_ne_none_iff (m : Memory) (a : Nat) :
    m.readHalf a ≠ none ↔ m.initialised a 2 := by
  unfold Memory.readHalf
  rw [ne_eq, Option.map_eq_none_iff, ← ne_eq, Memory.memRead_ne_none_iff]

theorem Memory.readWord_ne_none_iff (m : Memory) (a : Nat) :
    m.readWord a ≠ none ↔ m.initialised a 4 := by
  unfold Memory.readWord
  rw [ne_eq, Option.map_eq_none_iff, ← ne_eq, Memory.memRead_ne_none_iff]

/-- Memories that agree on a run read alike there. -/
theorem Memory.memRead_congr {m m' : Memory} {a n : Nat} (h : m.agree m' a n) :
    m.memRead a n = m'.memRead a n := by
  unfold Memory.memRead Memory.readBytes
  rw [readAll_congr h]

end Sys2Proof.Machine
end

