-- ==== Sys2Proof/Laws/Ops.lean ====
section
/-! SUPPORT. One lemma per shared operation that says once everything it can do: error entry, the range
checks, the operand reads, the demap body, CHOLINV, fetch, the ENGINE step. -/

namespace Sys2Proof.Machine

/-! ### Answers -/

/-- `raise` always answers with error entry. -/
theorem raise_eq_next_iff (e : ErrorCode) (w : Word) (s t : State) :
    raise e w s = .next t ↔ t = s.enterError e w := by
  constructor
  · intro h; cases h; rfl
  · rintro rfl; rfl

/-- Error numbers are 1 to 5 (60_exceptions.md R260). -/
theorem errorNumber_range (e : ErrorCode) : 1 ≤ (errorNumber e).toNat ∧ (errorNumber e).toNat ≤ 5 := by
  cases e <;> decide

theorem errorNumber_ne_zero (e : ErrorCode) : errorNumber e ≠ 0 := by
  cases e <;> decide

/-! ### Range checks (60_exceptions.md R263) -/

theorem State.firstOutside_eq_none_iff (s : State) (rs : List (Word × Nat)) :
    s.firstOutside rs = none ↔ ∀ r ∈ rs, s.inRange r.1 r.2 := by
  induction rs with
  | nil => simp [State.firstOutside]
  | cons r rs ih =>
    obtain ⟨b, n⟩ := r
    by_cases h : s.inRange b n <;> simp [State.firstOutside, h, ih]

/-- The base reported is that of a region out of range, with every earlier region in range. -/
theorem State.firstOutside_eq_some (s : State) (rs : List (Word × Nat)) (b : Word)
    (h : s.firstOutside rs = some b) :
    ∃ pre n post, rs = pre ++ (b, n) :: post ∧ ¬ s.inRange b n ∧ ∀ r ∈ pre, s.inRange r.1 r.2 := by
  induction rs with
  | nil => cases h
  | cons r rs ih =>
    obtain ⟨c, n⟩ := r
    simp only [State.firstOutside] at h
    split at h
    · rename_i hc
      obtain ⟨pre, k, post, rfl, hb, hp⟩ := ih h
      exact ⟨(c, n) :: pre, k, post, rfl, hb, by simpa [hc] using hp⟩
    · rename_i hc
      cases h
      exact ⟨[], n, rs, rfl, hc, by simp⟩

/-! ### Demap operands -/

theorem readLane_ne_none_iff (m : Memory) (sym beta winv : Word) (l i : Nat) :
    readLane m sym beta winv l i ≠ none ↔
      m.initialised (sym.toNat + 64 * l + 4 * i) 4 ∧ m.initialised (beta.toNat + 32 * l + 2 * i) 2 ∧
        m.initialised (winv.toNat + 32 * l + 2 * i) 2 := by
  have h1 := m.readHalf_ne_none_iff (sym.toNat + 64 * l + 4 * i)
  have h2 := m.readHalf_ne_none_iff (sym.toNat + 64 * l + 4 * i + 2)
  have h3 := m.readHalf_ne_none_iff (beta.toNat + 32 * l + 2 * i)
  have h4 := m.readHalf_ne_none_iff (winv.toNat + 32 * l + 2 * i)
  have h5 : m.initialised (sym.toNat + 64 * l + 4 * i) 4 ↔
      m.initialised (sym.toNat + 64 * l + 4 * i) 2 ∧ m.initialised (sym.toNat + 64 * l + 4 * i + 2) 2 := by
    constructor
    · intro h
      refine ⟨fun j hj => h j (by omega), fun j hj => ?_⟩
      have := h (2 + j) (by omega)
      rwa [show sym.toNat + 64 * l + 4 * i + 2 + j = sym.toNat + 64 * l + 4 * i + (2 + j) by omega]
    · rintro ⟨ha, hb⟩ j hj
      by_cases hj2 : j < 2
      · exact ha j hj2
      · have := hb (j - 2) (by omega)
        rwa [show sym.toNat + 64 * l + 4 * i + 2 + (j - 2) = sym.toNat + 64 * l + 4 * i + j by omega] at this
  rw [h5, ← h1, ← h2, ← h3, ← h4]
  unfold readLane
  generalize m.readHalf (sym.toNat + 64 * l + 4 * i) = a
  generalize m.readHalf (sym.toNat + 64 * l + 4 * i + 2) = b
  generalize m.readHalf (beta.toNat + 32 * l + 2 * i) = c
  generalize m.readHalf (winv.toNat + 32 * l + 2 * i) = d
  cases a <;> cases b <;> cases c <;> cases d <;> simp

/-- The whole batch reads exactly when its read set is initialised (41_llr_demap.md R170). -/
theorem readBatch_ne_none_iff (m : Memory) (sym beta winv : Word) (lyr : Layers) (nsc : Subcarriers) :
    readBatch m sym beta winv lyr nsc ≠ none ↔ batchInitialised m sym beta winv lyr nsc := by
  unfold readBatch
  rw [readAll_ne_none_iff]
  refine forall_congr' fun l => imp_congr_right fun _ => ?_
  rw [readAll_ne_none_iff]
  constructor
  · intro h
    have h' := fun i hi => (readLane_ne_none_iff m sym beta winv l i).mp (h i hi)
    refine ⟨fun j hj => ?_, fun j hj => ?_, fun j hj => ?_⟩
    · have := (h' (j / 4) (by omega)).1 (j % 4) (by omega)
      rwa [show sym.toNat + 64 * l + 4 * (j / 4) + j % 4 = sym.toNat + 64 * l + j by omega] at this
    · have := (h' (j / 2) (by omega)).2.1 (j % 2) (by omega)
      rwa [show beta.toNat + 32 * l + 2 * (j / 2) + j % 2 = beta.toNat + 32 * l + j by omega] at this
    · have := (h' (j / 2) (by omega)).2.2 (j % 2) (by omega)
      rwa [show winv.toNat + 32 * l + 2 * (j / 2) + j % 2 = winv.toNat + 32 * l + j by omega] at this
  · rintro ⟨hs, hb, hw⟩ i hi
    refine (readLane_ne_none_iff m sym beta winv l i).mpr ⟨fun j hj => ?_, fun j hj => ?_, fun j hj => ?_⟩
    · have := hs (4 * i + j) (by omega)
      rwa [show sym.toNat + 64 * l + (4 * i + j) = sym.toNat + 64 * l + 4 * i + j by omega] at this
    · have := hb (2 * i + j) (by omega)
      rwa [show beta.toNat + 32 * l + (2 * i + j) = beta.toNat + 32 * l + 2 * i + j by omega] at this
    · have := hw (2 * i + j) (by omega)
      rwa [show winv.toNat + 32 * l + (2 * i + j) = winv.toNat + 32 * l + 2 * i + j by omega] at this

/-- A batch that was read holds, lane by lane, what the lane reads give. -/
theorem laneOf_readBatch {m : Memory} {sym beta winv : Word} {lyr : Layers} {nsc : Subcarriers}
    {batch : List (List LaneInput)} (h : readBatch m sym beta winv lyr nsc = some batch) {l i : Nat}
    (hl : l < layerCount lyr) (hi : i < subcarrierCount nsc) :
    readLane m sym beta winv l i = some (laneOf batch l i) := by
  obtain ⟨h1, h2⟩ := (readAll_eq_some_iff _ _ _).mp h
  have h3 := h2 l hl
  have hb : batch[l]? = some batch[l] := by simp
  rw [hb] at h3
  obtain ⟨h4, h5⟩ := (readAll_eq_some_iff _ _ _).mp h3
  have h6 := h5 i hi
  have hi' : i < batch[l].length := by omega
  rw [h6]
  simp [laneOf, hb, hi']

/-! ### Lengths -/

@[simp] theorem llrBytes_length (order : Modulation) (cfg : LlrConfig) (x : LaneInput) :
    (llrBytes order cfg x).length = bitsPerSymbol order := by
  cases order <;> rfl

theorem length_flatMap_const {α β : Type} (xs : List α) (f : α → List β) (n : Nat)
    (h : ∀ x ∈ xs, (f x).length = n) : (xs.flatMap f).length = xs.length * n := by
  induction xs with
  | nil => simp
  | cons x xs ih =>
    rw [List.flatMap_cons, List.length_append, h x (by simp), ih fun y hy => h y (by simp [hy]),
      List.length_cons]
    ring

/-- The bit-count law (41_llr_demap.md R170): the output has `llrCount` bytes. -/
@[simp] theorem llrOutput_length (order : Modulation) (cfg : LlrConfig) (lyr : Layers) (sel : List Nat)
    (batch : List (List LaneInput)) :
    (llrOutput order cfg lyr sel batch).length = llrCount order lyr sel := by
  unfold llrOutput llrCount
  rw [length_flatMap_const _ _ (layerCount lyr * bitsPerSymbol order) fun i _ => by
    rw [length_flatMap_const _ _ (bitsPerSymbol order) fun l _ => by simp]
    simp]
  ring

theorem lanesOf_length_le (mask : BitVec 16) : (lanesOf mask).length ≤ 16 := by
  unfold lanesOf
  exact (List.length_filter_le _ _).trans (by simp [lanes])

theorem allLanes_length_le (nsc : Subcarriers) : (allLanes nsc).length ≤ 16 := by
  cases nsc <;> decide

theorem dmrsLanes_length_le (p : Config.Params) (nsc : Subcarriers) (t : DmrsType) (c : CdmGroups)
    (q : PortParity) : (dmrsLanes p nsc t c q).length ≤ 16 := lanesOf_length_le _

/-- A demap command writes at most 256 bytes (10_state.md R41). -/
theorem llrCount_le (order : Modulation) (lyr : Layers) (sel : List Nat) (h : sel.length ≤ 16) :
    llrCount order lyr sel ≤ 256 := by
  unfold llrCount
  have h1 : layerCount lyr ≤ 2 := by cases lyr <;> decide
  have h2 : bitsPerSymbol order ≤ 8 := by cases order <;> decide
  calc sel.length * layerCount lyr * bitsPerSymbol order ≤ 16 * 2 * 8 :=
        Nat.mul_le_mul (Nat.mul_le_mul h h1) h2
    _ = 256 := rfl

@[simp] theorem leBytes_length (n v : Nat) : (leBytes n v).length = n := by
  induction n generalizing v with
  | zero => rfl
  | succ n ih => simp [leBytes, ih]

/-- The output grids of 16 lanes have 128·n² bytes (43_cholesky.md R231). -/
theorem gridOutput_length (n : Nat) (invs : List LaneInverse) (h : invs.length = lanes) :
    (gridOutput n invs).length = gridBytes n := by
  unfold gridOutput gridBytes
  rw [length_flatMap_const _ _ (n * (n * (lanes * 4))) fun p _ => by
    rw [length_flatMap_const _ _ (n * (lanes * 4)) fun r _ => by
      rw [length_flatMap_const _ _ (lanes * 4) fun c _ => by
        rw [length_flatMap_const _ _ 4 fun x _ => by simp, h]]
      simp]
    simp]
  simp only [List.length_range, lanes]
  ring

/-! ### The demap body (41_llr_demap.md R172, 42_dmrs_demap.md R207) -/

theorem State.demapError_eq_none_iff (s : State) (order : Modulation) (w0 : Word) (lyr : Layers)
    (nsc : Subcarriers) (sel : List Nat) (sym beta winv : Word) :
    s.demapError order w0 lyr nsc sel sym beta winv = none ↔
      s.low.toInt ≤ s.high.toInt ∧
        ∀ r ∈ s.demapRegions order lyr nsc sel sym beta winv, s.inRange r.1 r.2 := by
  unfold State.demapError
  rw [← State.firstOutside_eq_none_iff]
  by_cases h : s.high.toInt < s.low.toInt
  · rw [if_pos h]
    constructor
    · intro h'; cases h'
    · intro h'; omega
  · rw [if_neg h]
    cases s.firstOutside (s.demapRegions order lyr nsc sel sym beta winv) with
    | none => simp only [and_true, true_iff]; omega
    | some b => simp

/-- Everything the demap body can answer. -/
theorem demapOver_cases {order : Modulation} {w0 : Word} {lyr : Layers} {nsc : Subcarriers}
    {sel : List Nat} {sym beta winv : Word} {s t : State}
    (h : demapOver order w0 lyr nsc sel sym beta winv s = .next t) :
    (∃ e w, s.demapError order w0 lyr nsc sel sym beta winv = some (e, w) ∧ t = s.enterError e w) ∨
      (s.demapError order w0 lyr nsc sel sym beta winv = none ∧
        ∃ batch, readBatch s.buf sym beta winv lyr nsc = some batch ∧
          t = ((s.writeBuf s.outp.toNat (llrOutput order s.llrConfig lyr sel batch)).advanceOut
            (llrCount order lyr sel)).advance) := by
  unfold demapOver at h
  split at h
  · rename_i e w he
    exact .inl ⟨e, w, he, (raise_eq_next_iff _ _ _ _).mp h⟩
  · rename_i he
    split at h
    · cases h
    · rename_i batch hb
      cases h
      exact .inr ⟨he, batch, hb, rfl⟩

/-- Where the demap body completes. -/
theorem demapOver_completes {order : Modulation} {w0 : Word} {lyr : Layers} {nsc : Subcarriers}
    {sel : List Nat} {sym beta winv : Word} {s : State}
    (he : s.demapError order w0 lyr nsc sel sym beta winv = none) {batch : List (List LaneInput)}
    (hb : readBatch s.buf sym beta winv lyr nsc = some batch) :
    demapOver order w0 lyr nsc sel sym beta winv s =
      .next ((s.writeBuf s.outp.toNat (llrOutput order s.llrConfig lyr sel batch)).advanceOut
        (llrCount order lyr sel)).advance := by
  simp [demapOver, he, hb]

/-- Where the demap body raises. -/
theorem demapOver_raises {order : Modulation} {w0 : Word} {lyr : Layers} {nsc : Subcarriers}
    {sel : List Nat} {sym beta winv : Word} {s : State} {e : ErrorCode} {w : Word}
    (he : s.demapError order w0 lyr nsc sel sym beta winv = some (e, w)) :
    demapOver order w0 lyr nsc sel sym beta winv s = .next (s.enterError e w) := by
  simp [demapOver, he, raise]

/-- Every DEMAP command is the demap body over all lanes. -/
theorem exec_demapInstr (order : Modulation) (lyr : Layers) (nsc : Subcarriers) (sym beta winv : Word)
    (s : State) :
    exec (demapInstr order lyr nsc sym beta winv) s =
      demapOver order (w0Demap order lyr nsc) lyr nsc (allLanes nsc) sym beta winv s := by
  cases order <;> rfl

/-- Every DEMAP_DMRS command is the demap body over the selected lanes. -/
theorem exec_dmrsInstr (order : Modulation) (lyr : Layers) (nsc : Subcarriers) (t : DmrsType)
    (c : CdmGroups) (p : PortParity) (sym beta winv : Word) (s : State) :
    exec (dmrsInstr order lyr nsc t c p sym beta winv) s =
      demapOver order (w0Dmrs order lyr nsc t c p) lyr nsc (dmrsLanes s.params nsc t c p) sym beta winv s := by
  cases order <;> rfl

/-! ### CHOLINV (43_cholesky.md R242) -/

theorem readElem_ne_none_iff (m : Memory) (src n r c k : Nat) :
    readElem m src n r c k ≠ none ↔ ∀ p < 2, m.initialised (elemAddr src n p r c k) 4 := by
  have h0 := m.readWord_ne_none_iff (elemAddr src n 0 r c k)
  have h1 := m.readWord_ne_none_iff (elemAddr src n 1 r c k)
  have h2 : (∀ p < 2, m.initialised (elemAddr src n p r c k) 4) ↔
      m.initialised (elemAddr src n 0 r c k) 4 ∧ m.initialised (elemAddr src n 1 r c k) 4 :=
    ⟨fun h => ⟨h 0 (by omega), h 1 (by omega)⟩, fun h p hp => by
      rcases (by omega : p = 0 ∨ p = 1) with rfl | rfl
      · exact h.1
      · exact h.2⟩
  rw [h2, ← h0, ← h1]
  unfold readElem
  generalize m.readWord (elemAddr src n 0 r c k) = a
  generalize m.readWord (elemAddr src n 1 r c k) = b
  cases a <;> cases b <;> simp

/-- The grids read exactly when the read set is initialised (43_cholesky.md R231). -/
theorem readGrids_ne_none_iff (m : Memory) (src n : Nat) :
    readGrids m src n ≠ none ↔ gridInitialised m src n := by
  unfold readGrids readLower
  rw [readAll_ne_none_iff]
  constructor
  · intro h p hp r hr c hc k hk
    have h1 := (readAll_ne_none_iff _ _).mp (h k hk) r hr
    have h2 := (readAll_ne_none_iff _ _).mp h1 c (by omega)
    exact (readElem_ne_none_iff m src n r c k).mp h2 p hp
  · intro h k hk
    refine (readAll_ne_none_iff _ _).mpr fun r hr => (readAll_ne_none_iff _ _).mpr fun c hc => ?_
    exact (readElem_ne_none_iff m src n r c k).mpr fun p hp => h p hp r hr c (by omega) k hk

/-- Grids that were read are 16 lanes. -/
theorem readGrids_length {m : Memory} {src n : Nat} {grids : List (List (List Cplx))}
    (h : readGrids m src n = some grids) : grids.length = lanes :=
  ((readAll_eq_some_iff _ _ _).mp h).1

@[simp] theorem State.laneInverses_length (s : State) (n : Nat) (grids : List (List (List Cplx))) :
    (s.laneInverses n grids).length = grids.length := by
  simp [State.laneInverses]

theorem State.cholinvError_eq_none_iff (s : State) (n : BitVec 5) (src dst : Word) :
    s.cholinvError n src dst = none ↔
      legalSize n ∧ s.inRange src (gridBytes n.toNat) ∧ s.inRange dst (gridBytes n.toNat) := by
  unfold State.cholinvError
  by_cases hn : legalSize n
  · rw [if_pos hn]
    have h := s.firstOutside_eq_none_iff [(src, gridBytes n.toNat), (dst, gridBytes n.toNat)]
    cases hf : s.firstOutside [(src, gridBytes n.toNat), (dst, gridBytes n.toNat)] with
    | none =>
      have h' := h.mp hf
      simp only [true_iff]
      exact ⟨hn, h' (src, gridBytes n.toNat) (by simp), h' (dst, gridBytes n.toNat) (by simp)⟩
    | some b =>
      simp only [hf, reduceCtorEq, List.mem_cons, List.not_mem_nil, or_false, forall_eq_or_imp,
        forall_eq, false_iff] at h
      simpa [hn] using h
  · rw [if_neg hn]
    simp [hn]

/-- Everything CHOLINV can answer. -/
theorem execCholinv_cases {n : BitVec 5} {src dst : Word} {s t : State}
    (h : execCholinv n src dst s = .next t) :
    (∃ e w, s.cholinvError n src dst = some (e, w) ∧ t = s.enterError e w) ∨
      (s.cholinvError n src dst = none ∧
        ∃ grids, readGrids s.buf src.toNat n.toNat = some grids ∧
          t = ((s.writeBuf dst.toNat (gridOutput n.toNat (s.laneInverses n.toNat grids))).pendNpd
            (s.laneInverses n.toNat grids)).advance) := by
  unfold execCholinv at h
  split at h
  · rename_i e w he
    exact .inl ⟨e, w, he, (raise_eq_next_iff _ _ _ _).mp h⟩
  · rename_i he
    split at h
    · cases h
    · rename_i grids hg
      cases h
      exact .inr ⟨he, grids, hg, rfl⟩

/-- Where CHOLINV completes. -/
theorem execCholinv_completes {n : BitVec 5} {src dst : Word} {s : State}
    (he : s.cholinvError n src dst = none) {grids : List (List (List Cplx))}
    (hg : readGrids s.buf src.toNat n.toNat = some grids) :
    execCholinv n src dst s =
      .next ((s.writeBuf dst.toNat (gridOutput n.toNat (s.laneInverses n.toNat grids))).pendNpd
        (s.laneInverses n.toNat grids)).advance := by
  simp [execCholinv, he, hg]

/-! ### JUMP, fetch and the ENGINE -/

/-- Everything JUMP can answer (40_control.md R133). -/
theorem execJump_cases {a : Word} {s t : State} (h : execJump a s = .next t) :
    (¬ aligned16 a ∧ t = s.enterError .misaligned a) ∨ (aligned16 a ∧ t = s.complete a) := by
  unfold execJump at h
  split at h
  · rename_i ha
    exact .inl ⟨ha, (raise_eq_next_iff _ _ _ _).mp h⟩
  · rename_i ha
    cases h
    exact .inr ⟨by simpa [aligned16] using ha, rfl⟩

/-- Everything one ENGINE step can answer (40_control.md R130). -/
theorem engineStep_cases {s t : State} (h : engineStep s = .next t) :
    (∃ e w, t = s.enterError e w) ∨ ∃ d i, s.fetch = .ok d ∧ decodeWords d = .ok i ∧ exec i s = .next t := by
  unfold engineStep at h
  split at h
  · exact .inl ⟨_, _, (raise_eq_next_iff _ _ _ _).mp h⟩
  · cases h
  · rename_i d hd
    split at h
    · exact .inl ⟨_, _, (raise_eq_next_iff _ _ _ _).mp h⟩
    · rename_i i hi
      exact .inr ⟨d, i, hd, hi, h⟩

/-- Everything the ENGINE's turn can answer. -/
theorem engineTurn_cases {s t : State} (h : engineTurn s = .next t) :
    (s.engState ≠ .busy ∧ t = s) ∨ (s.engState = .busy ∧ engineStep s = .next t) := by
  unfold engineTurn at h
  split at h
  · rename_i hb
    exact .inr ⟨hb, h⟩
  · rename_i hb
    cases h
    exact .inl ⟨by simp [hb], rfl⟩
  · rename_i hb
    cases h
    exact .inl ⟨by simp [hb], rfl⟩

/-- Interrupting a command changes nothing, or gives the command's write set free bytes. -/
theorem State.interrupted_cases (s : State) (d : Descriptor) :
    s.interrupted d = s ∨
      ∃ i, decodeWords d = .ok i ∧ s.interrupted d = s.scramble (s.writeSet i).1 (s.writeSet i).2 := by
  unfold State.interrupted
  split
  · exact .inl rfl
  · rename_i i hi
    exact .inr ⟨i, hi, rfl⟩

/-- A soft reset always answers with a next state, one of these (70_reset_and_hazards.md R292, R293). -/
theorem softReset_cases (s : State) :
    softReset s = .next s.resetCsrs ∨
      (s.engState = .busy ∧ ∃ d, s.fetch = .ok d ∧ softReset s = .next (s.interrupted d).resetCsrs) ∨
      (s.engState = .busy ∧ s.fetch = .error .uninit ∧
        softReset s = .next ((s.drawn 16).interrupted s.freeDescriptor).resetCsrs) := by
  unfold softReset
  split
  · exact .inl rfl
  · exact .inl rfl
  · rename_i hb
    split
    · exact .inl rfl
    · rename_i hf
      exact .inr (.inr ⟨hb, hf, rfl⟩)
    · rename_i d hd
      exact .inr (.inl ⟨hb, d, hd, rfl⟩)

end Sys2Proof.Machine
end

