-- ==== Sys2Proof/Laws/Exec.lean ====
section
/-! SUPPORT. What a command can do, said once for all commands: error entry, or an end with everything outside
the command's own registers as it was. -/

namespace Sys2Proof.Machine

/-- What every command that completes leaves behind, whichever it is (40_control.md R130). -/
structure Completed (i : Instr) (s t : State) : Prop where
  cmdCount  : t.cmdCount = s.cmdCount + 1
  cp        : t.cp = s.cp + 16 ∨ ∃ a, i = .jump a ∧ aligned16 a ∧ t.cp = a
  engState  : t.engState = s.engState ∨ (i = .endList ∧ t.engState = .idle)
  errCode   : t.errCode = s.errCode
  errCp     : t.errCp = s.errCp
  errInfo   : t.errInfo = s.errInfo
  irqEn     : t.irqEn = s.irqEn
  irqStatus : t.irqStatus = s.irqStatus ∨ (i = .endList ∧ t.irqStatus = s.irqStatus ||| irqDone) ∨
    ((∃ n a b, i = .cholinv n a b) ∧ t.irqStatus = s.irqStatus ||| irqNpd)
  params    : t.params = s.params
  inbox     : t.inbox = s.inbox
  hostResp  : t.hostResp = s.hostResp
  freeIdx   : t.freeIdx = s.freeIdx
  lastCount : t.lastCount = s.lastCount ∨ ∃ n ≤ 256, t.lastCount = BitVec.ofNat 9 n
  buf       : ∃ a bs, (bs ≠ [] → a + bs.length ≤ s.params.bufBytes) ∧ t.buf = s.buf.writeBytes a bs

/-- The demap body's completed end. -/
theorem completed_demapOver {order : Modulation} {w0 : Word} {lyr : Layers} {nsc : Subcarriers}
    {sel : List Nat} {sym beta winv : Word} {s : State} (i : Instr) (hsel : sel.length ≤ 16)
    (he : s.demapError order w0 lyr nsc sel sym beta winv = none) (batch : List (List LaneInput)) :
    Completed i s ((s.writeBuf s.outp.toNat (llrOutput order s.llrConfig lyr sel batch)).advanceOut
      (llrCount order lyr sel)).advance where
  cmdCount := rfl
  cp := .inl rfl
  engState := .inl rfl
  errCode := rfl
  errCp := rfl
  errInfo := rfl
  irqEn := rfl
  irqStatus := .inl rfl
  params := rfl
  inbox := rfl
  hostResp := rfl
  freeIdx := rfl
  lastCount := .inr ⟨_, llrCount_le order lyr sel hsel, rfl⟩
  buf := by
    refine ⟨s.outp.toNat, llrOutput order s.llrConfig lyr sel batch, fun _ => ?_, rfl⟩
    have h := ((s.demapError_eq_none_iff _ _ _ _ _ _ _ _).mp he).2
      (s.outp, llrCount order lyr sel) (by simp [State.demapRegions])
    rw [llrOutput_length]
    exact h

/-- The same, as the case split of the demap body. -/
theorem demapOver_completed {order : Modulation} {w0 : Word} {lyr : Layers} {nsc : Subcarriers}
    {sel : List Nat} {sym beta winv : Word} {s t : State} (i : Instr) (hsel : sel.length ≤ 16)
    (h : demapOver order w0 lyr nsc sel sym beta winv s = .next t) :
    (∃ e w, t = s.enterError e w) ∨ Completed i s t := by
  rcases demapOver_cases h with ⟨e, w, -, rfl⟩ | ⟨he, batch, -, rfl⟩
  · exact .inl ⟨e, w, rfl⟩
  · exact .inr (completed_demapOver i hsel he batch)

/-- CHOLINV's completed end. -/
theorem execCholinv_completed {n : BitVec 5} {src dst : Word} {s t : State}
    (h : execCholinv n src dst s = .next t) :
    (∃ e w, t = s.enterError e w) ∨ Completed (.cholinv n src dst) s t := by
  rcases execCholinv_cases h with ⟨e, w, -, rfl⟩ | ⟨he, grids, hg, rfl⟩
  · exact .inl ⟨e, w, rfl⟩
  · refine .inr ?_
    rw [State.pendNpd_eq]
    refine ⟨rfl, .inl rfl, .inl rfl, rfl, rfl, rfl, rfl, ?_, rfl, rfl, rfl, rfl, .inl rfl, ?_⟩
    · simp only [State.advance_irqStatus, State.writeBuf_irqStatus]
      split
      · exact .inr (.inr ⟨⟨n, src, dst, rfl⟩, rfl⟩)
      · exact .inl rfl
    · refine ⟨dst.toNat, gridOutput n.toNat (s.laneInverses n.toNat grids), fun _ => ?_, rfl⟩
      rw [gridOutput_length _ _ (by rw [State.laneInverses_length, readGrids_length hg])]
      exact ((s.cholinvError_eq_none_iff _ _ _).mp he).2.2

/-- Everything a command can do (00_scope.md R13, 40_control.md R130). -/
theorem exec_cases {i : Instr} {s t : State} (h : exec i s = .next t) :
    (∃ e w, t = s.enterError e w) ∨ Completed i s t := by
  cases i with
  | nop =>
    cases h
    exact .inr ⟨rfl, .inl rfl, .inl rfl, rfl, rfl, rfl, rfl, .inl rfl, rfl, rfl, rfl, rfl, .inl rfl,
      0, [], by simp, rfl⟩
  | endList =>
    cases h
    exact .inr ⟨rfl, .inl rfl, .inr ⟨rfl, rfl⟩, rfl, rfl, rfl, rfl, .inr (.inl ⟨rfl, rfl⟩), rfl, rfl, rfl,
      rfl, .inl rfl, 0, [], by simp, rfl⟩
  | jump a =>
    rcases execJump_cases h with ⟨-, rfl⟩ | ⟨ha, rfl⟩
    · exact .inl ⟨_, _, rfl⟩
    · exact .inr ⟨rfl, .inr ⟨a, rfl, ha, rfl⟩, .inl rfl, rfl, rfl, rfl, rfl, .inl rfl, rfl, rfl, rfl, rfl,
        .inl rfl, 0, [], by simp, rfl⟩
  | setout a =>
    cases h
    exact .inr ⟨rfl, .inl rfl, .inl rfl, rfl, rfl, rfl, rfl, .inl rfl, rfl, rfl, rfl, rfl, .inl rfl,
      0, [], by simp, rfl⟩
  | config k lo hi =>
    cases h
    exact .inr ⟨rfl, .inl rfl, .inl rfl, rfl, rfl, rfl, rfl, .inl rfl, rfl, rfl, rfl, rfl, .inl rfl,
      0, [], by simp, rfl⟩
  | demapBpsk => exact demapOver_completed _ (allLanes_length_le _) h
  | demapQpsk => exact demapOver_completed _ (allLanes_length_le _) h
  | demapQam16 => exact demapOver_completed _ (allLanes_length_le _) h
  | demapQam64 => exact demapOver_completed _ (allLanes_length_le _) h
  | demapQam256 => exact demapOver_completed _ (allLanes_length_le _) h
  | dmrsBpsk => exact demapOver_completed _ (dmrsLanes_length_le _ _ _ _ _) h
  | dmrsQpsk => exact demapOver_completed _ (dmrsLanes_length_le _ _ _ _ _) h
  | dmrsQam16 => exact demapOver_completed _ (dmrsLanes_length_le _ _ _ _ _) h
  | dmrsQam64 => exact demapOver_completed _ (dmrsLanes_length_le _ _ _ _ _) h
  | dmrsQam256 => exact demapOver_completed _ (dmrsLanes_length_le _ _ _ _ _) h
  | cholinv n src dst => exact execCholinv_completed h

end Sys2Proof.Machine
end

