-- ==== Sys2Proof/Laws/Float32.lean ====
section
/-! SUPPORT. The rounding of binary32 results (43_cholesky.md R234): what `roundShift`, `roundF32` and `isqrtFrom`
give, each said once. -/

namespace Sys2Proof.Machine

/-- `roundShift` is rounding to nearest, ties to even, of any exact value `x` that `m` and `sticky` stand for
(43_cholesky.md R234). -/
theorem roundShift_spec (m k : Nat) (sticky : Bool) (x : ℝ) (h1 : (m : ℝ) ≤ x) (h2 : x < m + 1)
    (h3 : sticky = false → x = m) (h4 : sticky = true → (m : ℝ) < x) (hk : 0 < k ∨ sticky = false) :
    |(roundShift m k sticky : ℝ) * 2 ^ k - x| * 2 ≤ 2 ^ k ∧
      (|(roundShift m k sticky : ℝ) * 2 ^ k - x| * 2 = 2 ^ k → roundShift m k sticky % 2 = 0) := by
  cases k with
  | zero =>
    have : sticky = false := by simpa using hk
    have hx := h3 this
    subst hx
    simp [roundShift]
  | succ k =>
    have hm := Nat.div_add_mod m (2 ^ (k + 1))
    have hr := Nat.mod_lt m (show 0 < 2 ^ (k + 1) by positivity)
    simp only [roundShift]
    rw [pow_succ] at hm hr ⊢
    have hHp : (0 : Nat) < 2 ^ k := by positivity
    rw [pow_succ]
    have cH : ((2 ^ k : Nat) : ℝ) = 2 ^ k := by push_cast; rfl
    rw [← cH]
    generalize (2 : Nat) ^ k = H at *
    generalize m / (H * 2) = q at *
    generalize m % (H * 2) = r at *
    have hmK : (m : ℝ) = (H : ℝ) * 2 * q + r := by rw [← hm]; push_cast; ring
    have hHK : (1 : ℝ) ≤ H := by exact_mod_cast hHp
    split
    · rename_i hc
      simp only [Bool.or_eq_true, decide_eq_true_eq, Bool.and_eq_true, beq_iff_eq] at hc
      have e : ((q + 1 : Nat) : ℝ) * (H * 2) - x = H * 2 - r - (x - m) := by rw [hmK]; push_cast; ring
      rw [e]
      have hrK : (r : ℝ) + 1 ≤ H * 2 := by exact_mod_cast hr
      rw [abs_of_pos (by linarith)]
      rcases hc with hc | ⟨hc, hs⟩
      · have : (H : ℝ) + 1 ≤ r := by exact_mod_cast hc
        exact ⟨by linarith, fun h => by linarith⟩
      · subst hc
        cases sticky with
        | true => have := h4 rfl; exact ⟨by linarith, fun h => by linarith⟩
        | false =>
          have := h3 rfl
          refine ⟨by linarith, fun _ => ?_⟩
          simp at hs; omega
    · rename_i hc
      simp only [Bool.or_eq_true, decide_eq_true_eq, Bool.and_eq_true, beq_iff_eq, not_or, not_and] at hc
      obtain ⟨hc1, hc2⟩ := hc
      have e : (q : ℝ) * (H * 2) - x = -(r + (x - m)) := by rw [hmK]; ring
      have hr0 : (0 : ℝ) ≤ r := by positivity
      rw [e, abs_neg, abs_of_nonneg (by linarith)]
      rcases Nat.lt_or_ge r H with hlt | hge
      · have : (r : ℝ) + 1 ≤ H := by exact_mod_cast hlt
        exact ⟨by linarith, fun h => by linarith⟩
      · have hrH : r = H := by omega
        subst hrH
        have := hc2 rfl
        have hs : sticky = false := by cases sticky <;> simp_all
        have := h3 hs
        subst hs
        refine ⟨by linarith, fun _ => ?_⟩
        simp at hc2; omega

/-- `roundShift` is the quotient or one more. -/
theorem roundShift_bounds (m k : Nat) (sticky : Bool) : m / 2 ^ k ≤ roundShift m k sticky ∧ roundShift m k sticky ≤ m / 2 ^ k + 1 := by
  cases k with
  | zero => simp [roundShift]
  | succ k => simp only [roundShift]; split <;> omega

/-- The leading bit. -/
theorem log2_bounds {m : Nat} (hm : m ≠ 0) : 2 ^ m.log2 ≤ m ∧ m < 2 ^ (m.log2 + 1) :=
  ⟨Nat.log2_self_le hm, Nat.lt_log2_self⟩

/-- The fields of a pattern put together from a sign and a magnitude. -/
theorem pack_fields (neg : Bool) (mag : Nat) (h : mag < 2 ^ 31) :
    f32Sign (f32Zero neg ||| BitVec.ofNat 32 mag) = neg ∧
    f32Exp (f32Zero neg ||| BitVec.ofNat 32 mag) = mag / 2 ^ 23 ∧
    f32Frac (f32Zero neg ||| BitVec.ofNat 32 mag) = mag % 2 ^ 23 := by
  have ht : (f32Zero neg ||| BitVec.ofNat 32 mag).toNat = (if neg then 2 ^ 31 else 0) + mag := by
    rw [BitVec.toNat_or, BitVec.toNat_ofNat, Nat.mod_eq_of_lt (by omega)]
    cases neg
    · simp [f32Zero]
    · have := Nat.two_pow_add_eq_or_of_lt h 1
      simpa [f32Zero] using this.symm
  have e1 : f32Exp (f32Zero neg ||| BitVec.ofNat 32 mag) = ((f32Zero neg ||| BitVec.ofNat 32 mag).toNat / 2 ^ 23) % 256 := by
    simp only [f32Exp, BitVec.extractLsb'_toNat, Nat.shiftRight_eq_div_pow]
  have e2 : f32Frac (f32Zero neg ||| BitVec.ofNat 32 mag) = (f32Zero neg ||| BitVec.ofNat 32 mag).toNat % 2 ^ 23 := by
    simp only [f32Frac, BitVec.extractLsb'_toNat, Nat.shiftRight_zero]
  refine ⟨?_, ?_, ?_⟩
  · have : f32Sign (f32Zero neg ||| BitVec.ofNat 32 mag) = ((f32Zero neg ||| BitVec.ofNat 32 mag).toNat.testBit 31) := rfl
    rw [this, ht, Nat.testBit_eq_decide_div_mod_eq]
    cases neg <;> simp <;> omega
  · rw [e1, ht]; cases neg <;> simp <;> omega
  · rw [e2, ht]; cases neg <;> simp
    omega

/-- Everything `roundF32` does (43_cholesky.md R234), in the unit `2^ulp` it rounds in: the pattern it puts together,
the bounds of its significand `sig`, that `sig` is within half a unit of the exact value `x · 2^q` and even at a tie,
and that the exact value has 24 bits above the unit unless the unit is the smallest. -/
theorem roundF32_core (neg : Bool) (m : Nat) (q : Int) (sticky : Bool) (x : ℝ) (hm : m ≠ 0)
    (h1 : (m : ℝ) ≤ x) (h2 : x < m + 1) (h3 : sticky = false → x = m) (h4 : sticky = true → (m : ℝ) < x)
    (hs : sticky = true → 2 ^ 24 ≤ m) :
    ∃ (ulp : Int) (sig : Nat), -149 ≤ ulp ∧
      roundF32 neg m q sticky = (if 0x7F800000 ≤ (ulp + 149).toNat * 2 ^ 23 + sig then f32Inf neg
        else f32Zero neg ||| BitVec.ofNat 32 ((ulp + 149).toNat * 2 ^ 23 + sig)) ∧
      sig ≤ 2 ^ 24 ∧ (ulp ≠ -149 → 2 ^ 23 ≤ sig) ∧
      |(sig : ℝ) * 2 ^ ulp - x * 2 ^ q| * 2 ≤ 2 ^ ulp ∧
      (|(sig : ℝ) * 2 ^ ulp - x * 2 ^ q| * 2 = 2 ^ ulp → sig % 2 = 0) ∧
      (ulp ≠ -149 → (2 ^ 23 : ℝ) * 2 ^ ulp ≤ x * 2 ^ q) := by
  obtain ⟨hl1, hl2⟩ := log2_bounds hm
  have h2K : (2 : ℝ) ≠ 0 := two_ne_zero
  -- the significand in units of 2^ulp
  obtain ⟨ulp, hulp⟩ : ∃ ulp : Int, ulp = max (q + Nat.log2 m - 23) (-149) := ⟨_, rfl⟩
  obtain ⟨sig, hsig⟩ : ∃ sig : Nat, sig = if ulp ≤ q then m * 2 ^ (q - ulp).toNat else roundShift m (ulp - q).toNat sticky := ⟨_, rfl⟩
  have hdef : roundF32 neg m q sticky = if 0x7F800000 ≤ (ulp + 149).toNat * 2 ^ 23 + sig then f32Inf neg
      else f32Zero neg ||| BitVec.ofNat 32 ((ulp + 149).toNat * 2 ^ 23 + sig) := by
    unfold roundF32; rw [if_neg hm]; simp only [hsig, hulp]
  -- error in units of ulp
  have herr : |(sig : ℝ) * 2 ^ ulp - x * 2 ^ q| * 2 ≤ 2 ^ ulp ∧
      (|(sig : ℝ) * 2 ^ ulp - x * 2 ^ q| * 2 = 2 ^ ulp → sig % 2 = 0) := by
    by_cases hc : ulp ≤ q
    · have hst : sticky = false := by
        cases hh : sticky with
        | false => rfl
        | true =>
          exfalso
          have := hs hh
          have : 24 ≤ m.log2 := (Nat.le_log2 hm).mpr this
          omega
      have hx := h3 hst
      have e : (sig : ℝ) * 2 ^ ulp = x * 2 ^ q := by
        rw [hsig, if_pos hc, hx]; push_cast
        rw [mul_assoc, ← zpow_natCast (2 : ℝ) (q - ulp).toNat, ← zpow_add₀ h2K]
        congr 2; omega
      rw [e, sub_self, abs_zero, zero_mul]
      refine ⟨by positivity, fun h => ?_⟩
      have : (0 : ℝ) < 2 ^ ulp := by positivity
      exact absurd h (ne_of_lt this)
    · obtain ⟨g1, g2⟩ := roundShift_spec m (ulp - q).toNat sticky x h1 h2 h3 h4 (.inl (by omega))
      rw [if_neg hc] at hsig
      rw [← hsig] at g1 g2
      have e : (sig : ℝ) * 2 ^ ulp - x * 2 ^ q = ((sig : ℝ) * 2 ^ (ulp - q).toNat - x) * 2 ^ q := by
        rw [sub_mul, mul_assoc, ← zpow_natCast (2 : ℝ) (ulp - q).toNat, ← zpow_add₀ h2K]
        congr 3; omega
      have e2 : (2 : ℝ) ^ ulp = 2 ^ (ulp - q).toNat * 2 ^ q := by
        rw [← zpow_natCast (2 : ℝ) (ulp - q).toNat, ← zpow_add₀ h2K]
        congr 1; omega
      have hq : (0 : ℝ) < 2 ^ q := by positivity
      rw [e, abs_mul, abs_of_pos hq, e2, mul_right_comm]
      exact ⟨mul_le_mul_of_nonneg_right g1 hq.le, fun h => g2 (mul_right_cancel₀ hq.ne' h)⟩
  -- size of the significand
  have hpow : ∀ a b : Nat, a ≤ b → 2 ^ a ≤ 2 ^ b := fun a b h => Nat.pow_le_pow_right (by norm_num) h
  have hsig24 : sig ≤ 2 ^ 24 := by
    by_cases hc : ulp ≤ q
    · rw [hsig, if_pos hc]
      calc m * 2 ^ (q - ulp).toNat ≤ 2 ^ (m.log2 + 1) * 2 ^ (q - ulp).toNat := Nat.mul_le_mul_right _ hl2.le
        _ = 2 ^ (m.log2 + 1 + (q - ulp).toNat) := (Nat.pow_add _ _ _).symm
        _ ≤ 2 ^ 24 := hpow _ _ (by omega)
    · rw [hsig, if_neg hc]
      have h5 := (roundShift_bounds m (ulp - q).toNat sticky).2
      have h6 : m / 2 ^ (ulp - q).toNat < 2 ^ 24 := by
        rw [Nat.div_lt_iff_lt_mul (by positivity), ← Nat.pow_add]
        exact lt_of_lt_of_le hl2 (hpow _ _ (by omega))
      omega
  have hsig23 : ulp ≠ -149 → 2 ^ 23 ≤ sig := by
    intro hne
    by_cases hc : ulp ≤ q
    · rw [hsig, if_pos hc]
      calc 2 ^ 23 ≤ 2 ^ (m.log2 + (q - ulp).toNat) := hpow _ _ (by omega)
        _ = 2 ^ m.log2 * 2 ^ (q - ulp).toNat := Nat.pow_add _ _ _
        _ ≤ _ := Nat.mul_le_mul_right _ hl1
    · rw [hsig, if_neg hc]
      have h5 := (roundShift_bounds m (ulp - q).toNat sticky).1
      have h6 : 2 ^ 23 ≤ m / 2 ^ (ulp - q).toNat := by
        rw [Nat.le_div_iff_mul_le (by positivity), ← Nat.pow_add]
        exact (hpow _ _ (by omega)).trans hl1
      omega
  have hlow : ulp ≠ -149 → (2 ^ 23 : ℝ) * 2 ^ ulp ≤ x * 2 ^ q := by
    intro hne
    have e : (2 ^ 23 : ℝ) * 2 ^ ulp = ((2 ^ m.log2 : Nat) : ℝ) * 2 ^ q := by
      push_cast
      rw [← zpow_natCast (2 : ℝ) 23, ← zpow_natCast (2 : ℝ) m.log2, ← zpow_add₀ h2K, ← zpow_add₀ h2K]
      congr 1; push_cast; omega
    rw [e]
    exact mul_le_mul_of_nonneg_right (le_trans (by exact_mod_cast hl1) h1) (by positivity)
  exact ⟨ulp, sig, by omega, hdef, hsig24, hsig23, herr.1, herr.2, hlow⟩

/-- A finite `roundF32`: its sign, and its significand and scale in the unit it rounds in. -/
theorem roundF32_parts (neg : Bool) (m : Nat) (q : Int) (sticky : Bool) (x : ℝ) (hm : m ≠ 0)
    (h1 : (m : ℝ) ≤ x) (h2 : x < m + 1) (h3 : sticky = false → x = m) (h4 : sticky = true → (m : ℝ) < x)
    (hs : sticky = true → 2 ^ 24 ≤ m) (hfin : f32Finite (roundF32 neg m q sticky)) :
    f32Sign (roundF32 neg m q sticky) = neg ∧
    ∃ (ulp : Int) (sig : Nat), -149 ≤ ulp ∧
      (f32Significand (roundF32 neg m q sticky) = sig ∧ (f32Scale (roundF32 neg m q sticky) : Int) - 150 = ulp ∨
        sig = 2 ^ 24 ∧ f32Significand (roundF32 neg m q sticky) = 2 ^ 23 ∧
          (f32Scale (roundF32 neg m q sticky) : Int) - 150 = ulp + 1) ∧
      |(sig : ℝ) * 2 ^ ulp - x * 2 ^ q| * 2 ≤ 2 ^ ulp ∧
      (|(sig : ℝ) * 2 ^ ulp - x * 2 ^ q| * 2 = 2 ^ ulp → sig % 2 = 0) ∧
      (ulp ≠ -149 → (2 ^ 23 : ℝ) * 2 ^ ulp ≤ x * 2 ^ q) := by
  obtain ⟨ulp, sig, hu, hdef, hsig24, hsig23, g1, g2, hlow⟩ := roundF32_core neg m q sticky x hm h1 h2 h3 h4 hs
  have hnotinf : ¬ 0x7F800000 ≤ (ulp + 149).toNat * 2 ^ 23 + sig := by
    intro h; rw [hdef, if_pos h] at hfin
    apply hfin; cases neg <;> decide
  rw [if_neg hnotinf] at hdef
  rw [hdef]
  obtain ⟨p1, p2, p3⟩ := pack_fields neg ((ulp + 149).toNat * 2 ^ 23 + sig) (by omega)
  refine ⟨p1, ulp, sig, hu, ?_, g1, g2, hlow⟩
  obtain ⟨e, he⟩ : ∃ e : Nat, ulp = (e : Int) - 149 := ⟨(ulp + 149).toNat, by omega⟩
  have hee : (ulp + 149).toNat = e := by omega
  rw [hee] at p2 p3 ⊢
  unfold f32Significand f32Scale
  rw [p2, p3]
  by_cases c1 : sig = 2 ^ 24
  · have d1 : (e * 2 ^ 23 + sig) / 2 ^ 23 = e + 2 := by omega
    have d2 : (e * 2 ^ 23 + sig) % 2 ^ 23 = 0 := by omega
    rw [d1, d2, if_neg (by omega), if_neg (by omega)]
    exact .inr ⟨c1, by norm_num, by push_cast; omega⟩
  · by_cases c2 : 2 ^ 23 ≤ sig
    · have d1 : (e * 2 ^ 23 + sig) / 2 ^ 23 = e + 1 := by omega
      have d2 : (e * 2 ^ 23 + sig) % 2 ^ 23 = sig - 2 ^ 23 := by omega
      rw [d1, d2, if_neg (by omega), if_neg (by omega)]
      exact .inl ⟨by omega, by push_cast; omega⟩
    · have h149 : ulp = -149 := by by_contra h; exact c2 (hsig23 h)
      have d1 : (e * 2 ^ 23 + sig) / 2 ^ 23 = 0 := by omega
      have d2 : (e * 2 ^ 23 + sig) % 2 ^ 23 = sig := by omega
      rw [d1, d2, if_pos rfl, if_pos rfl]
      exact .inl ⟨rfl, by push_cast; omega⟩

/-- A finite `roundF32` is within half a unit in its own last place of the exact value `x · 2^q`, with an even
significand at that distance (43_cholesky.md R234). -/
theorem roundF32_spec (neg : Bool) (m : Nat) (q : Int) (sticky : Bool) (x : ℝ) (hm : m ≠ 0)
    (h1 : (m : ℝ) ≤ x) (h2 : x < m + 1) (h3 : sticky = false → x = m) (h4 : sticky = true → (m : ℝ) < x)
    (hs : sticky = true → 2 ^ 24 ≤ m) (hfin : f32Finite (roundF32 neg m q sticky)) :
    f32Sign (roundF32 neg m q sticky) = neg ∧
    |(f32Significand (roundF32 neg m q sticky) : ℝ) * 2 ^ ((f32Scale (roundF32 neg m q sticky) : Int) - 150) - x * 2 ^ q| ≤
       2 ^ ((f32Scale (roundF32 neg m q sticky) : Int) - 151) ∧
    (|(f32Significand (roundF32 neg m q sticky) : ℝ) * 2 ^ ((f32Scale (roundF32 neg m q sticky) : Int) - 150) - x * 2 ^ q| =
       2 ^ ((f32Scale (roundF32 neg m q sticky) : Int) - 151) → f32Significand (roundF32 neg m q sticky) % 2 = 0) := by
  obtain ⟨p1, ulp, sig, -, hp, g1, g2, -⟩ := roundF32_parts neg m q sticky x hm h1 h2 h3 h4 hs hfin
  have h2K : (2 : ℝ) ≠ 0 := two_ne_zero
  have half : (2 : ℝ) ^ ulp = 2 ^ (ulp - 1) * 2 := by
    rw [← zpow_add_one₀ h2K]; congr 1; omega
  have hpos : (0 : ℝ) < 2 ^ (ulp - 1) := by positivity
  refine ⟨p1, ?_⟩
  rcases hp with ⟨hsig, hsc⟩ | ⟨rfl, hsig, hsc⟩
  · rw [show (f32Scale (roundF32 neg m q sticky) : Int) - 151 = ulp - 1 by omega, hsc, hsig]
    exact ⟨by linarith, fun h => g2 (by linarith)⟩
  · rw [show (f32Scale (roundF32 neg m q sticky) : Int) - 151 = ulp by omega, hsc, hsig]
    have v : ((2 ^ 23 : Nat) : ℝ) * 2 ^ (ulp + 1) = ((2 ^ 24 : Nat) : ℝ) * 2 ^ ulp := by
      rw [zpow_add_one₀ h2K]; push_cast; ring
    rw [v]
    exact ⟨by linarith, fun h => by linarith⟩

/-- No multiple of the unit is nearer than the rounded one, and at a tie the rounded one is even. -/
theorem nearest_multiple (U X : ℝ) (hU : 0 < U) (sig : Nat) (k : Int) (g1 : |(sig : ℝ) * U - X| * 2 ≤ U)
    (g2 : |(sig : ℝ) * U - X| * 2 = U → sig % 2 = 0) :
    |(sig : ℝ) * U - X| ≤ |k * U - X| ∧
      (|(sig : ℝ) * U - X| = |k * U - X| → (k : ℝ) * U ≠ sig * U → sig % 2 = 0) := by
  by_cases hk : k = sig
  · subst hk
    exact ⟨by simp, fun _ h => absurd (by push_cast; rfl) h⟩
  · have h1 : (1 : ℝ) ≤ |(k : ℝ) - sig| := by
      have : (1 : Int) ≤ |k - sig| := Int.one_le_abs (by omega)
      exact_mod_cast this
    have h2 : U ≤ |k * U - X| + |(sig : ℝ) * U - X| := by
      calc U ≤ |(k : ℝ) - sig| * U := by nlinarith
        _ = |(k * U - X) - (sig * U - X)| := by rw [← abs_of_pos hU, ← abs_mul, abs_of_pos hU]; ring_nf
        _ ≤ _ := abs_sub _ _
    exact ⟨by linarith, fun h _ => g2 (by linarith)⟩

/-- The significand of any pattern has 24 bits, and the scale is at least 1. -/
theorem f32Significand_lt (y : F32) : f32Significand y < 2 ^ 24 ∧ 1 ≤ f32Scale y := by
  have h : f32Frac y < 2 ^ 23 := (y.extractLsb' 0 23).isLt
  unfold f32Significand f32Scale
  split <;> exact ⟨by omega, by omega⟩

/-- A finite `roundF32` is nearest to the exact value among all patterns: none is nearer, and where one of another
value is as near its significand is even (43_cholesky.md R234). `w` and `e` stand for a pattern's signed significand
and exponent. -/
theorem roundF32_nearest (neg : Bool) (m : Nat) (q : Int) (sticky : Bool) (x : ℝ) (hm : m ≠ 0)
    (h1 : (m : ℝ) ≤ x) (h2 : x < m + 1) (h3 : sticky = false → x = m) (h4 : sticky = true → (m : ℝ) < x)
    (hs : sticky = true → 2 ^ 24 ≤ m) (hfin : f32Finite (roundF32 neg m q sticky))
    (w e : Int) (hw : |w| < 2 ^ 24) (he : -149 ≤ e) :
    let r := (f32Significand (roundF32 neg m q sticky) : ℝ) * 2 ^ ((f32Scale (roundF32 neg m q sticky) : Int) - 150)
    |r - x * 2 ^ q| ≤ |w * 2 ^ e - x * 2 ^ q| ∧
      (|r - x * 2 ^ q| = |w * 2 ^ e - x * 2 ^ q| → (w : ℝ) * 2 ^ e ≠ r →
        f32Significand (roundF32 neg m q sticky) % 2 = 0) := by
  obtain ⟨-, ulp, sig, hu, hp, g1, g2, hlow⟩ := roundF32_parts neg m q sticky x hm h1 h2 h3 h4 hs hfin
  have h2K : (2 : ℝ) ≠ 0 := two_ne_zero
  have hU : (0 : ℝ) < 2 ^ ulp := by positivity
  have hr : (f32Significand (roundF32 neg m q sticky) : ℝ) * 2 ^ ((f32Scale (roundF32 neg m q sticky) : Int) - 150) =
      sig * 2 ^ ulp := by
    rcases hp with ⟨a, b⟩ | ⟨rfl, a, b⟩
    · rw [a, b]
    · rw [a, b, zpow_add_one₀ h2K]; push_cast; ring
  have heven : sig % 2 = 0 → f32Significand (roundF32 neg m q sticky) % 2 = 0 := by
    rcases hp with ⟨a, -⟩ | ⟨-, a, -⟩ <;> rw [a]
    · exact id
    · norm_num
  intro r
  rw [show r = sig * 2 ^ ulp from hr]
  by_cases hc : ulp ≤ e
  · have hk : (w : ℝ) * 2 ^ e = ((w * 2 ^ (e - ulp).toNat : Int) : ℝ) * 2 ^ ulp := by
      push_cast
      rw [mul_assoc, ← zpow_natCast (2 : ℝ) (e - ulp).toNat, ← zpow_add₀ h2K]
      congr 2; omega
    rw [hk]
    obtain ⟨n1, n2⟩ := nearest_multiple _ (x * 2 ^ q) hU sig (w * 2 ^ (e - ulp).toNat) g1 g2
    exact ⟨n1, fun a b => heven (n2 a b)⟩
  · have hB := hlow (by omega)
    have hlt : (w : ℝ) * 2 ^ e < 2 ^ 23 * 2 ^ ulp := by
      have w1 : (w : ℝ) < 2 ^ 24 := by exact_mod_cast (abs_lt.mp hw).2
      calc (w : ℝ) * 2 ^ e < 2 ^ 24 * 2 ^ e := mul_lt_mul_of_pos_right w1 (by positivity)
        _ = 2 ^ 23 * 2 ^ (e + 1) := by rw [zpow_add_one₀ h2K]; ring
        _ ≤ 2 ^ 23 * 2 ^ ulp :=
          mul_le_mul_of_nonneg_left (zpow_le_zpow_right₀ (by norm_num) (by omega)) (by norm_num)
    obtain ⟨n1, -⟩ := nearest_multiple _ (x * 2 ^ q) hU sig (2 ^ 23) g1 g2
    rw [show (((2 ^ 23 : Int)) : ℝ) = 2 ^ 23 by norm_num] at n1
    rw [abs_of_nonpos (by linarith : (2 ^ 23 : ℝ) * 2 ^ ulp - x * 2 ^ q ≤ 0)] at n1
    rw [abs_of_nonpos (by linarith : (w : ℝ) * 2 ^ e - x * 2 ^ q ≤ 0)]
    exact ⟨by linarith, fun a _ => by linarith⟩

/-- `roundF32` overflows exactly where the exact value `x · 2^q` reaches half a unit above the largest finite value
(43_cholesky.md R234). -/
theorem roundF32_overflow (neg : Bool) (m : Nat) (q : Int) (sticky : Bool) (x : ℝ) (hm : m ≠ 0)
    (h1 : (m : ℝ) ≤ x) (h2 : x < m + 1) (h3 : sticky = false → x = m) (h4 : sticky = true → (m : ℝ) < x)
    (hs : sticky = true → 2 ^ 24 ≤ m) :
    (x * 2 ^ q < 2 ^ 128 - 2 ^ 103 → f32Finite (roundF32 neg m q sticky)) ∧
    (2 ^ 128 - 2 ^ 103 ≤ x * 2 ^ q → roundF32 neg m q sticky = f32Inf neg) := by
  obtain ⟨ulp, sig, hu, hdef, hsig24, hsig23, g1, g2, hlow⟩ := roundF32_core neg m q sticky x hm h1 h2 h3 h4 hs
  have pow : ∀ {a b : Int}, a ≤ b → (2 : ℝ) ^ a ≤ 2 ^ b := fun h => zpow_le_zpow_right₀ (by norm_num) h
  have hlow' := abs_le.mp (by linarith : |(sig : ℝ) * 2 ^ ulp - x * 2 ^ q| ≤ 2 ^ ulp / 2)
  rw [hdef]
  constructor
  · intro hx
    have hno : ¬ 0x7F800000 ≤ (ulp + 149).toNat * 2 ^ 23 + sig := by
      intro hc
      have hge : 2 ^ 128 - 2 ^ 103 ≤ x * 2 ^ q := by
        by_cases hu2 : 105 ≤ ulp
        · have := hlow (by omega)
          have hp := pow hu2
          norm_num at hp ⊢
          linarith
        · have hu3 : ulp = 104 := by omega
          have hs24 : sig = 2 ^ 24 := by subst hu3; omega
          rw [hu3, hs24] at hlow'
          norm_num at hlow' ⊢
          linarith [hlow'.1, hlow'.2]
      linarith
    rw [if_neg hno]
    obtain ⟨-, p2, -⟩ := pack_fields neg ((ulp + 149).toNat * 2 ^ 23 + sig) (by omega)
    unfold f32Finite
    rw [p2]
    omega
  · intro hx
    have hyes : 0x7F800000 ≤ (ulp + 149).toNat * 2 ^ 23 + sig := by
      by_contra hc
      have hs24 : (sig : ℝ) ≤ 2 ^ 24 := by exact_mod_cast hsig24
      have hlt : x * 2 ^ q < 2 ^ 128 - 2 ^ 103 := by
        by_cases hu2 : ulp ≤ 103
        · have hp := pow hu2
          have hp0 : (0 : ℝ) < 2 ^ ulp := by positivity
          have : (sig : ℝ) * 2 ^ ulp ≤ 2 ^ 24 * 2 ^ ulp := mul_le_mul_of_nonneg_right hs24 hp0.le
          norm_num at hp this ⊢
          linarith [hlow'.1, hlow'.2]
        · have h23 := hsig23 (by omega)
          have hu3 : ulp = 104 := by omega
          subst hu3
          have hs2 : sig ≤ 2 ^ 24 - 1 := by omega
          have hs3 : (sig : ℝ) ≤ 2 ^ 24 - 1 := by
            have : (sig : ℝ) ≤ ((2 ^ 24 - 1 : Nat) : ℝ) := by exact_mod_cast hs2
            norm_num at this ⊢; linarith
          by_cases he : |(sig : ℝ) * 2 ^ (104 : Int) - x * 2 ^ q| * 2 = 2 ^ (104 : Int)
          · have hev := g2 he
            have hs4 : sig ≤ 2 ^ 24 - 2 := by omega
            have hs5 : (sig : ℝ) ≤ 2 ^ 24 - 2 := by
              have : (sig : ℝ) ≤ ((2 ^ 24 - 2 : Nat) : ℝ) := by exact_mod_cast hs4
              norm_num at this ⊢; linarith
            norm_num at hlow' ⊢
            linarith [hlow'.1]
          · have hl := abs_lt.mp ((lt_div_iff₀ two_pos).mpr (lt_of_le_of_ne g1 he) :
              |(sig : ℝ) * 2 ^ (104 : Int) - x * 2 ^ q| < 2 ^ (104 : Int) / 2)
            norm_num at hl ⊢
            linarith [hl.1]
      linarith
    rw [if_pos hyes]

/-- The real value of a pattern: sign, significand, scale (43_cholesky.md R234). -/
theorem f32Value_eq (r : F32) : (f32Value r : ℝ) =
    (if f32Sign r then -1 else 1) * ((f32Significand r : ℝ) * 2 ^ ((f32Scale r : ℤ) - 150)) := by
  unfold f32Value
  push_cast
  split <;> simp

/-- Everything `roundF32` gives, as one rounding (43_cholesky.md R234): the exact value is `x · 2^q` with the sign. -/
theorem roundF32_roundsTo (neg : Bool) (m : Nat) (q : Int) (sticky : Bool) (x : ℝ) (hm : m ≠ 0)
    (h1 : (m : ℝ) ≤ x) (h2 : x < m + 1) (h3 : sticky = false → x = m) (h4 : sticky = true → (m : ℝ) < x)
    (hs : sticky = true → 2 ^ 24 ≤ m) :
    roundsTo (roundF32 neg m q sticky) ((if neg then -1 else 1) * (x * 2 ^ q)) neg := by
  obtain ⟨o1, o2⟩ := roundF32_overflow neg m q sticky x hm h1 h2 h3 h4 hs
  have hx : 0 ≤ x * 2 ^ q := mul_nonneg (le_trans (Nat.cast_nonneg m) h1) (by positivity)
  have e0 : ∀ u : ℝ, |(if neg then -1 else 1 : ℝ) * u - (if neg then -1 else 1) * (x * 2 ^ q)| = |u - x * 2 ^ q| := by
    intro u
    cases neg
    · simp
    · simp only [if_true]; rw [show (-1 : ℝ) * u - -1 * (x * 2 ^ q) = -(u - x * 2 ^ q) by ring, abs_neg]
  have ea : |(if neg then -1 else 1 : ℝ) * (x * 2 ^ q)| = x * 2 ^ q := by
    have := e0 0
    rw [mul_zero, zero_sub, zero_sub, abs_neg, abs_neg, abs_of_nonneg hx] at this
    exact this
  unfold roundsTo
  rw [ea]
  refine ⟨fun hlt => ?_, fun hge => ?_⟩
  · have hfin := o1 hlt
    obtain ⟨s1, s2, s3⟩ := roundF32_spec neg m q sticky x hm h1 h2 h3 h4 hs hfin
    have hr := f32Value_eq (roundF32 neg m q sticky)
    have hh : ((f32HalfUlp (roundF32 neg m q sticky) : ℚ) : ℝ) =
        2 ^ ((f32Scale (roundF32 neg m q sticky) : ℤ) - 151) := by unfold f32HalfUlp; push_cast; rfl
    rw [s1] at hr
    refine ⟨hfin, s1, fun y _ => ?_, ?_, ?_⟩
    · obtain ⟨y1, -⟩ := f32Significand_lt y
      obtain ⟨w, hw, hv⟩ : ∃ w : Int, |w| < 2 ^ 24 ∧
          (f32Value y : ℝ) = (if neg then -1 else 1) * (w * 2 ^ ((f32Scale y : ℤ) - 150)) := by
        have hy : (f32Significand y : Int) < 2 ^ 24 := by exact_mod_cast y1
        rw [f32Value_eq y]
        cases neg <;> cases f32Sign y
        · exact ⟨f32Significand y, by rw [abs_of_nonneg (by omega)]; exact hy, by simp⟩
        · exact ⟨-f32Significand y, by rw [abs_neg, abs_of_nonneg (by omega)]; exact hy, by push_cast; simp⟩
        · exact ⟨-f32Significand y, by rw [abs_neg, abs_of_nonneg (by omega)]; exact hy, by push_cast; simp⟩
        · exact ⟨f32Significand y, by rw [abs_of_nonneg (by omega)]; exact hy, by simp⟩
      obtain ⟨n1, n2⟩ := roundF32_nearest neg m q sticky x hm h1 h2 h3 h4 hs hfin w ((f32Scale y : ℤ) - 150) hw
        (by have := (f32Significand_lt y).2; omega)
      rw [hr, hv, e0, e0]
      refine ⟨n1, fun a b => n2 a fun h => b ?_⟩
      have : ((f32Value y : ℚ) : ℝ) = f32Value (roundF32 neg m q sticky) := by rw [hv, hr, h]
      exact_mod_cast this
    · rw [hr, e0, hh]; exact s2
    · rw [hr, e0, hh]; exact s3
  · rw [o2 hge]; rfl

/-- Zero is the rounding of zero, with its own sign. -/
theorem f32Zero_roundsTo (neg : Bool) : roundsTo (f32Zero neg) 0 neg := by
  have hv : (f32Value (f32Zero neg) : ℝ) = 0 := by
    rw [f32Value_eq, show f32Significand (f32Zero neg) = 0 by cases neg <;> decide]; simp
  have hp : (0 : ℝ) < f32HalfUlp (f32Zero neg) := by unfold f32HalfUlp; push_cast; positivity
  refine ⟨fun _ => ⟨by cases neg <;> decide, by cases neg <;> decide, fun y _ => ?_, ?_, ?_⟩, fun h => ?_⟩
  · rw [hv, sub_self, abs_zero, sub_zero]
    refine ⟨abs_nonneg _, fun h hne => absurd ?_ hne⟩
    have h0 : ((f32Value y : ℚ) : ℝ) = f32Value (f32Zero neg) := by rw [hv]; exact abs_eq_zero.mp h.symm
    exact_mod_cast h0
  · rw [hv, sub_self, abs_zero]; exact hp.le
  · rw [hv, sub_self, abs_zero]; intro h; exact absurd h hp.ne
  · rw [abs_zero] at h; norm_num at h

/-- Negation flips the sign and keeps the other fields (43_cholesky.md R234). -/
theorem negf_fields (x : F32) :
    f32Sign (negf x) = !f32Sign x ∧ f32Exp (negf x) = f32Exp x ∧ f32Frac (negf x) = f32Frac x := by
  refine ⟨by simp [f32Sign, negf], ?_, ?_⟩
  · unfold f32Exp negf
    congr 1
    apply BitVec.eq_of_getLsbD_eq; intro i hi
    rw [BitVec.getLsbD_extractLsb', BitVec.getLsbD_extractLsb', BitVec.getLsbD_xor]
    interval_cases i <;> simp
  · unfold f32Frac negf
    congr 1
    apply BitVec.eq_of_getLsbD_eq; intro i hi
    rw [BitVec.getLsbD_extractLsb', BitVec.getLsbD_extractLsb', BitVec.getLsbD_xor]
    interval_cases i <;> simp

/-- A rounded result is no NaN. -/
theorem roundF32_notNaN (neg : Bool) (m : Nat) (q : Int) (sticky : Bool) :
    f32IsNaN (roundF32 neg m q sticky) = false := by
  have key : ∀ mag, f32IsNaN
      (if 0x7F800000 ≤ mag then f32Inf neg else f32Zero neg ||| BitVec.ofNat 32 mag) = false := by
    intro mag
    split
    · cases neg <;> decide
    · rename_i h
      obtain ⟨_, p2, _⟩ := pack_fields neg mag (by omega)
      unfold f32IsNaN
      rw [p2]
      have : mag / 2 ^ 23 ≠ 255 := by omega
      simp only [Bool.and_eq_false_iff, beq_eq_false_iff_ne]
      exact .inl this
  unfold roundF32
  split
  · cases neg <;> decide
  · exact key _

/-- `isqrtFrom` ends at the integer square root (43_cholesky.md R236). -/
theorem isqrtFrom_spec (k n a : Nat) (h1 : a * a ≤ n) (h2 : n < (a + 2 ^ k) * (a + 2 ^ k)) :
    isqrtFrom k n a * isqrtFrom k n a ≤ n ∧ n < (isqrtFrom k n a + 1) * (isqrtFrom k n a + 1) := by
  induction k generalizing a with
  | zero => exact ⟨h1, by simpa [isqrtFrom] using h2⟩
  | succ k ih =>
    unfold isqrtFrom
    split
    · rename_i h
      exact ih _ h (by rw [Nat.add_assoc, ← Nat.two_mul, ← Nat.pow_succ']; exact h2)
    · rename_i h
      exact ih _ h1 (by omega)

end Sys2Proof.Machine
end

