-- ==== Sys2Proof/Laws/HostPort.lean ====
section
/-! SUPPORT. What a host access can do, and what a step can do, each said once. -/

namespace Sys2Proof.Machine

/-- A host read only leaves an answer at the port (20_memory.md R80). -/
theorem hostRead_cases {addr size : Nat} {s t : State} (h : hostRead addr size s = .next t) :
    ∃ r, t = s.respond r := by
  unfold hostRead at h
  split at h
  · cases h
  · cases h; exact ⟨_, rfl⟩
  · split at h
    · split at h <;> cases h <;> exact ⟨_, rfl⟩
    · cases h; exact ⟨_, rfl⟩
  · split at h
    · split at h
      · cases h
      all_goals
        unfold hostRead.fromBuf at h
        split at h
        · cases h; exact ⟨_, rfl⟩
        · cases h
    · cases h; exact ⟨_, rfl⟩

/-- Everything a host write can do: nothing but an answer, a CSR write, or a write of 1, 2 or 4 bytes of BUF
while the ENGINE is not BUSY. -/
theorem hostWrite_cases {addr size : Nat} {v : Word} {s t : State} (h : hostWrite addr size v s = .next t) :
    (∃ r, t = s.respond r) ∨
      (∃ c, csrAt addr = some c ∧ csrAccessOk addr size ∧ writeCsr c v (s.respond .okayWrite) = .next t) ∨
      (∃ offset, hostRegion s.params addr = .bufWindow offset ∧ bufAccessOk addr size ∧ s.engState ≠ .busy ∧
        t = (s.writeBuf offset (leBytes size v.toNat)).respond .okayWrite) := by
  unfold hostWrite at h
  split at h
  · cases h
  · cases h; exact .inl ⟨_, rfl⟩
  · split at h
    · rename_i ha
      split at h
      · rename_i c hc
        exact .inr (.inl ⟨c, hc, ha, h⟩)
      · cases h; exact .inl ⟨_, rfl⟩
    · cases h; exact .inl ⟨_, rfl⟩
  · rename_i offset hr
    split at h
    · rename_i ha
      split at h
      · cases h
      · rename_i hs
        cases h
        exact .inr (.inr ⟨offset, hr, ha, by simp [hs], rfl⟩)
      · rename_i hs
        cases h
        exact .inr (.inr ⟨offset, hr, ha, by simp [hs], rfl⟩)
    · cases h; exact .inl ⟨_, rfl⟩

/-- The BUF window: the offset, and that a well-formed access stays inside BUF (20_memory.md R72, R74). -/
theorem hostRegion_bufWindow {p : Config.Params} {addr offset : Nat}
    (h : hostRegion p addr = .bufWindow offset) :
    p.bufBytes ≤ addr ∧ addr < 2 * p.bufBytes ∧ offset = addr - p.bufBytes := by
  unfold hostRegion at h
  split at h
  · cases h
  · split at h
    · cases h
    · split at h
      · cases h; omega
      · cases h

/-- From 0x03C on there is no CSR (10_state.md R48). -/
theorem csrAt_reserved {offset : Nat} (h : 0x03C ≤ offset) : csrAt offset = none := by
  unfold csrAt
  split <;> first | omega | rfl

/-- Everything a CTRL write can do (10_state.md R50). -/
theorem writeCtrl_cases {v : Word} {s t : State} (h : writeCtrl v s = .next t) :
    (v.getLsbD 2 = true ∧ softReset s = .next t) ∨
      (v.getLsbD 2 = false ∧ t = (s.ctrlClear v).ctrlStart v) := by
  unfold writeCtrl at h
  split at h
  · rename_i hv; exact .inl ⟨hv, h⟩
  · rename_i hv
    cases h
    exact .inr ⟨by simpa using hv, rfl⟩

/-- CLEAR and START touch STATUS.STATE and IRQ_STATUS only. -/
theorem ctrl_frame (v : Word) (s : State) :
    (s.ctrlClear v).ctrlStart v =
      { s with engState := ((s.ctrlClear v).ctrlStart v).engState,
               irqStatus := ((s.ctrlClear v).ctrlStart v).irqStatus } := by
  unfold State.ctrlStart State.ctrlClear
  rw [State.clearError_eq]
  cases v.getLsbD 0 <;> cases v.getLsbD 1
  · rfl
  · simp only [Bool.false_eq_true, if_false, if_true]
    split <;> rfl
  · simp only [Bool.false_eq_true, if_false, if_true, State.start_eq]
    split <;> rfl
  · simp only [if_true, State.start_eq]
    split
    · rfl
    · split <;> rfl

/-- Everything a step can do: the ENGINE's turn, a host access, a hardware reset. -/
theorem step_cases {s t : State} (h : step s = .next t) :
    (s.inbox = [] ∧ engineTurn s = .next t) ∨
      ∃ e rest, s.inbox = e :: rest ∧
        ((e = .engineTurn ∧ engineTurn (s.withInbox rest) = .next t) ∨
          (e = .hardwareReset ∧ t = (s.withInbox rest).hardwareReset) ∨
          (∃ a, e = .access a ∧ hostAccess a (s.withInbox rest) = .next t)) := by
  unfold step at h
  split at h
  · rename_i hi; exact .inl ⟨hi, h⟩
  · rename_i e rest hi
    refine .inr ⟨e, rest, hi, ?_⟩
    cases e with
    | engineTurn => exact .inl ⟨rfl, h⟩
    | hardwareReset => cases h; exact .inr (.inl ⟨rfl, rfl⟩)
    | access a => exact .inr (.inr ⟨a, rfl, h⟩)

end Sys2Proof.Machine
end

