-- ==== Sys2Proof/Laws/Output.lean ====
section
/-! SUPPORT. Where each byte of an output run stands: the LLR bytes of a demap command and the grids of CHOLINV,
and what a word written as bytes reads back as. -/

namespace Sys2Proof.Machine

/-- A byte of runs of equal length laid end to end. -/
theorem getElem?_flatMap_const {α β : Type} (xs : List α) (f : α → List β) (n : Nat)
    (h : ∀ x ∈ xs, (f x).length = n) (r j : Nat) (hj : j < n) :
    (xs.flatMap f)[r * n + j]? = (xs[r]?).bind fun x => (f x)[j]? := by
  induction xs generalizing r with
  | nil => simp
  | cons x xs ih =>
    rw [List.flatMap_cons]
    have hx := h x (by simp)
    cases r with
    | zero => rw [List.getElem?_append_left (by omega)]; simp
    | succ r =>
      rw [List.getElem?_append_right (by rw [hx, Nat.succ_mul]; omega), hx,
        show (r + 1) * n + j - n = r * n + j by rw [Nat.succ_mul]; omega,
        ih (fun y hy => h y (by simp [hy]))]
      simp

/-- The place of an LLR byte (41_llr_demap.md R169). -/
theorem llrOutput_getElem? (order : Modulation) (cfg : LlrConfig) (lyr : Layers) (sel : List Nat)
    (batch : List (List LaneInput)) (r l b : Nat) (hl : l < layerCount lyr) (hb : b < bitsPerSymbol order) :
    (llrOutput order cfg lyr sel batch)[(r * layerCount lyr + l) * bitsPerSymbol order + b]? =
      (sel[r]?).bind fun i => (llrBytes order cfg (laneOf batch l i))[b]? := by
  unfold llrOutput
  have e : (r * layerCount lyr + l) * bitsPerSymbol order + b =
      r * (layerCount lyr * bitsPerSymbol order) + (l * bitsPerSymbol order + b) := by ring
  have hlt : l * bitsPerSymbol order + b < layerCount lyr * bitsPerSymbol order := by
    calc _ < l * bitsPerSymbol order + bitsPerSymbol order := by omega
      _ = (l + 1) * bitsPerSymbol order := by ring
      _ ≤ _ := Nat.mul_le_mul_right _ hl
  rw [e, getElem?_flatMap_const _ _ (layerCount lyr * bitsPerSymbol order) (fun i _ => by
    rw [length_flatMap_const _ _ (bitsPerSymbol order) fun l _ => by simp]
    simp) _ _ hlt]
  congr 1; funext i
  rw [getElem?_flatMap_const _ _ (bitsPerSymbol order) (fun _ _ => by simp) _ _ hb]
  simp [hl]

/-- The place of a byte of the output grids (43_cholesky.md R231). -/
theorem gridOutput_getElem? (n : Nat) (invs : List LaneInverse) (hl : invs.length = lanes) (p r c k j : Nat)
    (hr : r < n) (hc : c < n) (hp : p < 2) (hj : j < 4) (x : LaneInverse) (hx : invs[k]? = some x) :
    (gridOutput n invs)[(((p * n + r) * n + c) * 16 + k) * 4 + j]? =
      (leBytes 4 (outputWord x p r c).toNat)[j]? := by
  have hk : k < 16 := by
    have := (List.getElem?_eq_some_iff.mp hx).1
    rw [hl] at this
    exact this
  have h1 : k * 4 + j < lanes * 4 := by unfold lanes; omega
  have hcc : c * (lanes * 4) + (k * 4 + j) < n * (lanes * 4) := by
    calc _ < c * (lanes * 4) + lanes * 4 := by omega
      _ = (c + 1) * (lanes * 4) := by ring
      _ ≤ _ := Nat.mul_le_mul_right _ hc
  have hrr : r * (n * (lanes * 4)) + (c * (lanes * 4) + (k * 4 + j)) < n * (n * (lanes * 4)) := by
    calc _ < r * (n * (lanes * 4)) + n * (lanes * 4) := by omega
      _ = (r + 1) * (n * (lanes * 4)) := by ring
      _ ≤ _ := Nat.mul_le_mul_right _ hr
  have e : (((p * n + r) * n + c) * 16 + k) * 4 + j =
      p * (n * (n * (lanes * 4))) + (r * (n * (lanes * 4)) + (c * (lanes * 4) + (k * 4 + j))) := by
    unfold lanes; ring
  have len1 : ∀ c : Nat, (invs.flatMap fun x => leBytes 4 (outputWord x p r c).toNat).length = lanes * 4 :=
    fun c => by rw [length_flatMap_const _ _ 4 fun x _ => by simp, hl]
  unfold gridOutput
  rw [e, getElem?_flatMap_const _ _ (n * (n * (lanes * 4))) (fun p _ => by
    rw [length_flatMap_const _ _ (n * (lanes * 4)) fun r _ => by
      rw [length_flatMap_const _ _ (lanes * 4) fun c _ => by
        rw [length_flatMap_const _ _ 4 fun x _ => by simp, hl]]
      simp]
    simp) _ _ hrr, List.getElem?_range hp, Option.bind_some,
    getElem?_flatMap_const _ _ (n * (lanes * 4)) (fun r _ => by
      rw [length_flatMap_const _ _ (lanes * 4) fun c _ => by
        rw [length_flatMap_const _ _ 4 fun x _ => by simp, hl]]
      simp) _ _ hcc, List.getElem?_range hr, Option.bind_some,
    getElem?_flatMap_const _ _ (lanes * 4) (fun c _ => len1 c) _ _ h1, List.getElem?_range hc,
    Option.bind_some, getElem?_flatMap_const _ _ 4 (fun x _ => by simp) _ _ hj, hx, Option.bind_some]

/-- Bytes and back (20_memory.md R73). -/
theorem leNat_leBytes (n v : Nat) : leNat (leBytes n v) = v % 256 ^ n := by
  induction n generalizing v with
  | zero => simp [leBytes, leNat, Nat.mod_one]
  | succ n ih =>
    simp only [leBytes, leNat, ih, BitVec.toNat_ofNat]
    show v % 2 ^ 8 + _ = _
    rw [show 256 ^ (n + 1) = 256 ^ n * 256 from rfl, Nat.mul_comm (256 ^ n) 256, Nat.mod_mul]

/-- Four bytes that spell a word read as it. -/
theorem Memory.readWord_of_bytes (m : Memory) (a : Nat) (w : Word)
    (h : ∀ j < 4, m.readByte (a + j) = (leBytes 4 w.toNat)[j]?) : m.readWord a = some w := by
  have hb : m.readBytes a 4 = some (leBytes 4 w.toNat) := by
    unfold Memory.readBytes
    rw [readAll_eq_some_iff]
    exact ⟨by simp, h⟩
  unfold Memory.readWord Memory.memRead
  rw [hb, Option.map_some, leNat_leBytes, Nat.mod_eq_of_lt (by simpa using w.isLt)]
  simp

/-- A run read back from inside a written run. -/
theorem Memory.readBytes_writeBytes (m : Memory) (a : Nat) (bs : List Byte) (o n : Nat)
    (h : o + n ≤ bs.length) : (m.writeBytes a bs).readBytes (a + o) n = some ((bs.drop o).take n) := by
  unfold Memory.readBytes
  rw [readAll_eq_some_iff]
  refine ⟨by simp; omega, fun i hi => ?_⟩
  rw [Nat.add_assoc, Memory.readByte_writeBytes_inside _ _ _ _ (by omega)]
  rw [List.getElem?_take_of_lt hi, List.getElem?_drop]
  simp

end Sys2Proof.Machine
end

