-- ==== Sys2Proof/Laws/PerInstr.lean ====
section
/-! SUPPORT. The per-instruction family `EncodedShape`: the encoder of a command gives a W0 whose opcode is
assigned and whose res0 bits are 0 (30_encoding.md R102, R107). -/

namespace Sys2Proof.Laws.EncodedShape

/-- The opcode of a command (30_encoding.md R104). -/
def opcode : Instr → BitVec 4
  | .nop => 0
  | .endList => 1
  | .jump _ => 2
  | .setout _ => 3
  | .config _ _ _ => 4
  | .demapBpsk _ _ _ _ _ => 5
  | .demapQpsk _ _ _ _ _ => 5
  | .demapQam16 _ _ _ _ _ => 5
  | .demapQam64 _ _ _ _ _ => 5
  | .demapQam256 _ _ _ _ _ => 5
  | .dmrsBpsk _ _ _ _ _ _ _ _ => 6
  | .dmrsQpsk _ _ _ _ _ _ _ _ => 6
  | .dmrsQam16 _ _ _ _ _ _ _ _ => 6
  | .dmrsQam64 _ _ _ _ _ _ _ _ => 6
  | .dmrsQam256 _ _ _ _ _ _ _ _ => 6
  | .cholinv _ _ _ => 7

/-- W0 of the encoding carries the command's opcode and no res0 bit. -/
def Statement (i : Instr) : Prop :=
  opOf (encode i).w0 = opcode i ∧ (encode i).w0 &&& res0Mask (opcode i) = 0

theorem nop : Statement .nop := ⟨rfl, rfl⟩

theorem endList : Statement .endList := ⟨rfl, rfl⟩

theorem jump (addr : Word) : Statement (.jump addr) :=
  ⟨rfl, (by decide : 2#32 &&& res0Mask 2 = 0)⟩

theorem setout (addr : Word) : Statement (.setout addr) :=
  ⟨rfl, (by decide : 3#32 &&& res0Mask 3 = 0)⟩

/-- The SHIFT field reaches neither the opcode nor the res0 bits. -/
theorem w0Config_shape : ∀ shift : BitVec 6,
    opOf (w0Config shift) = 4 ∧ w0Config shift &&& res0Mask 4 = 0 := by decide

theorem config (shift : BitVec 6) (low high : Half) : Statement (.config shift low high) :=
  w0Config_shape shift

theorem w0Demap_shape (m : Modulation) (lyr : Layers) (nsc : Subcarriers) :
    opOf (w0Demap m lyr nsc) = 5 ∧ w0Demap m lyr nsc &&& res0Mask 5 = 0 := by
  cases m <;> cases lyr <;> cases nsc <;> decide

theorem w0Dmrs_shape (m : Modulation) (lyr : Layers) (nsc : Subcarriers) (t : DmrsType) (c : CdmGroups)
    (p : PortParity) :
    opOf (w0Dmrs m lyr nsc t c p) = 6 ∧ w0Dmrs m lyr nsc t c p &&& res0Mask 6 = 0 := by
  cases m <;> cases lyr <;> cases nsc <;> cases t <;> cases c <;> cases p <;> decide

theorem w0Cholinv_shape : ∀ n : BitVec 5,
    opOf (w0Cholinv n) = 7 ∧ w0Cholinv n &&& res0Mask 7 = 0 := by decide

theorem demapBpsk (lyr : Layers) (nsc : Subcarriers) (sym beta winv : Word) :
    Statement (.demapBpsk lyr nsc sym beta winv) := w0Demap_shape .bpsk lyr nsc

theorem demapQpsk (lyr : Layers) (nsc : Subcarriers) (sym beta winv : Word) :
    Statement (.demapQpsk lyr nsc sym beta winv) := w0Demap_shape .qpsk lyr nsc

theorem demapQam16 (lyr : Layers) (nsc : Subcarriers) (sym beta winv : Word) :
    Statement (.demapQam16 lyr nsc sym beta winv) := w0Demap_shape .qam16 lyr nsc

theorem demapQam64 (lyr : Layers) (nsc : Subcarriers) (sym beta winv : Word) :
    Statement (.demapQam64 lyr nsc sym beta winv) := w0Demap_shape .qam64 lyr nsc

theorem demapQam256 (lyr : Layers) (nsc : Subcarriers) (sym beta winv : Word) :
    Statement (.demapQam256 lyr nsc sym beta winv) := w0Demap_shape .qam256 lyr nsc

theorem dmrsBpsk (lyr : Layers) (nsc : Subcarriers) (dtype : DmrsType) (ncdm : CdmGroups)
    (ppar : PortParity) (sym beta winv : Word) :
    Statement (.dmrsBpsk lyr nsc dtype ncdm ppar sym beta winv) := w0Dmrs_shape .bpsk lyr nsc dtype ncdm ppar

theorem dmrsQpsk (lyr : Layers) (nsc : Subcarriers) (dtype : DmrsType) (ncdm : CdmGroups)
    (ppar : PortParity) (sym beta winv : Word) :
    Statement (.dmrsQpsk lyr nsc dtype ncdm ppar sym beta winv) := w0Dmrs_shape .qpsk lyr nsc dtype ncdm ppar

theorem dmrsQam16 (lyr : Layers) (nsc : Subcarriers) (dtype : DmrsType) (ncdm : CdmGroups)
    (ppar : PortParity) (sym beta winv : Word) :
    Statement (.dmrsQam16 lyr nsc dtype ncdm ppar sym beta winv) := w0Dmrs_shape .qam16 lyr nsc dtype ncdm ppar

theorem dmrsQam64 (lyr : Layers) (nsc : Subcarriers) (dtype : DmrsType) (ncdm : CdmGroups)
    (ppar : PortParity) (sym beta winv : Word) :
    Statement (.dmrsQam64 lyr nsc dtype ncdm ppar sym beta winv) := w0Dmrs_shape .qam64 lyr nsc dtype ncdm ppar

theorem dmrsQam256 (lyr : Layers) (nsc : Subcarriers) (dtype : DmrsType) (ncdm : CdmGroups)
    (ppar : PortParity) (sym beta winv : Word) :
    Statement (.dmrsQam256 lyr nsc dtype ncdm ppar sym beta winv) := w0Dmrs_shape .qam256 lyr nsc dtype ncdm ppar

theorem cholinv (n : BitVec 5) (src dst : Word) : Statement (.cholinv n src dst) := w0Cholinv_shape n

end Sys2Proof.Laws.EncodedShape
end

