-- ==== Sys2Proof/Tests/Slice0.lean ====
section
/-! SUPPORT. Tests, and a witness for the hypotheses of each statement. Expected values come from the spec:
95_test_vectors.md (TV) and the worked examples of the rules. -/

namespace Sys2Proof.Machine

set_option Elab.async false

/-! ### Helpers -/

/-- Whether an answer is a next state. -/
def isNext : Answer → Bool
  | .next _ => true
  | .fault _ => false
  | .refused _ => false

/-- The next state of an answer, the reset state where there is none. -/
def nextOf : Answer → State
  | .next t => t
  | .fault _ => State.reset
  | .refused _ => State.reset

/-- The fault of an answer. -/
def faultOf : Answer → Option Fault
  | .next _ => none
  | .fault f => some f
  | .refused _ => none

theorem next_of_isNext {a : Answer} (h : isNext a = true) : a = .next (nextOf a) := by
  cases a <;> simp_all [isNext, nextOf]

/-- A command's 16 bytes from its four words. -/
def cmd (w0 w1 w2 w3 : Word) : List Byte := descriptorBytes ⟨w0, w1, w2, w3⟩

/-- The reset state, BUSY at CP = 0x40 with a descriptor there (TV section 5). -/
def at40 (w0 w1 w2 w3 : Word) : State :=
  { State.reset with engState := .busy, cp := 0x40, buf := Memory.writeBytes [] 0x40 (cmd w0 w1 w2 w3) }

/-- The int16 values of a lane run as bytes. -/
def halves (vs : List Int) : List Byte := vs.flatMap fun v => leBytes 2 (BitVec.ofInt 16 v).toNat

/-- The state `at40` with (I, Q) of some lanes at 0x1000, one β at 0x1100 and one w at 0x1200 for `n` lanes,
and OUTP = 0x4000. -/
def lanes40 (w0 : Word) (iq : List Int) (beta w : Int) (n : Nat) : State :=
  { at40 w0 0x1000 0x1100 0x1200 with
    outp := 0x4000
    buf := (((at40 w0 0x1000 0x1100 0x1200).buf.writeBytes 0x1000 (halves iq)).writeBytes 0x1100
      (halves (List.replicate n beta))).writeBytes 0x1200 (halves (List.replicate n w)) }

/-- `n` signed bytes of a state's BUF. -/
def bytesAt (s : State) (a n : Nat) : Option (List Int) := (s.buf.readBytes a n).map (·.map BitVec.toInt)

/-- Word `k` of an N = 2 input: lane 0 is [[4, 2], [2, 5]], the other lanes the identity (TV 6.1). -/
def grid2 (k : Nat) : Word :=
  match k / 16, k % 16 with
  | 0, 0 => 0x40800000
  | 0, _ => 0x3F800000
  | 2, 0 => 0x40000000
  | 3, 0 => 0x40A00000
  | 3, _ => 0x3F800000
  | _, _ => 0

/-- The words `k` to `k + n - 1` of a run that starts at an offset, as cells. -/
def wordCells (a k n : Nat) (f : Nat → Word) : Memory :=
  (List.range n).flatMap fun j =>
    [(a + 4 * (k + j), (f (k + j)).extractLsb' 0 8), (a + 4 * (k + j) + 1, (f (k + j)).extractLsb' 8 8),
     (a + 4 * (k + j) + 2, (f (k + j)).extractLsb' 16 8), (a + 4 * (k + j) + 3, (f (k + j)).extractLsb' 24 8)]

/-- The grid at 0x80 without the upper triangle, which stays unwritten. -/
def gridCells : Memory := wordCells 0x80 0 16 grid2 ++ wordCells 0x80 32 48 grid2 ++ wordCells 0x80 96 32 grid2

/-- BUSY with `gridCells` in BUF. -/
def chol40 : State := { State.reset with engState := .busy, cp := 0x40, buf := gridCells }

/-- What CHOLINV reads of `gridCells`. -/
def lanes2 : List (List (List Cplx)) :=
  [[⟨0x40800000, 0⟩], [⟨0x40000000, 0⟩, ⟨0x40A00000, 0⟩]] ::
    List.replicate 15 [[⟨0x3F800000, 0⟩], [⟨0, 0⟩, ⟨0x3F800000, 0⟩]]

/-- BUSY at CP with nothing written. -/
def atCp (cp : Word) : State := { State.reset with engState := .busy, cp := cp }

/-! ### WellFormed -/

/-- The matrix sizes 0, 1, 17 and 31 are refused, 2 and 16 are not (30_encoding.md R106). -/
theorem test_wellFormed_cholinv :
    [0, 1, 17, 31, 2, 16].map (fun n : BitVec 5 => wellFormed (.cholinv n 0x100 0x800)) =
      [false, false, false, false, true, true] := by decide

/-- The decoder refuses the same sizes, by name (TV section 7). -/
theorem test_decode_refuses_sizes :
    ([0x00000007, 0x00000017, 0x00000117, 0x000001F7].map fun w0 : Word => decodeWords ⟨w0, 0x100, 0x800, 0⟩) =
      List.replicate 4 (.error .invalidConfig) := by decide

/-! ### Decoding: one word for every constructor (30_encoding.md R102, R105, R111; TV section 3) -/

theorem test_decode_control :
    decodeTableWord 32 0x00000000 = some .nop ∧
    decodeTableWord 32 0x00000001 = some .endList ∧
    decodeTableWord 64 0x0000004000000002 = some (.jump 0x40) ∧
    decodeTableWord 64 0x0000100000000003 = some (.setout 0x1000) ∧
    decodeTableWord 64 0x007FFF8000000254 = some (.config 37 0xFF80 0x007F) ∧
    decodeTableWord 64 0x0064FF9C00000254 = some (.config 37 0xFF9C 0x0064) ∧
    decodeTableWord 96 0x00000C000000040000000027 = some (.cholinv 2 0x400 0xC00) ∧
    decodeTableWord 96 0x000180000001800000000107 = some (.cholinv 16 0x18000 0x18000) := by decide +kernel

theorem test_decode_demap :
    decodeTableWord 128 0x00000003000000020000000100000305 = some (.demapBpsk .one .n16 1 2 3) ∧
    decodeTableWord 128 0x00000160000001400000010000000015 = some (.demapQpsk .one .n4 0x100 0x140 0x160) ∧
    decodeTableWord 128 0x00000395 = some (.demapQpsk .two .n16 0 0 0) ∧
    decodeTableWord 128 0x000016000000150000001400000000A5 =
      some (.demapQam16 .two .n4 0x1400 0x1500 0x1600) ∧
    decodeTableWord 128 0x00000003000000020000000100000235 = some (.demapQam64 .one .n12 1 2 3) ∧
    decodeTableWord 128 0x00000345 = some (.demapQam256 .one .n16 0 0 0) := by decide +kernel

theorem test_decode_dmrs :
    decodeTableWord 128 0x00000B06 = some (.dmrsBpsk .one .n16 .type1 .two .even 0 0 0) ∧
    decodeTableWord 128 0x00000003000000020000000100001116 =
      some (.dmrsQpsk .one .n8 .type1 .one .odd 1 2 3) ∧
    decodeTableWord 128 0x00000FA6 = some (.dmrsQam16 .two .n16 .type2 .two .even 0 0 0) ∧
    decodeTableWord 128 0x00000636 = some (.dmrsQam64 .one .n12 .type2 .one .even 0 0 0) ∧
    decodeTableWord 128 0x00000FC6 = some (.dmrsQam256 .two .n16 .type2 .two .even 0 0 0) := by decide +kernel

/-- The decoding corner cases of TV section 3. -/
theorem test_decode_errors :
    decodeWords ⟨0x0000FFFF, 0, 0, 0⟩ = .error .illegalOpcode ∧
    decodeWords ⟨0x00010075, 0, 0, 0⟩ = .error .reservedField ∧
    decodeWords ⟨0x00000012, 0x44, 0, 0⟩ = .error .reservedField ∧
    decodeWords ⟨0x00000055, 0x1FFFF, 0, 0⟩ = .error .invalidConfig ∧
    decodeTableWord 32 0x00000008 = none := by decide +kernel

/-! ### The fetch hook -/

/-- A table word placed after reset is what the next step runs. -/
theorem test_withFetchWord :
    (nextOf (step (State.reset.withFetchWord 64 0x0000004000000002))).cp = 0x40 ∧
    (nextOf (step (State.reset.withFetchWord 32 0x00000000))).cp = 0x10 ∧
    (nextOf (step (State.reset.withFetchWord 32 0x00000008))).errCode = 1 := by decide +kernel

/-! ### One step of each command (TV sections 2, 4, 5, 6; R173 to R177, R208 to R212) -/

theorem test_nop :
    step (at40 0 0xAA 0xBB 0xCC) =
      .next { at40 0 0xAA 0xBB 0xCC with cp := 0x50, cmdCount := 1 } :=
  (next_of_isNext (by decide +kernel)).trans (congrArg _ (by decide +kernel))

theorem test_end :
    (let t := nextOf (step (at40 1 0 0 0)); (t.engState, t.cp, t.cmdCount, t.irqStatus)) =
      (.idle, 0x50, 1, 0b0001) := by decide +kernel

theorem test_jump :
    (let t := nextOf (step (at40 2 0x100 0 0)); (t.engState, t.cp, t.cmdCount)) = (.busy, 0x100, 1) := by
  decide +kernel

theorem test_jump_misaligned :
    (let t := nextOf (step (at40 2 0x44 0 0)); (t.engState, t.cp, t.cmdCount, t.errCode, t.errCp, t.errInfo)) =
      (.error, 0x40, 0, 5, 0x40, 0x44) := by decide +kernel

theorem test_setout :
    (let t := nextOf (step (at40 3 0x1FFFF 0 0)); (t.outp, t.cp, t.cmdCount)) = (0x1FFFF, 0x50, 1) := by
  decide +kernel

theorem test_config :
    (let t := nextOf (step (at40 0x3F4 0x0005000A 0 0));
      (t.engState, t.shift, t.low, t.high, t.cp)) = (.busy, 63, 10, 5, 0x50) := by decide +kernel

theorem test_demapBpsk :
    (let t := nextOf (step (lanes40 0x005 [2896, 2896, 2896, -4000, 16384, 0, 3, 0] 0 16384 4));
      (bytesAt t 0x4000 2, t.outp, t.lastCount)) = (some [8, -2], 0x4004, 4) := by decide +kernel

theorem test_demapQpsk :
    (let t := nextOf (step (lanes40 0x015 [4096, -2048, 1000, 2000, 2000, 4000, 0, 0] 0 16384 4));
      (bytesAt t 0x4000 8, t.buf.readByte 0x4008, t.cmdCount)) =
      (some [11, -6, 3, 6, 6, 11, 0, 0], none, 1) := by decide +kernel

theorem test_demapQam16 :
    bytesAt (nextOf (step (lanes40 0x025 [6000, -1000, 0, 0, 3000, -3000, 2591, -2592] 4096 16384 4))) 0x4000 16 =
      some [12, -1, -4, 2, 0, 0, 3, 3, 4, -4, -1, -1, 3, -3, 0, 0] := by decide +kernel

theorem test_demapQam64 :
    bytesAt (nextOf (step (lanes40 0x035 [3000, -5000, 1517, -1518, 3034, -3035, 4551, -4552] 4915 20480 4)))
      0x4000 24 =
      some [3, -8, 0, -2, 1, 0, 1, -1, 1, 1, 0, 0, 3, -3, 0, 0, 1, 1, 7, -7, -1, -1, 0, 0] := by decide +kernel

theorem test_demapQam256 :
    bytesAt (nextOf (step (lanes40 0x045 [7000, -2500, 879, -880, 6200, -7000, -32768, 32767] 5734 27307 4)))
      0x4000 32 =
      some [16, -2, -4, 1, -1, 0, 0, 0, 0, 0, 3, 3, 0, 0, 0, 0, 12, -16, -3, -4, 0, -1, 0, 0,
        -119, 119, -56, -56, -27, -27, -13, -13] := by decide +kernel

/-- An error row of TV section 7: SYM is one byte too high for two layers. -/
theorem test_demapQpsk_range :
    (let t := nextOf (step (at40 0x395 0x1FF84 0 0));
      (t.engState, t.errCode, t.errInfo, t.errCp, t.outp, t.irqStatus)) =
      (.error, 4, 0x1FF84, 0x40, 0, 0b0010) := by decide +kernel

theorem test_dmrsBpsk :
    (let t := nextOf (step (lanes40 0x006 [1000, 1000, 2896, 2896, -500, -500, 2896, -4000] 0 16384 4));
      (bytesAt t 0x4000 2, t.outp, t.lastCount, t.buf.readByte 0x4002)) =
      (some [8, -2], 0x4002, 2, none) := by decide +kernel

theorem test_dmrsQpsk :
    bytesAt (nextOf (step (lanes40 0x016 [0, 0, 4096, -2048, 0, 0, -4096, 2048] 0 16384 4))) 0x4000 4 =
      some [11, -6, -11, 6] := by decide +kernel

theorem test_dmrsQam16 :
    (let t := nextOf (step (lanes40 0x526
        [1000, -500, -2000, 600, 3000, -700, -4000, 800, 5000, -900, -6000, 1000, 7000, -1100, -8000, 1200]
        4096 16384 8));
      (bytesAt t 0x4000 16, t.outp, t.lastCount)) =
      (some [4, -1, -1, 2, -7, 1, -2, 2, 9, -1, -3, 2, -12, 1, -4, 2], 0x4010, 16) := by decide +kernel

theorem test_dmrsQam64 :
    (let t := nextOf (step (lanes40 0x636 ((List.replicate 12 [3000, -5000]).flatten) 4915 20480 12));
      (bytesAt t 0x402A 6, t.lastCount)) = (some [3, -8, 0, -2, 1, 0], 48) := by decide +kernel

/-- Key (type 2, one group), nSc = 4: the mask selects lanes 2 and 3. -/
theorem test_dmrsQam256 :
    (let t := nextOf (step (lanes40 0x446 [0, 0, 0, 0, 7000, -2500, 879, -880] 5734 27307 4));
      (bytesAt t 0x4000 16, t.lastCount)) =
      (some [16, -2, -4, 1, -1, 0, 0, 0, 0, 0, 3, 3, 0, 0, 0, 0], 16) := by decide +kernel

/-- The read set of CHOLINV leaves out the upper triangle (43_cholesky.md R231). -/
theorem test_readGrids : readGrids chol40.buf 0x80 2 = some lanes2 := by decide +kernel

theorem exec_chol40 : exec (.cholinv 2 0x80 0x400) chol40 =
    .next ((chol40.writeBuf 0x400 (gridOutput 2 (chol40.laneInverses 2 lanes2))).pendNpd
      (chol40.laneInverses 2 lanes2)).advance :=
  execCholinv_completes ((chol40.cholinvError_eq_none_iff 2 0x80 0x400).mpr (by decide)) test_readGrids

/-- Lane 0 of TV 6.1 (R242's example), by four of its output words. -/
theorem test_cholinv :
    ∃ t, exec (.cholinv 2 0x80 0x400) chol40 = .next t ∧ t.cp = 0x50 ∧
      ([0, 128, 192, 320].map fun d => t.buf.readWord (0x400 + d)) =
        [0x3EA00000, 0xBE000000, 0x3E800000, 0x80000000].map some := by
  refine ⟨_, exec_chol40, ?_, ?_⟩ <;> rw [State.pendNpd_eq] <;> decide +kernel

/-- Lane 3 of TV 6.1, not positive definite: NaN, and the pivot diagnostic. -/
theorem test_cholinv_npd :
    (let x := invertLane rsqrtExact 2 [[⟨0x3F800000, 0⟩], [⟨0x40000000, 0⟩, ⟨0x3F800000, 0⟩]];
      ([(0, 0, 0), (0, 1, 0), (1, 0, 1), (1, 1, 0), (1, 1, 1)].map fun i => outputWord x i.1 i.2.1 i.2.2, x.npd)) =
      ([0x7FC00000, 0x7FC00000, 0xFFC00000, 0x7FC00000, 0x00000000], true) := by decide +kernel

/-! ### Witnesses: the hypotheses of each statement can be met, clause by clause -/

/-- The fetch clauses that the control statements share: the boundary of the range, and above 2^32 - 16. -/
theorem witness_FetchRangeChecked :
    ∀ cp ∈ [0x1FFF1, 0xFFFFFFF0],
      (atCp (BitVec.ofNat 32 cp)).engState = .busy ∧ (atCp (BitVec.ofNat 32 cp)).inbox = [] ∧
        ¬ (atCp (BitVec.ofNat 32 cp)).inRange (BitVec.ofNat 32 cp) 16 := by decide +kernel

theorem witness_NopOnlyAdvances :
    (∀ w ∈ [0x0, 0x10, 0x80000000], EngineFetches (at40 (BitVec.ofNat 32 w) 7 8 9) ⟨BitVec.ofNat 32 w, 7, 8, 9⟩ ∧
      opOf (BitVec.ofNat 32 w) = 0) ∧
    ((atCp 0x1FFF0).engState = .busy ∧ (atCp 0x1FFF0).inbox = [] ∧ (atCp 0x1FFF0).inRange 0x1FFF0 16 ∧
      ¬ (atCp 0x1FFF0).buf.initialised 0x1FFF0 16) := by decide +kernel

theorem witness_EndStopsAndSignalsDone :
    (∀ w ∈ [0x1, 0x11, 0x80000001], EngineFetches (at40 (BitVec.ofNat 32 w) 0 0 0) ⟨BitVec.ofNat 32 w, 0, 0, 0⟩ ∧
      opOf (BitVec.ofNat 32 w) = 1) ∧
    ∃ t, (atCp 0x1FFF0).params.legal ∧ (atCp 0x1FFF0).inbox = [] ∧
      (atCp 0x1FFF0).cp.toNat + 16 = (atCp 0x1FFF0).params.bufBytes ∧
      exec .endList (atCp 0x1FFF0) = .next t :=
  ⟨by decide +kernel, _, by decide +kernel, rfl, by decide +kernel, rfl⟩

theorem witness_JumpNeedsAlignedTarget :
    (aligned16 0x0 ∧ aligned16 0x10 ∧ aligned16 0xFFFFFFF0) ∧
    (¬ aligned16 0x1 ∧ ¬ aligned16 0x8 ∧ ¬ aligned16 0xFFFFFFFF) ∧
    (∀ w ∈ [0x2, 0x12], EngineFetches (at40 (BitVec.ofNat 32 w) 0x44 0 0) ⟨BitVec.ofNat 32 w, 0x44, 0, 0⟩ ∧
      opOf (BitVec.ofNat 32 w) = 2) ∧
    ∃ t, aligned16 0x20000 ∧ ¬ (atCp 0).inRange 0x20000 16 ∧ exec (.jump 0x20000) (atCp 0) = .next t :=
  ⟨by decide +kernel, by decide +kernel, by decide +kernel, _, by decide +kernel, by decide +kernel, next_of_isNext (by decide +kernel)⟩

theorem witness_SetoutSetsOnlyOutp :
    ∀ w ∈ [0x3, 0x13], EngineFetches (at40 (BitVec.ofNat 32 w) 0x1FFFF 0 0) ⟨BitVec.ofNat 32 w, 0x1FFFF, 0, 0⟩ ∧
      opOf (BitVec.ofNat 32 w) = 3 := by
  decide +kernel

theorem witness_ConfigSetsAllThree :
    (∀ w ∈ [0x4, 0x3F4, 0x404], EngineFetches (at40 (BitVec.ofNat 32 w) 0 0 0) ⟨BitVec.ofNat 32 w, 0, 0, 0⟩ ∧
      opOf (BitVec.ofNat 32 w) = 4) ∧
    ((5 : Half).toInt < (6 : Half).toInt ∧ isNext (exec (.config 0 6 5) (atCp 0)) = true) ∧
    ((0x8000 : Half).toInt < (0x7FFF : Half).toInt ∧ isNext (exec (.config 0 0x7FFF 0x8000) (atCp 0)) = true) := by decide +kernel

theorem witness_StepRunsDecodedCommand :
    ((at40 2 0x40 0 0).engState = .busy ∧ (at40 2 0x40 0 0).inRange 0x40 16 ∧
      (at40 2 0x40 0 0).buf.initialised 0x40 16) ∧
    (EngineFetches (at40 2 0x40 0 0) ⟨2, 0x40, 0, 0⟩ ∧ decodeWords ⟨2, 0x40, 0, 0⟩ = .ok (.jump 0x40)) ∧
    (EngineFetches (at40 0xFFFF 0 0 0) ⟨0xFFFF, 0, 0, 0⟩ ∧ decodeWords ⟨0xFFFF, 0, 0, 0⟩ = .error .illegalOpcode) ∧
    (((at40 2 0x40 0 0).withInbox [.engineTurn, .hardwareReset]).engState = .busy ∧
      ((at40 2 0x40 0 0).withInbox [.engineTurn, .hardwareReset]).inbox = .engineTurn :: [.hardwareReset] ∧
      ((at40 2 0x40 0 0).withInbox [.engineTurn, .hardwareReset]).fetch = .ok ⟨2, 0x40, 0, 0⟩) ∧
    (((at40 0xFFFF 0 0 0).withInbox [.engineTurn]).engState = .busy ∧
      ((at40 0xFFFF 0 0 0).withInbox [.engineTurn]).inbox = .engineTurn :: [] ∧
      ((at40 0xFFFF 0 0 0).withInbox [.engineTurn]).fetch = .ok ⟨0xFFFF, 0, 0, 0⟩) := by
  decide +kernel

theorem witness_StoppedEngineChangesNothing :
    ∀ e ∈ [EngState.idle, .error], ({ atCp 0 with engState := e } : State).engState ≠ .busy ∧
      ({ atCp 0 with engState := e } : State).inbox = [] := by decide +kernel

theorem witness_StepServesFirstEvent :
    (State.reset.withInbox [.access (.read 0 4), .engineTurn]).inbox = .access (.read 0 4) :: [.engineTurn] ∧
    (State.reset.withInbox [.hardwareReset]).inbox = .hardwareReset :: [] := ⟨rfl, rfl⟩

theorem witness_ErrorEntryWritesItsRegisters :
    ∃ t, raise .bufRange 0x20000 (atCp 0x20000) = .next t ∧ t.inbox = [] := ⟨_, rfl, rfl⟩

theorem witness_ErrorsArePrecise :
    ∃ t, (atCp 0).engState = .busy ∧ exec (.jump 1) (atCp 0) = .next t ∧ t.engState = .error :=
  ⟨_, rfl, next_of_isNext (by decide +kernel), by decide +kernel⟩

/-- An error and a completion. -/
theorem witness_CommandsCompleteOrRaise :
    (atCp 0).engState = .busy ∧ (∃ t, exec (.jump 1) (atCp 0) = .next t) ∧
      (∃ t, exec .endList (atCp 0) = .next t) ∧ (∃ t, exec (.cholinv 1 0 0) (atCp 0) = .next t) :=
  ⟨rfl, ⟨_, next_of_isNext (by decide +kernel)⟩, ⟨_, rfl⟩, ⟨_, next_of_isNext (by decide +kernel)⟩⟩

/-- Opcodes 8 and 15; the lowest and highest res0 bits; MOD 4 and 5; N of 1, 2, 16 and 17. -/
theorem witness_DecodeErrorsInOrder :
    (∀ w ∈ [0x8, 0xF], 8 ≤ (opOf (BitVec.ofNat 32 w)).toNat) ∧
    (∀ w ∈ [0x10, 0x80000000, 0x405, 0x2006, 0x207],
      (opOf (BitVec.ofNat 32 w)).toNat < 8 ∧ BitVec.ofNat 32 w &&& res0Mask (opOf (BitVec.ofNat 32 w)) ≠ 0) ∧
    (∀ w ∈ [0x45, 0x55, 0x46, 0x56, 0x17, 0x27, 0x107, 0x117, 0x0],
      (opOf (BitVec.ofNat 32 w)).toNat < 8 ∧ BitVec.ofNat 32 w &&& res0Mask (opOf (BitVec.ofNat 32 w)) = 0) ∧
    decodeWords ⟨0x45, 0, 0, 0⟩ ≠ .error .invalidConfig := by decide +kernel

theorem witness_DecodeOfEncode :
    WellFormed (.cholinv 2 0x400 0xC00) ∧ WellFormed (.cholinv 16 0 0) ∧ WellFormed (.jump 0xFFFFFFFF) := by decide +kernel

theorem witness_EncodeOfDecode :
    decodeWords ⟨0x27, 0x400, 0xC00, 5⟩ = .ok (.cholinv 2 0x400 0xC00) ∧
    decodeWords ⟨0xA5, 1, 2, 3⟩ = .ok (.demapQam16 .two .n4 1 2 3) := by decide +kernel

theorem witness_AssembledCommandsDecode :
    (8 % 16 ≠ 0) ∧ asmCommand [] (.cholinv 1 (.num 0) (.num 0)) = none ∧
    (0x40 % 16 = 0 ∧ asmCommand [("l", 0x100)] (.jump (.label "l")) = some (.jump 0x100)) := by decide +kernel

/-- The ends of the operand ranges of R109, the parity of the port, and a label with two definitions. -/
theorem witness_AssemblyLinesNameCommands :
    asmCommand [("l", 0x40), ("l", 0x80)] (.jump (.label "l")) = some (.jump 0x40) ∧
    asmCommand [] (.setout (.num 0xFFFFFFFF)) = some (.setout 0xFFFFFFFF) ∧
    asmCommand [] (.setout (.num 0x100000000)) = none ∧
    asmCommand [] (.config 63 (-32768) 32767) = some (.config 63 0x8000 0x7FFF) ∧
    asmCommand [] (.config 64 0 0) = none ∧ asmCommand [] (.config 0 (-32769) 0) = none ∧
    asmCommand [] (.demap .qpsk (.given 1 4) (.num 1) (.num 2) (.num 3)) = some (.demapQpsk .one .n4 1 2 3) ∧
    asmCommand [] (.demap .qpsk (.given 3 4) (.num 1) (.num 2) (.num 3)) = none ∧
    asmCommand [] (.demapDmrs .bpsk (.given 2 16) 2 1 3 (.num 1) (.num 2) (.num 3)) =
      some (.dmrsBpsk .two .n16 .type2 .one .odd 1 2 3) ∧
    asmCommand [] (.cholinv 16 (.num 0) (.num 8)) = some (.cholinv 16 0 8) ∧
    asmCommand [] (.cholinv 17 (.num 0) (.num 8)) = none := by decide +kernel

/-- The demap hypotheses at the end of BUF, for every order: OUTP is the last place the bytes fit. -/
def demapEdge (order : Modulation) : State :=
  { lanes40 0x045 [7000, -2500, 0, 0, 1, 1, 2, 2] 5734 27307 4 with
    outp := 0x20000 - BitVec.ofNat 32 (4 * bitsPerSymbol order) }

theorem witness_DemapStoresItsLlrs :
    ∀ o ∈ [Modulation.bpsk, .qpsk, .qam16, .qam64, .qam256],
      (demapEdge o).low.toInt ≤ (demapEdge o).high.toInt ∧
      inputsInRange (demapEdge o) .one .n4 0x1000 0x1100 0x1200 ∧
      (demapEdge o).inRange (demapEdge o).outp (subcarrierCount .n4 * layerCount .one * bitsPerSymbol o) ∧
      batchInitialised (demapEdge o).buf 0x1000 0x1100 0x1200 .one .n4 := by decide +kernel

/-- Two selected lanes of four; OUTP is the last place their bytes fit. -/
theorem witness_DmrsStoresSelectedLlrs :
    let s := { demapEdge .qpsk with outp := 0x1FFFC }
    [1, 3] = dmrsLanes s.params .n4 .type1 .one .even ∧ s.low.toInt ≤ s.high.toInt ∧
      inputsInRange s .one .n4 0x1000 0x1100 0x1200 ∧
      s.inRange s.outp ([1, 3].length * layerCount .one * bitsPerSymbol .qpsk) ∧
      batchInitialised s.buf 0x1000 0x1100 0x1200 .one .n4 := by decide +kernel

theorem witness_InvertedBoundsRaise :
    ({ atCp 0 with low := 6, high := 5 } : State).high.toInt < ({ atCp 0 with low := 6, high := 5 } : State).low.toInt := by
  decide +kernel

/-- Each region one byte beyond BUF, the earlier ones at its end; one layer and two. -/
theorem witness_DemapRangeErrorsInOrder :
    let s := { atCp 0 with outp := 0x1FFF9 }
    s.low.toInt ≤ s.high.toInt ∧ 8 = subcarrierCount .n4 * layerCount .one * bitsPerSymbol .qpsk ∧
    4 = (dmrsLanes s.params .n4 .type1 .one .even).length * layerCount .one * bitsPerSymbol .qpsk ∧
    ¬ s.inRange 0x1FFF1 (64 * (layerCount .one - 1) + 4 * subcarrierCount .n4) ∧
    ¬ s.inRange 0x1FF81 (64 * (layerCount .two - 1) + 4 * subcarrierCount .n16) ∧
    (s.inRange 0x1FFF0 (64 * (layerCount .one - 1) + 4 * subcarrierCount .n4) ∧
      ¬ s.inRange 0x1FFF9 (32 * (layerCount .one - 1) + 2 * subcarrierCount .n4)) ∧
    (s.inRange 0x1FFF8 (32 * (layerCount .one - 1) + 2 * subcarrierCount .n4) ∧
      ¬ s.inRange 0xFFFFFFF0 (32 * (layerCount .one - 1) + 2 * subcarrierCount .n4)) ∧
    (inputsInRange s .one .n4 0x1FFF0 0x1FFF8 0x1FFF8 ∧ ¬ s.inRange s.outp 8) := by decide +kernel

theorem witness_DemapFaultsOnUnwrittenInput :
    (atCp 0).low.toInt ≤ (atCp 0).high.toInt ∧ inputsInRange (atCp 0) .one .n4 0 0 0 ∧
    ¬ batchInitialised (atCp 0).buf 0 0 0 .one .n4 ∧
    (atCp 0).inRange (atCp 0).outp (subcarrierCount .n4 * layerCount .one * bitsPerSymbol .qpsk) ∧
    (atCp 0).inRange (atCp 0).outp
      ((dmrsLanes (atCp 0).params .n4 .type1 .one .even).length * layerCount .one * bitsPerSymbol .qpsk) := by
  decide +kernel

theorem witness_FullMaskIsPlainDemap :
    let s := { atCp 0 with params := { specParams with dmrsSel := { dmrsSelDefault with m000 := 0xFFFF } } }
    dmrsMask s.params.dmrsSel .type1 .one .even = 0xFFFF ∧ s.low.toInt ≤ s.high.toInt := by decide +kernel

/-- No lane selected, with OUTP = BUF_BYTES (TV section 4). -/
theorem witness_NoSelectedLaneWritesNothing :
    let s := { demapEdge .qpsk with outp := 0x20000 }
    dmrsLanes s.params .n4 .type1 .two .even = [] ∧ s.low.toInt ≤ s.high.toInt ∧
      inputsInRange s .one .n4 0x1000 0x1100 0x1200 ∧ s.outp.toNat ≤ s.params.bufBytes ∧
      batchInitialised s.buf 0x1000 0x1100 0x1200 .one .n4 := by decide +kernel

theorem witness_DefaultDmrsCounts : specParams.dmrsSel = dmrsSelDefault := rfl

theorem witness_DmrsIsSubsequenceOfDemap :
    let s := demapEdge .qpsk
    s.low.toInt ≤ s.high.toInt ∧ inputsInRange s .one .n4 0x1000 0x1100 0x1200 ∧
      s.inRange s.outp (subcarrierCount .n4 * layerCount .one * bitsPerSymbol .qpsk) ∧
      batchInitialised s.buf 0x1000 0x1100 0x1200 .one .n4 ∧
      (dmrsLanes s.params .n4 .type1 .one .even)[1]? = some 3 := by decide +kernel

/-- The second memory differs in an input byte of lane 0, which the key does not select. -/
theorem witness_UnselectedLanesDoNotLeak :
    ∃ t u, let s := demapEdge .qpsk
      let m := s.buf.writeBytes 0x1000 [0xFF]
      s.buf ≠ m ∧
      (∀ i ∈ dmrsLanes s.params .n4 .type1 .one .even, ∀ l < layerCount .one,
        s.buf.agree m ((0x1000 : Word).toNat + 64 * l + 4 * i) 4 ∧
          s.buf.agree m ((0x1100 : Word).toNat + 32 * l + 2 * i) 2 ∧
          s.buf.agree m ((0x1200 : Word).toNat + 32 * l + 2 * i) 2) ∧
      s.engState = .busy ∧
      exec (dmrsInstr .qpsk .one .n4 .type1 .one .even 0x1000 0x1100 0x1200) s = .next t ∧ t.engState = .busy ∧
      exec (dmrsInstr .qpsk .one .n4 .type1 .one .even 0x1000 0x1100 0x1200) { s with buf := m } = .next u :=
  ⟨_, _, by decide +kernel, by decide +kernel, rfl, next_of_isNext (by decide +kernel), by decide +kernel,
    next_of_isNext (by decide +kernel)⟩

theorem witness_CascadePicksHighestExceeded : segTable .qam256 1 ≠ [] ∧ segTable .bpsk 0 ≠ [] := by decide +kernel

theorem witness_TablesAreContinuous :
    ((segTable .qam256 0)[6]? = some ⟨6, 7, -21⟩ ∧ (segTable .qam256 0)[6 + 1]? = some ⟨7, 8, -28⟩) ∧
    (∀ c ∈ [(⟨0, 3, 3⟩ : LlrConfig), ⟨1, -128, 127⟩, ⟨63, -32768, 32767⟩], c.low ≤ c.high) ∧
    (⟨0, 3, 3⟩ : LlrConfig).shift = 0 ∧ (⟨1, -128, 127⟩ : LlrConfig).shift = 0 + 1 ∧
    (⟨63, -32768, 32767⟩ : LlrConfig).shift = 62 + 1 := by decide +kernel

theorem witness_SignBitIsOdd : ((0 : Int) ≠ 0 ∨ (0 : Int) ≤ 0) ∧ ((1 : Int) ≠ 0 ∨ (0 : Int) ≤ -1) := by decide +kernel

theorem witness_StoredLlrsAreBounded :
    (∀ c ∈ [(⟨37, -5, 5⟩ : LlrConfig), ⟨37, 3, 3⟩], c.low ≤ c.high ∧
      (llrVec .qpsk c ⟨4096, -2048, 0, 16384⟩)[0]? = some (sat8 c.high)) ∧ (3 : Int) ≤ 3 := by decide +kernel

/-- The one pair that saturates, and its neighbour. -/
theorem witness_RoundedMulHighSaturatesOnce :
    ((0x8000 : Half).toInt = -32768 ∧ (0x8000 : Half).toInt = -32768) ∧
    ¬ ((0x8000 : Half).toInt = -32768 ∧ (0x8001 : Half).toInt = -32768) := by decide +kernel

theorem witness_DemapCornerValues :
    ((0 : Int) ≤ 0 ∧ (-1 : Int) < 0 ∧ (segTable .qam64 0).getLast? = some ⟨3, 4, -6⟩) ∧
    ((⟨1, 1, 1, 0⟩ : LaneInput).w = 0 ∧ (0 : Int) ∈ llrVec .qam16 ⟨37, -128, 127⟩ ⟨1, 1, 1, 0⟩) ∧
    ((⟨37, 3, 3⟩ : LlrConfig).low = (⟨37, 3, 3⟩ : LlrConfig).high ∧
      (3 : Int) ∈ llrVec .qpsk ⟨37, 3, 3⟩ ⟨4096, -2048, 0, 16384⟩) := by decide +kernel

theorem witness_CholinvStoresInverses :
    legalSize 2 ∧ chol40.inRange 0x80 (128 * (2 : BitVec 5).toNat * (2 : BitVec 5).toNat) ∧
      chol40.inRange 0x1FE00 (128 * (2 : BitVec 5).toNat * (2 : BitVec 5).toNat) ∧
      gridInitialised chol40.buf (0x80 : Word).toNat (2 : BitVec 5).toNat :=
  ⟨by decide +kernel, by decide +kernel, by decide +kernel,
    (readGrids_ne_none_iff chol40.buf 0x80 2).mp (by rw [test_readGrids]; simp)⟩

/-- N of 1 and 17; SRC and then DST one byte beyond BUF; nothing written. -/
theorem witness_CholinvErrorsInOrder :
    (¬ legalSize 1 ∧ ¬ legalSize 17) ∧ (legalSize 2 ∧ ¬ (atCp 0).inRange 0x1FE01 (128 * 2 * 2)) ∧
    (legalSize 16 ∧ (atCp 0).inRange 0x18000 (128 * 16 * 16) ∧ ¬ (atCp 0).inRange 0x18001 (128 * 16 * 16)) ∧
    (legalSize 2 ∧ (atCp 0).inRange 0x1FE00 (128 * 2 * 2) ∧ ¬ gridInitialised (atCp 0).buf 0x1FE00 2) := by
  decide +kernel

theorem witness_CholinvOutputIsHermitian : (0 < 2 ∧ 1 < 2) ∧ (0 : Nat) ≠ 1 ∧ (0 : Nat) < 1 ∧ 1 ≤ 1 := by decide +kernel

/-- The second memory differs in the real part of an upper-triangle element of lane 0. -/
theorem witness_CholinvLanesAreIndependent :
    ∃ t u, let m := chol40.buf.writeBytes 0xC0 [1]
      chol40.buf ≠ m ∧ 0 < lanes ∧
      (∀ p < 2, ∀ r < (2 : BitVec 5).toNat, ∀ c < (2 : BitVec 5).toNat, (c < r ∨ (c = r ∧ p = 0)) →
        chol40.buf.agree m (elemAddr (0x80 : Word).toNat (2 : BitVec 5).toNat p r c 0) 4) ∧
      chol40.engState = .busy ∧ exec (.cholinv 2 0x80 0x400) chol40 = .next t ∧ t.engState = .busy ∧
      exec (.cholinv 2 0x80 0x400) { chol40 with buf := m } = .next u := by
  have hm : readGrids (chol40.buf.writeBytes 0xC0 [1]) 0x80 2 ≠ none := by
    rw [readGrids_ne_none_iff]
    intro p hp r hr c hc k hk j hj
    rw [Memory.readByte_writeBytes]
    split
    · rename_i h
      rw [List.getElem?_eq_getElem (show _ < [(1 : Byte)].length by rw [List.length_singleton] at h ⊢; omega)]
      simp
    · exact (readGrids_ne_none_iff chol40.buf 0x80 2).mp (by rw [test_readGrids]; simp) p hp r hr c hc k hk j hj
  obtain ⟨grids, hg⟩ := Option.ne_none_iff_exists'.mp hm
  refine ⟨_, _, by decide +kernel, by decide +kernel, ?_, rfl, exec_chol40, by rw [State.pendNpd_eq]; rfl,
    execCholinv_completes (s := { chol40 with buf := chol40.buf.writeBytes 0xC0 [1] })
      ((State.cholinvError_eq_none_iff _ 2 0x80 0x400).mpr (by decide +kernel)) hg⟩
  intro p hp r hr c hc h j hj
  rw [Memory.readByte_writeBytes_outside]
  have hr' : r < 2 := hr
  have hc' : c < 2 := hc
  have e : elemAddr (0x80 : Word).toNat (2 : BitVec 5).toNat p r c 0 = 0x80 + (((p * 2 + r) * 2 + c) * 16 + 0) * 4 := rfl
  simp only [e, List.length_singleton]
  omega

/-- ∞ − ∞, ∞ · 0 and the root of −1. -/
theorem witness_NanResultsAreCanonical :
    f32IsNaN (addf 0x7F800000 0xFF800000) = true ∧ f32IsNaN (subf 0x7F800000 0x7F800000) = true ∧
    f32IsNaN (mulf 0 0x7F800000) = true ∧ f32IsNaN (rsqrtBy [] 0xBF800000) = true := by decide +kernel

/-- The largest finite value with the smallest subnormal and with itself, a NaN operand, and an infinite one beside
the opposite infinity, a zero and a finite value. -/
theorem witness_SumsAndProductsAreRounded :
    (f32Finite 0x7F7FFFFF ∧ f32Finite 1 ∧ f32Finite (addf 0x7F7FFFFF 1) ∧ ¬ f32Finite (addf 0x7F7FFFFF 0x7F7FFFFF)) ∧
    (f32IsNaN 0x7F800001 = true ∨ f32IsNaN 0 = true) ∧
    f32IsInf 0x7F800000 = true ∧
      (f32IsNaN 0xFF800000 = false ∧ f32IsNaN 0x80000000 = false ∧ f32IsNaN 0x7F7FFFFF = false) ∧
      f32IsInf 0xFF800000 = true ∧ f32IsZero 0x80000000 = true ∧ f32Finite 1 := by
  decide +kernel

/-- 1 - 0.9·2^-24 is nearer to 1 - 2^-24 than to 1: the unit in the last place changes at 1. -/
theorem test_addf_below_power : addf 0x3F800000 0xB3666666 = 0x3F7FFFFF := by decide +kernel

/-- R236: 1/√(1 + 2^-23) lies nearer to 1 - 2^-24 than to 1, though 1 is within half a unit in its own last place. -/
theorem test_rsqrt_below_power : rsqrtBy [] 0x3F800001 = 0x3F7FFFFF := by decide +kernel

/-- R234: the operands of a difference in their order, and a difference beyond the largest finite value. -/
theorem test_subf_order : subf 0x40000000 0x3F800000 = 0x3F800000 ∧ subf 0xFF7FFFFF 0x7F7FFFFF = 0xFF800000 := by
  decide +kernel

theorem witness_DefaultRsqrtIsRounded :
    (f32IsNaN 0xFFC00000 = true) ∧ (f32Sign 0x80000001 = true ∧ f32IsZero 0x80000001 = false) ∧
    (f32Finite 1 ∧ positivef 1 = true) ∧ (f32Finite 0x7F7FFFFF ∧ positivef 0x7F7FFFFF = true) := by decide +kernel

/-- The first and the last place of each width, with BUF unwritten, and a written word. -/
theorem witness_HostWordsAreLittleEndian :
    State.reset.params.legal ∧ State.reset.engState ≠ .busy ∧
      (∀ x ∈ [(0, 1), (0x1FFFF, 1), (0, 2), (0x1FFFE, 2), (0, 4), (0x1FFFC, 4)],
        (x.2 = 1 ∨ x.2 = 2 ∨ x.2 = 4) ∧ x.1 % x.2 = 0 ∧ x.1 + x.2 ≤ State.reset.params.bufBytes ∧
          ¬ State.reset.buf.initialised x.1 x.2) ∧
      (let s := State.reset.writeBuf 0x1FFFC [1, 2, 3, 4]
       ∀ n ∈ [1, 2, 4], s.buf.initialised 0x1FFFC n) := by decide +kernel

theorem witness_LockedRegistersWhileBusy :
    (atCp 0).engState = .busy ∧ State.reset.engState ≠ .busy ∧
      ({ atCp 0 with engState := .error } : State).engState ≠ .busy := by decide +kernel

/-- The read-only CSRs, and both ends of the reserved offsets and of the reserved range. -/
theorem witness_ReadOnlyWritesAreIgnored :
    State.reset.params.legal ∧
      ∀ a ∈ [0x000, 0x030, 0x03C, 0xFFC, 0x1000, 0x1FFFC], a % 4 = 0 ∧
        (a ∈ [0x000, 0x004, 0x00C, 0x020, 0x024, 0x028, 0x02C, 0x030] ∨
          (0x03C ≤ a ∧ a < State.reset.params.bufBytes)) := by decide +kernel

theorem witness_CtrlClearsThenStarts : ∀ v ∈ [0, 1, 2, 3, 0xFFFFFFFB], (BitVec.ofNat 32 v).getLsbD 2 = false := by decide +kernel

/-- Wrong width and wrong alignment, at both ends of the CSR block and of the BUF window. -/
theorem witness_BadHostAccessesDoNothing :
    State.reset.params.legal ∧
    (∀ a ∈ [(0x0, 2), (0x002, 4), (0xFFF, 1), (0xFFC, 8)], a.1 < 0x1000 ∧ ¬ (a.2 = 4 ∧ a.1 % 4 = 0)) ∧
    (∀ a ∈ [(0x20000, 8), (0x20001, 2), (0x3FFFF, 4), (0x20000, 0)],
      State.reset.params.bufBytes ≤ a.1 ∧ a.1 < 2 * State.reset.params.bufBytes ∧
        ¬ ((a.2 = 1 ∨ a.2 = 2 ∨ a.2 = 4) ∧ a.1 % a.2 = 0)) := by decide +kernel

theorem witness_HostReadsHaveNoSideEffect : ∃ t, hostAccess (.read 0 4) State.reset = .next t :=
  ⟨_, next_of_isNext (by decide +kernel)⟩

/-- The smallest, the taken and the largest legal build. -/
theorem witness_CsrReadsReturnTheirFields :
    ∀ n ∈ [16, 17, 24],
      let s := { State.reset with params := { specParams with bufAddrBits := n } }
      s.params.legal ∧ ∀ a ∈ [0x03C, 0xFFC, 0x1000, s.params.bufBytes - 4],
        a % 4 = 0 ∧ 0x03C ≤ a ∧ a < s.params.bufBytes := by
  decide +kernel

theorem witness_HostRaceFaults :
    (atCp 0).params.legal ∧ (atCp 0).engState = .busy ∧
      ∀ a ∈ [(0, 4), (0x1FFFE, 2), (0x1FFFF, 1)],
        a.1 < (atCp 0).params.bufBytes ∧ (a.2 = 1 ∨ a.2 = 2 ∨ a.2 = 4) ∧ a.1 % a.2 = 0 := by decide +kernel

theorem witness_SoftResetKeepsBuf :
    (5 : Word).getLsbD 2 = true ∧ State.reset.engState ≠ .busy ∧
    ((at40 0x27 0 0x1FE00 0).engState = .busy ∧ (at40 0x27 0 0x1FE00 0).fetch = .ok ⟨0x27, 0, 0x1FE00, 0⟩ ∧
      decodeWords ⟨0x27, 0, 0x1FE00, 0⟩ = .ok (.cholinv 2 0 0x1FE00) ∧
      (at40 0x27 0 0x1FE00 0).writeSet (.cholinv 2 0 0x1FE00) = (0x1FE00, 0x200)) ∧
    ((at40 0xFFFF 0 0 0).engState = .busy ∧ (at40 0xFFFF 0 0 0).fetch = .ok ⟨0xFFFF, 0, 0, 0⟩ ∧
      decodeWords ⟨0xFFFF, 0, 0, 0⟩ = .error .illegalOpcode) ∧
    (let s := { State.reset with engState := .busy, cp := 0x1FFF0 }
     s.engState = .busy ∧ s.inRange s.cp 16 ∧ ¬ s.buf.initialised s.cp.toNat 16) ∧
    (let s := { State.reset with engState := .busy, cp := 0x20000 }
     s.engState = .busy ∧ ¬ s.inRange s.cp 16) := by decide +kernel

/-- A completing command with a byte below and one above its write set, and a raising one. -/
theorem witness_CommandsWriteTheirWriteSet :
    let s := demapEdge .qpsk
    s.engState = .busy ∧
    (∃ t, exec (.demapQpsk .one .n4 0x1000 0x1100 0x1200) s = .next t) ∧
    s.writeSet (.demapQpsk .one .n4 0x1000 0x1100 0x1200) = (0x1FFF8, 8) ∧
    (0x1FFF7 < 0x1FFF8 ∧ 0x1FFF8 + 8 ≤ 0x20000) ∧
    (∃ t, exec (.jump 1) s = .next t ∧ t.engState = .error) :=
  ⟨rfl, ⟨_, next_of_isNext (by decide +kernel)⟩, by decide +kernel, by decide +kernel,
    ⟨_, next_of_isNext (by decide +kernel), by decide +kernel⟩⟩

/-- Write sets at the last place that fits, and empty one byte further; N of 2, 16 and 17. -/
theorem witness_CommandsWriteTheirWriteSet_sets :
    (let s := demapEdge .qpsk
     (s.low.toInt ≤ s.high.toInt ∧ inputsInRange s .one .n4 0x1000 0x1100 0x1200 ∧ s.inRange s.outp 8) ∧
      ¬ s.inRange (s.outp + 1) 8) ∧
    (dmrsLanes specParams .n4 .type1 .one .even).length * layerCount .one * bitsPerSymbol .qpsk = 4 ∧
    (let s := State.reset
     (legalSize 2 ∧ s.inRange 0 (128 * 2 * 2) ∧ s.inRange 0x1FE00 (128 * 2 * 2)) ∧
      (legalSize 16 ∧ s.inRange 0x18000 (128 * 16 * 16)) ∧
      ¬ legalSize 17 ∧ ¬ s.inRange 0x1FE01 (128 * 2 * 2)) := by decide +kernel

/-- A BUSY state with a command at CP meets the invariant, and its step has a next state. -/
theorem witness_StepKeepsInvariant :
    ∃ t, MachineInv (at40 1 0 0 0) ∧ step (at40 1 0 0 0) = .next t :=
  ⟨_, ⟨by decide +kernel, by decide +kernel, by decide +kernel, by decide +kernel, by decide +kernel, by decide +kernel, by decide +kernel, by decide +kernel, by decide +kernel⟩,
    next_of_isNext (by decide +kernel)⟩

theorem witness_BuildConstantsNeverChange : ∃ t, step (at40 1 0 0 0) = .next t :=
  ⟨_, next_of_isNext (by decide +kernel)⟩

end Sys2Proof.Machine
end

/-!
00_scope.md: the saturation of R15 and the fixed-point product of R16.
-/
namespace Sys2Proof.Machine

/-! ### Saturation (R15) -/

/-- Saturation does nothing inside its bounds. -/
theorem sat_eq_self {x lo hi : Int} (hlo : lo ≤ x) (hhi : x ≤ hi) : sat x lo hi = x := by
  rw [sat, if_neg (Int.not_lt.mpr hlo), if_neg (Int.not_lt.mpr hhi)]

theorem sat16_eq_self {x : Int} (hlo : -32768 ≤ x) (hhi : x ≤ 32767) : sat16 x = x :=
  sat_eq_self hlo hhi

/-! ### The product of two int16 values (R16) -/

/-- Only -32768 has a magnitude of 2^15. -/
theorem natAbs_half_le (a : Half) :
    a.toInt.natAbs ≤ 32768 ∧ (a.toInt ≠ -32768 → a.toInt.natAbs ≤ 32767) := by
  have hlo := a.le_toInt
  have hhi := a.toInt_lt
  omega

/-- One factor other than -32768 keeps the product at least 2^15 below 2^30 in magnitude, more than the rounding
term 2^14 of `roundedMulHigh` adds. -/
theorem natAbs_mul_half_le {a b : Half} (h : ¬ (a.toInt = -32768 ∧ b.toInt = -32768)) :
    (a.toInt * b.toInt).natAbs ≤ 32768 * 32767 := by
  obtain ⟨ha, ha'⟩ := natAbs_half_le a
  obtain ⟨hb, hb'⟩ := natAbs_half_le b
  rw [Int.natAbs_mul]
  by_cases hmin : a.toInt = -32768
  · exact Nat.mul_le_mul ha (hb' fun hbmin => h ⟨hmin, hbmin⟩)
  · rw [Nat.mul_comm]
    exact Nat.mul_le_mul hb (ha' hmin)

/-- For every pair of int16 values but one, the saturation of R16 has no effect. -/
theorem roundedMulHigh_eq_floor {a b : Half} (h : ¬ (a.toInt = -32768 ∧ b.toInt = -32768)) :
    roundedMulHigh a.toInt b.toInt = (a.toInt * b.toInt + 2 ^ 14) / 2 ^ 15 := by
  have hprod := natAbs_mul_half_le h
  exact sat16_eq_self (by omega) (by omega)

/-- Settles O35: the floor is in range but for the one saturating pair. -/
theorem roundedMulHighSaturatesOnce : Obligations.RoundedMulHighSaturatesOnce := by
  intro a b
  constructor
  · rintro ⟨ha, hb⟩
    rw [ha, hb]
    decide
  · intro h
    rw [roundedMulHigh_eq_floor h]
    omega

end Sys2Proof.Machine

/-!
10_state.md: what the CSRs, BUF and the host port hold, and the invariant that every step keeps.
-/
namespace Sys2Proof.Machine

/-! ### 16-aligned addresses (R37, R44, R52) -/

theorem aligned16_iff (a : Word) : aligned16 a ↔ a.toNat % 16 = 0 := by
  rw [aligned16, ← BitVec.toNat_inj]
  simp [BitVec.extractLsb'_toNat]

theorem aligned16_add_sixteen {a : Word} (h : aligned16 a) : aligned16 (a + 16) := by
  rw [aligned16_iff] at h ⊢
  rw [BitVec.toNat_add, show (16 : Word).toNat = 16 from rfl]
  omega

/-- The low four bits that a host write of CP cannot set. -/
theorem aligned16_and_mask (v : Word) : aligned16 (v &&& 0xFFFFFFF0) := by
  have hmask : BitVec.extractLsb' 0 4 (0xFFFFFFF0 : Word) = 0 := by decide
  rw [aligned16, BitVec.extractLsb'_and, hmask]
  exact BitVec.and_zero

/-! ### Write sets lie inside BUF (R79, 70_reset_and_hazards.md R293) -/

/-- A demap command's write set is empty, or is the last of the regions that its checks found in range. -/
theorem State.demapWriteSet_inRange (s : State) (order : Modulation) (w0 : Word) (lyr : Layers)
    (nsc : Subcarriers) (sel : List Nat) (sym beta winv : Word)
    (hne : (s.demapWriteSet order w0 lyr nsc sel sym beta winv).2 ≠ 0) :
    (s.demapWriteSet order w0 lyr nsc sel sym beta winv).1 +
      (s.demapWriteSet order w0 lyr nsc sel sym beta winv).2 ≤ s.params.bufBytes := by
  unfold State.demapWriteSet at hne ⊢
  split
  · rename_i he
    simp [he] at hne
  · rename_i he
    exact ((s.demapError_eq_none_iff _ _ _ _ _ _ _ _).mp he).2 (s.outp, llrCount order lyr sel)
      (by simp [State.demapRegions])

theorem State.cholinvWriteSet_inRange (s : State) (n : BitVec 5) (src dst : Word)
    (hne : (s.cholinvWriteSet n src dst).2 ≠ 0) :
    (s.cholinvWriteSet n src dst).1 + (s.cholinvWriteSet n src dst).2 ≤ s.params.bufBytes := by
  unfold State.cholinvWriteSet at hne ⊢
  split
  · rename_i he
    simp [he] at hne
  · rename_i he
    exact ((s.cholinvError_eq_none_iff _ _ _).mp he).2.2

/-- Every write set is empty or inside BUF, because a command that would raise has an empty one. -/
theorem State.writeSet_inRange (s : State) (i : Instr) (hne : (s.writeSet i).2 ≠ 0) :
    (s.writeSet i).1 + (s.writeSet i).2 ≤ s.params.bufBytes := by
  cases i with
  | nop | endList | jump | setout | config => exact absurd rfl hne
  | cholinv n src dst => exact s.cholinvWriteSet_inRange n src dst hne
  | _ => exact s.demapWriteSet_inRange _ _ _ _ _ _ _ _ hne

@[simp] theorem freeBytes_length (start n : Nat) : (freeBytes start n).length = n := by
  simp [freeBytes]

/-! ### CSR accesses at the host port (R32, R48, R51) -/

/-- Every CSR offset is 4-aligned and below the reserved offsets. -/
theorem csrAt_some_offset {addr : Nat} {c : Csr} (hc : csrAt addr = some c) : addr < 0x03C ∧ addr % 4 = 0 := by
  unfold csrAt at hc
  split at hc
  case h_16 => cases hc
  all_goals exact ⟨by decide, rfl⟩

/-- The CSR block comes first in the host address map. -/
theorem hostRegion_csrBlock (p : Config.Params) {addr : Nat} (h : addr < 0x1000) :
    hostRegion p addr = .csrBlock := if_pos h

/-- A 4-byte host read at a CSR's offset returns the CSR. -/
theorem hostRead_csr {addr : Nat} {c : Csr} (hc : csrAt addr = some c) (s : State) :
    hostAccess (.read addr 4) s = .next (s.respond (.okayRead (readCsr c s))) := by
  obtain ⟨hlt, hal⟩ := csrAt_some_offset hc
  simp only [hostAccess, hostRead, hostRegion_csrBlock s.params (show addr < 0x1000 by omega), hc]
  exact if_pos ⟨rfl, hal⟩

/-- A 4-byte host write at a CSR's offset is answered OKAY and writes the CSR. -/
theorem hostWrite_csr {addr : Nat} {c : Csr} (hc : csrAt addr = some c) (v : Word) (s : State) :
    hostAccess (.write addr 4 v) s = writeCsr c v (s.respond .okayWrite) := by
  obtain ⟨hlt, hal⟩ := csrAt_some_offset hc
  simp only [hostAccess, hostWrite, hostRegion_csrBlock s.params (show addr < 0x1000 by omega), hc]
  exact if_pos ⟨rfl, hal⟩

/-- The reserved addresses: the offsets of the CSR block that name no CSR, then the range up to BUF. -/
theorem hostRegion_reserved {p : Config.Params} {addr : Nat} (hlo : 0x03C ≤ addr) (hhi : addr < p.bufBytes) :
    (hostRegion p addr = .csrBlock ∧ csrAt addr = none) ∨ hostRegion p addr = .reserved := by
  by_cases hblock : addr < 0x1000
  · exact .inl ⟨hostRegion_csrBlock p hblock, csrAt_reserved hlo⟩
  · exact .inr (by rw [hostRegion, if_neg hblock, if_pos hhi])

theorem hostRead_reserved {s : State} {addr : Nat} (hal : addr % 4 = 0) (hlo : 0x03C ≤ addr)
    (hhi : addr < s.params.bufBytes) :
    hostAccess (.read addr 4) s = .next (s.respond (.okayRead 0)) := by
  rcases hostRegion_reserved hlo hhi with ⟨hr, hc⟩ | hr
  · simp only [hostAccess, hostRead, hr, hc]
    exact if_pos ⟨rfl, hal⟩
  · simp only [hostAccess, hostRead, hr]

theorem hostWrite_reserved {s : State} {addr : Nat} (v : Word) (hal : addr % 4 = 0) (hlo : 0x03C ≤ addr)
    (hhi : addr < s.params.bufBytes) :
    hostAccess (.write addr 4 v) s = .next (s.respond .okayWrite) := by
  rcases hostRegion_reserved hlo hhi with ⟨hr, hc⟩ | hr
  · simp only [hostAccess, hostWrite, hr, hc]
    exact if_pos ⟨rfl, hal⟩
  · simp only [hostAccess, hostWrite, hr]

/-- A well-formed access to the BUF window ends inside BUF: BUF_BYTES is a multiple of every legal width. -/
theorem bufWindow_access_inRange {p : Config.Params} {addr size offset : Nat} (hp : p.legal)
    (hr : hostRegion p addr = .bufWindow offset) (ha : bufAccessOk addr size) :
    offset + size ≤ p.bufBytes := by
  obtain ⟨hlo, hhi, rfl⟩ := hostRegion_bufWindow hr
  obtain ⟨hsize, hal⟩ := ha
  have hdvd : 4 ∣ p.bufBytes := pow_dvd_pow 2 (show 2 ≤ p.bufAddrBits by omega)
  rcases hsize with rfl | rfl | rfl <;> omega

/-! ### CSR writes (R33 to R50) -/

/-- A CSR write other than one of CTRL changes registers that the host may write, and keeps CP[3:0] at 0. -/
theorem writeCsr_cases {c : Csr} {v : Word} {s t : State} (h : writeCsr c v s = .next t) :
    (c = .ctrl ∧ writeCtrl v s = .next t) ∨
      ((t.cp = s.cp ∨ t.cp = v &&& 0xFFFFFFF0) ∧
        t = { s with cp := t.cp, outp := t.outp, shift := t.shift, low := t.low, high := t.high,
                     irqEn := t.irqEn, irqStatus := t.irqStatus }) := by
  cases c with
  | ctrl => exact .inl ⟨rfl, h⟩
  | cp =>
    simp only [writeCsr, State.lockedWrite_eq] at h
    split at h <;> cases h
    · exact .inr ⟨.inl rfl, rfl⟩
    · exact .inr ⟨.inr rfl, rfl⟩
  | outp | scale | llrRange =>
    simp only [writeCsr, State.lockedWrite_eq] at h
    split at h <;> cases h <;> exact .inr ⟨.inl rfl, rfl⟩
  | _ => cases h; exact .inr ⟨.inl rfl, rfl⟩

/-- While IDLE, CLEAR has no effect and START starts. -/
theorem ctrl_of_idle {s : State} (hs : s.engState = .idle) (v : Word) :
    (s.ctrlClear v).ctrlStart v = if v.getLsbD 0 then { s with engState := .busy } else s := by
  simp [State.ctrlClear, State.ctrlStart, State.clearError_eq, State.start_eq, hs]

/-- While BUSY, CLEAR has no effect and START is only noted in IGN. -/
theorem ctrl_of_busy {s : State} (hs : s.engState = .busy) (v : Word) :
    (s.ctrlClear v).ctrlStart v = if v.getLsbD 0 then s.pend irqIgn else s := by
  simp [State.ctrlClear, State.ctrlStart, State.clearError_eq, State.start_eq, hs]

/-- In ERROR, START needs the CLEAR of the same write. -/
theorem ctrl_of_error {s : State} (hs : s.engState = .error) (v : Word) :
    (s.ctrlClear v).ctrlStart v =
      if v.getLsbD 1 then { s with engState := if v.getLsbD 0 then .busy else .idle }
      else if v.getLsbD 0 then s.pend irqIgn else s := by
  unfold State.ctrlStart State.ctrlClear
  rw [State.clearError_eq, if_pos hs]
  cases v.getLsbD 1 with
  | true => cases v.getLsbD 0 <;> rfl
  | false => simp [State.start_eq, hs]

/-- CLEAR and START never lead into ERROR. -/
theorem ctrl_error_of_error {s : State} {v : Word} (h : ((s.ctrlClear v).ctrlStart v).engState = .error) :
    s.engState = .error := by
  cases hs : s.engState with
  | error => rfl
  | idle => rw [ctrl_of_idle hs] at h; split at h <;> simp_all
  | busy => rw [ctrl_of_busy hs] at h; split at h <;> simp_all

/-! ### The build's constants (R55, 70_reset_and_hazards.md R294) -/

@[simp] theorem State.interrupted_params (s : State) (d : Descriptor) : (s.interrupted d).params = s.params := by
  rcases s.interrupted_cases d with h | ⟨i, -, h⟩ <;> rw [h]
  rfl

theorem softReset_params {s t : State} (h : softReset s = .next t) : t.params = s.params := by
  rcases softReset_cases s with h' | ⟨-, d, -, h'⟩ | ⟨-, -, h'⟩ <;> rw [h'] at h <;> cases h <;> simp

theorem writeCtrl_params {v : Word} {s t : State} (h : writeCtrl v s = .next t) : t.params = s.params := by
  rcases writeCtrl_cases h with ⟨-, hreset⟩ | ⟨-, rfl⟩
  · exact softReset_params hreset
  · rw [ctrl_frame]

theorem hostAccess_params {a : HostAccess} {s t : State} (h : hostAccess a s = .next t) :
    t.params = s.params := by
  cases a with
  | read addr size =>
    obtain ⟨r, rfl⟩ := hostRead_cases h
    rfl
  | write addr size v =>
    rcases hostWrite_cases h with ⟨r, rfl⟩ | ⟨c, -, -, hcsr⟩ | ⟨offset, -, -, -, rfl⟩
    · rfl
    · rcases writeCsr_cases hcsr with ⟨-, hctrl⟩ | ⟨-, hframe⟩
      · exact (writeCtrl_params hctrl :)
      · rw [hframe]; rfl
    · rfl

theorem engineTurn_params {s t : State} (h : engineTurn s = .next t) : t.params = s.params := by
  rcases engineTurn_cases h with ⟨-, rfl⟩ | ⟨-, hstep⟩
  · rfl
  · rcases engineStep_cases hstep with ⟨e, w, rfl⟩ | ⟨d, i, -, -, hexec⟩
    · rfl
    · rcases exec_cases hexec with ⟨e, w, rfl⟩ | hdone
      · rfl
      · exact hdone.params

/-- Settles O58: resets, host accesses and commands alike leave the build as it is. -/
theorem buildConstantsNeverChange : Obligations.BuildConstantsNeverChange := by
  intro s t h
  rcases step_cases h with ⟨-, hturn⟩ | ⟨e, rest, -, ⟨-, hturn⟩ | ⟨-, rfl⟩ | ⟨a, -, haccess⟩⟩
  · exact engineTurn_params hturn
  · exact (engineTurn_params hturn :)
  · rfl
  · exact (hostAccess_params haccess :)

/-! ### The invariant

One lemma per operation on the state, then per command, host access and reset. -/

theorem machineInv_reset : MachineInv State.reset where
  legalBuild := by decide
  cpAligned := by decide
  bufWf := State.reset_buf_wf
  bufWithin := nofun
  codeRange := by decide
  errorCoded := nofun
  noErrorZero := fun _ => ⟨rfl, rfl⟩
  errCpAligned := by decide
  countRange := by decide

section Invariant

variable {s t : State}

theorem MachineInv.withInbox (hi : MachineInv s) (rest : List PortEvent) : MachineInv (s.withInbox rest) :=
  { hi with }

theorem MachineInv.respond (hi : MachineInv s) (r : HostResp) : MachineInv (s.respond r) :=
  { hi with }

theorem MachineInv.drawn (hi : MachineInv s) (n : Nat) : MachineInv (s.drawn n) :=
  { hi with }

/-- A write of a run that is empty or inside BUF. -/
theorem MachineInv.writeBuf (hi : MachineInv s) {a : Nat} {bs : List Byte}
    (hr : bs ≠ [] → a + bs.length ≤ s.params.bufBytes) : MachineInv (s.writeBuf a bs) :=
  { hi with
    bufWf := Memory.writeBytes_wf a bs hi.bufWf
    bufWithin := Memory.writeBytes_within a bs hi.bufWithin hr }

/-- Error entry records one of the five codes and an aligned CP. -/
theorem MachineInv.enterError (hi : MachineInv s) (e : ErrorCode) (w : Word) : MachineInv (s.enterError e w) :=
  { hi with
    codeRange := (errorNumber_range e).2
    errorCoded := fun _ => errorNumber_ne_zero e
    noErrorZero := fun h => absurd h (errorNumber_ne_zero e)
    errCpAligned := hi.cpAligned }

/-- The reset values meet the invariant whatever a legal build and a sound BUF hold. -/
theorem MachineInv.resetCsrs (hi : MachineInv s) : MachineInv s.resetCsrs :=
  { machineInv_reset with
    legalBuild := hi.legalBuild
    bufWf := hi.bufWf
    bufWithin := hi.bufWithin }

theorem MachineInv.hardwareReset (hi : MachineInv s) : MachineInv s.hardwareReset :=
  { hi.resetCsrs with
    bufWf := List.Pairwise.nil
    bufWithin := nofun }

/-- The end of a command: CP moves by 16 or to a checked target, and BUF takes at most one run that was found in
range. -/
theorem MachineInv.completed {i : Instr} (hi : MachineInv s) (hc : Completed i s t) : MachineInv t where
  legalBuild := by rw [hc.params]; exact hi.legalBuild
  cpAligned := by
    rcases hc.cp with hcp | ⟨a, -, ha, hcp⟩
    · rw [hcp]; exact aligned16_add_sixteen hi.cpAligned
    · rw [hcp]; exact ha
  bufWf := by
    obtain ⟨a, bs, -, hbuf⟩ := hc.buf
    rw [hbuf]; exact Memory.writeBytes_wf a bs hi.bufWf
  bufWithin := by
    obtain ⟨a, bs, hr, hbuf⟩ := hc.buf
    rw [hbuf, hc.params]; exact Memory.writeBytes_within a bs hi.bufWithin hr
  codeRange := by rw [hc.errCode]; exact hi.codeRange
  errorCoded := by
    intro herr
    rw [hc.errCode]
    rcases hc.engState with hs | ⟨-, hs⟩
    · exact hi.errorCoded (hs ▸ herr)
    · exact absurd (hs ▸ herr) (by decide)
  noErrorZero := by rw [hc.errCode, hc.errCp, hc.errInfo]; exact hi.noErrorZero
  errCpAligned := by rw [hc.errCp]; exact hi.errCpAligned
  countRange := by
    rcases hc.lastCount with hl | ⟨n, hn, hl⟩
    · rw [hl]; exact hi.countRange
    · rw [hl, BitVec.toNat_ofNat]; exact (Nat.mod_le _ _).trans hn

theorem MachineInv.engineTurn (hi : MachineInv s) (h : engineTurn s = .next t) : MachineInv t := by
  rcases engineTurn_cases h with ⟨-, rfl⟩ | ⟨-, hstep⟩
  · exact hi
  · rcases engineStep_cases hstep with ⟨e, w, rfl⟩ | ⟨d, i, -, -, hexec⟩
    · exact hi.enterError e w
    · rcases exec_cases hexec with ⟨e, w, rfl⟩ | hdone
      · exact hi.enterError e w
      · exact hi.completed hdone

/-- A soft reset while BUSY puts free bytes only where the interrupted command could have written. -/
theorem MachineInv.interrupted (hi : MachineInv s) (d : Descriptor) : MachineInv (s.interrupted d) := by
  rcases s.interrupted_cases d with h | ⟨i, -, h⟩ <;> rw [h]
  · exact hi
  · refine { hi.writeBuf (a := (s.writeSet i).1) (bs := freeBytes s.freeIdx (s.writeSet i).2) fun hne => ?_ with }
    rw [freeBytes_length]
    exact s.writeSet_inRange i fun hzero => hne (List.length_eq_zero_iff.mp (by rw [freeBytes_length, hzero]))

theorem MachineInv.softReset (hi : MachineInv s) (h : softReset s = .next t) : MachineInv t := by
  rcases softReset_cases s with h' | ⟨-, d, -, h'⟩ | ⟨-, -, h'⟩ <;> rw [h'] at h <;> cases h
  · exact hi.resetCsrs
  · exact (hi.interrupted d).resetCsrs
  · exact ((hi.drawn 16).interrupted s.freeDescriptor).resetCsrs

theorem MachineInv.writeCtrl {v : Word} (hi : MachineInv s) (h : writeCtrl v s = .next t) : MachineInv t := by
  rcases writeCtrl_cases h with ⟨-, hreset⟩ | ⟨-, rfl⟩
  · exact hi.softReset hreset
  · rw [ctrl_frame]
    exact { hi with errorCoded := fun herr => hi.errorCoded (ctrl_error_of_error herr) }

theorem MachineInv.writeCsr {c : Csr} {v : Word} (hi : MachineInv s) (h : writeCsr c v s = .next t) :
    MachineInv t := by
  rcases writeCsr_cases h with ⟨-, hctrl⟩ | ⟨hcp, hframe⟩
  · exact hi.writeCtrl hctrl
  · have haligned : aligned16 t.cp := by
      rcases hcp with hcp | hcp <;> rw [hcp]
      · exact hi.cpAligned
      · exact aligned16_and_mask v
    rw [hframe]
    exact { hi with cpAligned := haligned }

theorem MachineInv.hostAccess {a : HostAccess} (hi : MachineInv s) (h : hostAccess a s = .next t) :
    MachineInv t := by
  cases a with
  | read addr size =>
    obtain ⟨r, rfl⟩ := hostRead_cases h
    exact hi.respond r
  | write addr size v =>
    rcases hostWrite_cases h with ⟨r, rfl⟩ | ⟨c, -, -, hcsr⟩ | ⟨offset, hr, ha, -, rfl⟩
    · exact hi.respond r
    · exact (hi.respond _).writeCsr hcsr
    · have hin := bufWindow_access_inRange hi.legalBuild hr ha
      exact (hi.writeBuf fun _ => by rwa [leBytes_length]).respond _

end Invariant

/-- Settles O57, one lemma per kind of step. -/
theorem stepKeepsInvariant : Obligations.StepKeepsInvariant := by
  intro s t hi h
  rcases step_cases h with ⟨-, hturn⟩ | ⟨e, rest, -, ⟨-, hturn⟩ | ⟨-, rfl⟩ | ⟨a, -, haccess⟩⟩
  · exact hi.engineTurn hturn
  · exact (hi.withInbox rest).engineTurn hturn
  · exact (hi.withInbox rest).hardwareReset
  · exact (hi.withInbox rest).hostAccess haccess

/-- Settles O56. -/
theorem resetMeetsInvariant : Obligations.ResetMeetsInvariant := machineInv_reset

/-! ### The end of a command (R42, R52, 60_exceptions.md R271) -/

/-- Error entry seen from outside: CP and CMD_COUNT stay, ERR is set and a code is recorded. -/
theorem enterError_registers (s : State) (e : ErrorCode) (w : Word) :
    (s.enterError e w).engState = .error ∧ (s.enterError e w).cp = s.cp ∧
      (s.enterError e w).cmdCount = s.cmdCount ∧ (s.enterError e w).irqStatus = s.irqStatus ||| irqErr ∧
      (s.enterError e w).errCode ≠ 0 ∧ (s.enterError e w).errCp = s.cp :=
  ⟨rfl, rfl, rfl, rfl, errorNumber_ne_zero e, rfl⟩

/-- Only JUMP completes anywhere but at the next descriptor. -/
theorem Completed.cp_eq {i : Instr} {s t : State} (hc : Completed i s t) (hi : ∀ a, i ≠ .jump a) :
    t.cp = s.cp + 16 := by
  rcases hc.cp with hcp | ⟨a, rfl, -, -⟩
  · exact hcp
  · exact absurd rfl (hi a)

/-- Only END stops the ENGINE. -/
theorem Completed.engState_eq {i : Instr} {s t : State} (hc : Completed i s t) (hi : i ≠ .endList) :
    t.engState = s.engState := by
  rcases hc.engState with hs | ⟨rfl, -⟩
  · exact hs
  · exact absurd rfl hi

/-- Only END and CHOLINV set a sticky bit. -/
theorem Completed.irqStatus_eq {i : Instr} {s t : State} (hc : Completed i s t) (hi : i ≠ .endList)
    (hn : ∀ n a b, i ≠ .cholinv n a b) : t.irqStatus = s.irqStatus := by
  rcases hc.irqStatus with hq | ⟨rfl, -⟩ | ⟨⟨n, a, b, rfl⟩, -⟩
  · exact hq
  · exact absurd rfl hi
  · exact absurd rfl (hn n a b)

/-- A command other than END that completes leaves a BUSY ENGINE BUSY. -/
theorem Completed.stays_busy {i : Instr} {s t : State} (hc : Completed i s t) (hs : s.engState = .busy)
    (hi : i ≠ .endList) : t.engState ≠ .error ∧ (t.engState = .idle ↔ i = .endList) := by
  rw [hc.engState_eq hi, hs]
  simp [hi]

/-- Settles O11: JUMP, END and CHOLINV are the commands with an end of their own. -/
theorem commandsCompleteOrRaise : Obligations.CommandsCompleteOrRaise := by
  intro i s t hs h
  rcases exec_cases h with ⟨e, w, rfl⟩ | hc
  · exact .inl (enterError_registers s e w)
  cases i with
  | jump a =>
    rcases execJump_cases h with ⟨-, rfl⟩ | ⟨ha, rfl⟩
    · exact .inl (enterError_registers s _ a)
    · obtain ⟨hne, hidle⟩ := hc.stays_busy hs nofun
      exact .inr ⟨hne, rfl, ⟨ha, rfl⟩, rfl, rfl, rfl, rfl, rfl, rfl, rfl, hidle, rfl⟩
  | endList =>
    cases h
    exact .inr ⟨nofun, rfl, rfl, rfl, rfl, rfl, rfl, rfl, rfl, rfl, iff_of_true rfl rfl, rfl⟩
  | cholinv n src dst =>
    obtain ⟨hne, hidle⟩ := hc.stays_busy hs nofun
    have hirq : t.irqStatus = s.irqStatus ∨ t.irqStatus = s.irqStatus ||| irqNpd :=
      hc.irqStatus.imp_right fun hq => hq.elim nofun And.right
    exact .inr ⟨hne, hc.cmdCount, hc.cp_eq nofun, hc.errCode, hc.errCp, hc.errInfo, hc.irqEn, hc.params,
      hc.inbox, hc.hostResp, hidle, hirq⟩
  | _ =>
    obtain ⟨hne, hidle⟩ := hc.stays_busy hs nofun
    exact .inr ⟨hne, hc.cmdCount, hc.cp_eq nofun, hc.errCode, hc.errCp, hc.errInfo, hc.irqEn, hc.params,
      hc.inbox, hc.hostResp, hidle, hc.irqStatus_eq nofun nofun⟩

/-! ### What a host write of a CSR does (R33 to R50) -/

/-- A host write of a locked register is only noted in IGN while BUSY, and takes effect otherwise (R49). -/
theorem hostWrite_locked {addr : Nat} {c : Csr} {v : Word} {s written : State} (hc : csrAt addr = some c)
    (hw : writeCsr c v (s.respond .okayWrite) = .next ((s.respond .okayWrite).lockedWrite written)) :
    hostAccess (.write addr 4 v) s =
      .next (if s.engState = .busy then (s.respond .okayWrite).pend irqIgn else written) := by
  rw [hostWrite_csr hc, hw, State.lockedWrite_eq, State.respond_engState]

/-- Settles O46: the four locked writes, then the two that no state of the ENGINE locks. -/
theorem lockedRegistersWhileBusy : Obligations.LockedRegistersWhileBusy := by
  intro s v
  have hcp := hostWrite_locked (addr := 0x010) (c := .cp) (v := v) (s := s) rfl rfl
  have houtp := hostWrite_locked (addr := 0x014) (c := .outp) (v := v) (s := s) rfl rfl
  have hscale := hostWrite_locked (addr := 0x018) (c := .scale) (v := v) (s := s) rfl rfl
  have hrange := hostWrite_locked (addr := 0x01C) (c := .llrRange) (v := v) (s := s) rfl rfl
  refine ⟨fun hbusy => ?_, fun hfree => ?_, ?_, ?_⟩
  · simp only [if_pos hbusy] at hcp houtp hscale hrange
    simp only [List.forall_mem_cons]
    exact ⟨hcp, houtp, hscale, hrange, nofun⟩
  · simp only [if_neg hfree] at hcp houtp hscale hrange
    exact ⟨hcp, houtp, hscale, hrange⟩
  · exact hostWrite_csr (c := .irqEn) rfl v s
  · exact hostWrite_csr (c := .irqStatus) rfl v s

/-- Settles O47, state by state of the ENGINE. -/
theorem ctrlClearsThenStarts : Obligations.CtrlClearsThenStarts := by
  intro s v hv
  rw [hostWrite_csr (c := .ctrl) rfl, writeCsr, writeCtrl, if_neg (Bool.eq_false_iff.mp hv)]
  cases hs : s.engState with
  | idle =>
    rw [ctrl_of_idle (s := s.respond .okayWrite) hs]
    cases v.getLsbD 0 <;> simp [State.respond, ← hs]
  | busy =>
    rw [ctrl_of_busy (s := s.respond .okayWrite) hs]
    cases v.getLsbD 0 <;> simp [State.respond, State.pend, irqIgn, ← hs]
  | error =>
    rw [ctrl_of_error (s := s.respond .okayWrite) hs]
    cases v.getLsbD 1 <;> cases v.getLsbD 0 <;> simp [State.respond, State.pend, irqIgn, ← hs]

/-- Settles O60: the eight read-only registers, then the reserved addresses. -/
theorem readOnlyWritesAreIgnored : Obligations.ReadOnlyWritesAreIgnored := by
  intro s addr v _ hal haddr
  rcases haddr with hmem | ⟨hlo, hhi⟩
  · simp only [List.mem_cons, List.not_mem_nil, or_false] at hmem
    rcases hmem with rfl | rfl | rfl | rfl | rfl | rfl | rfl | rfl
    · exact hostWrite_csr (c := .id) rfl v s
    · exact hostWrite_csr (c := .params) rfl v s
    · exact hostWrite_csr (c := .status) rfl v s
    · exact hostWrite_csr (c := .lastCount) rfl v s
    · exact hostWrite_csr (c := .cmdCount) rfl v s
    · exact hostWrite_csr (c := .errCode) rfl v s
    · exact hostWrite_csr (c := .errCp) rfl v s
    · exact hostWrite_csr (c := .errInfo) rfl v s
  · exact hostWrite_reserved v hal hlo hhi

/-! ### What a host read of a CSR returns (R33 to R48) -/

/-- LLR_RANGE holds HIGH above LOW (R40). -/
theorem field_or_field_eq_append (low high : Half) : field low 0 ||| field high 16 = high ++ low := by
  apply BitVec.eq_of_getLsbD_eq
  intro k hk
  simp only [field, BitVec.getLsbD_or, BitVec.getLsbD_shiftLeft, BitVec.getLsbD_setWidth, BitVec.getLsbD_append]
  by_cases hlow : k < 16
  · simp [hlow, hk]
  · have hpast : low.getLsbD k = false := BitVec.getLsbD_of_ge low k (Nat.not_lt.mp hlow)
    simp [hlow, hk, hpast, show k - 16 < 32 by omega]

/-- PARAMS of a legal build: version 1, 16 lanes and BUF_ADDR_BITS, in fields that do not meet (R34). -/
theorem paramsValue_eq {p : Config.Params} (hp : p.legal) :
    paramsValue p = 0x00011000#32 + BitVec.ofNat 32 p.bufAddrBits := by
  obtain ⟨hlo, hhi⟩ := hp
  unfold paramsValue
  generalize p.bufAddrBits = n at hlo hhi
  interval_cases n <;> rfl

/-- Settles O50: each CSR by its offset, then the reserved addresses. -/
theorem csrReadsReturnTheirFields : Obligations.CsrReadsReturnTheirFields := by
  intro s hp
  refine ⟨fun addr value hmem => ?_, fun addr hal hlo hhi => hostRead_reserved hal hlo hhi⟩
  have hread {c : Csr} (hc : csrAt addr = some c) (hvalue : readCsr c s = value) :
      hostAccess (.read addr 4) s = .next { s with hostResp := .okayRead value } := by
    rw [hostRead_csr hc, hvalue]; rfl
  simp only [List.mem_cons, List.not_mem_nil, or_false, Prod.mk.injEq] at hmem
  rcases hmem with ⟨rfl, rfl⟩ | ⟨rfl, rfl⟩ | ⟨rfl, rfl⟩ | ⟨rfl, rfl⟩ | ⟨rfl, rfl⟩ | ⟨rfl, rfl⟩ | ⟨rfl, rfl⟩ |
    ⟨rfl, rfl⟩ | ⟨rfl, rfl⟩ | ⟨rfl, rfl⟩ | ⟨rfl, rfl⟩ | ⟨rfl, rfl⟩ | ⟨rfl, rfl⟩ | ⟨rfl, rfl⟩ | ⟨rfl, rfl⟩
  · exact hread (c := .id) rfl rfl
  · exact hread (c := .ctrl) rfl rfl
  · exact hread (c := .cp) rfl rfl
  · exact hread (c := .outp) rfl rfl
  · exact hread (c := .scale) rfl rfl
  · exact hread (c := .llrRange) rfl (field_or_field_eq_append s.low s.high)
  · exact hread (c := .lastCount) rfl rfl
  · exact hread (c := .cmdCount) rfl rfl
  · exact hread (c := .errCode) rfl rfl
  · exact hread (c := .errCp) rfl rfl
  · exact hread (c := .errInfo) rfl rfl
  · exact hread (c := .irqEn) rfl rfl
  · exact hread (c := .irqStatus) rfl rfl
  · exact hread (c := .params) rfl (paramsValue_eq hp)
  · exact hread (c := .status) rfl (by rw [readCsr]; cases s.engState <;> rfl)

/-! ### The interrupt line and reset (R59, R60) -/

/-- Settles O52: a word is not 0 exactly when one of its bits is set. -/
theorem irqIsEnabledPending : Obligations.IrqIsEnabledPending := by
  intro s
  simp only [State.irq, bne_iff_ne, ne_eq]
  constructor
  · intro hne
    by_contra hnone
    push Not at hnone
    refine hne (BitVec.eq_of_getLsbD_eq fun i hi => ?_)
    simpa using hnone i hi
  · rintro ⟨i, -, hpending, henabled⟩ hzero
    have hbit : (s.irqStatus &&& s.irqEn).getLsbD i = true := by simp [hpending, henabled]
    simp [hzero] at hbit

/-- Settles O53: the fields of `State.reset` and the values derived from them. -/
theorem resetLeavesSpecValues : Obligations.ResetLeavesSpecValues :=
  ⟨rfl, rfl, rfl, rfl, by decide, by decide, rfl, rfl, rfl, rfl, rfl, rfl, rfl, Memory.readByte_nil, rfl, rfl⟩

end Sys2Proof.Machine

/-!
20_memory.md: the order of events, the byte order of the host port, which host accesses do nothing, and the bytes
that a command writes.
-/
namespace Sys2Proof.Machine

/-! ### The total order of events (R83) -/

/-- The first waiting event is served at the state without it. -/
theorem step_of_inbox_cons {s : State} {e : PortEvent} {rest : List PortEvent} (h : s.inbox = e :: rest) :
    step s = portEvent e (s.withInbox rest) := by
  rw [step, h]

/-- Settles O8: the two kinds of event that do not come from the ENGINE. -/
theorem stepServesFirstEvent : Obligations.StepServesFirstEvent := by
  intro s rest
  constructor
  · intro a h
    rw [step_of_inbox_cons h]
    rfl
  · intro h
    rw [step_of_inbox_cons h]
    rfl

/-! ### The BUF window of the host port (R72, R74) -/

/-- BUF of a legal build is longer than the CSR block. -/
theorem csrBlock_lt_bufBytes {p : Config.Params} (hp : p.legal) : 0x1000 < p.bufBytes :=
  calc 0x1000 < 2 ^ 16 := by decide
    _ ≤ 2 ^ p.bufAddrBits := Nat.pow_le_pow_right Nat.two_pos hp.1

/-- The upper half of the host addresses is the BUF window. -/
theorem hostRegion_eq_bufWindow {p : Config.Params} (hp : p.legal) {addr : Nat} (hlo : p.bufBytes ≤ addr)
    (hhi : addr < 2 * p.bufBytes) : hostRegion p addr = .bufWindow (addr - p.bufBytes) := by
  have hcsr := csrBlock_lt_bufBytes hp
  rw [hostRegion, if_neg (by omega), if_neg (by omega), if_pos hhi]

/-- The host address of a BUF offset. -/
theorem hostRegion_bufBytes_add {p : Config.Params} (hp : p.legal) {a : Nat} (ha : a < p.bufBytes) :
    hostRegion p (p.bufBytes + a) = .bufWindow a := by
  rw [hostRegion_eq_bufWindow hp (by omega) (by omega), Nat.add_sub_cancel_left]

/-- BUF_BYTES is a multiple of every legal width, so a host address is aligned as its BUF offset is. -/
theorem bufAccessOk_bufBytes_add {p : Config.Params} (hp : p.legal) {a size : Nat}
    (hsize : size = 1 ∨ size = 2 ∨ size = 4) (hal : a % size = 0) : bufAccessOk (p.bufBytes + a) size := by
  refine ⟨hsize, ?_⟩
  have hdvd : 4 ∣ p.bufBytes := pow_dvd_pow 2 (show 2 ≤ p.bufAddrBits by omega)
  rcases hsize with rfl | rfl | rfl <;> omega

section BufWindow

variable {s : State} {addr size offset : Nat} {v : Word}

/-- A badly formed access gets the bus ERROR in every state of the ENGINE (R75). -/
theorem hostRead_buf_busError (hr : hostRegion s.params addr = .bufWindow offset) (ha : ¬ bufAccessOk addr size) :
    hostAccess (.read addr size) s = .next (s.respond .busError) := by
  simp only [hostAccess, hostRead, hr]
  exact if_neg ha

theorem hostWrite_buf_busError (hr : hostRegion s.params addr = .bufWindow offset) (ha : ¬ bufAccessOk addr size) :
    hostAccess (.write addr size v) s = .next (s.respond .busError) := by
  simp only [hostAccess, hostWrite, hr]
  exact if_neg ha

/-- A well-formed access while BUSY races with the ENGINE (R84). -/
theorem hostRead_buf_race (hr : hostRegion s.params addr = .bufWindow offset) (ha : bufAccessOk addr size)
    (hs : s.engState = .busy) : hostAccess (.read addr size) s = .fault .hostRace := by
  simp only [hostAccess, hostRead, hr, hs]
  exact if_pos ha

theorem hostWrite_buf_race (hr : hostRegion s.params addr = .bufWindow offset) (ha : bufAccessOk addr size)
    (hs : s.engState = .busy) : hostAccess (.write addr size v) s = .fault .hostRace := by
  simp only [hostAccess, hostWrite, hr, hs]
  exact if_pos ha

/-- A well-formed read while not BUSY is the read of BUF itself. -/
theorem hostRead_buf (hr : hostRegion s.params addr = .bufWindow offset) (ha : bufAccessOk addr size)
    (hs : s.engState ≠ .busy) : hostAccess (.read addr size) s = hostRead.fromBuf size s offset := by
  simp only [hostAccess, hostRead, hr, if_pos ha]
  cases hstate : s.engState with
  | busy => exact absurd hstate hs
  | idle | error => rfl

theorem hostRead_buf_of_some (hr : hostRegion s.params addr = .bufWindow offset) (ha : bufAccessOk addr size)
    (hs : s.engState ≠ .busy) {n : Nat} (hn : s.buf.memRead offset size = some n) :
    hostAccess (.read addr size) s = .next (s.respond (.okayRead (BitVec.ofNat 32 n))) := by
  rw [hostRead_buf hr ha hs, hostRead.fromBuf, hn]

theorem hostRead_buf_of_none (hr : hostRegion s.params addr = .bufWindow offset) (ha : bufAccessOk addr size)
    (hs : s.engState ≠ .busy) (hn : s.buf.memRead offset size = none) :
    hostAccess (.read addr size) s = .fault .uninitRead := by
  rw [hostRead_buf hr ha hs, hostRead.fromBuf, hn]

/-- A well-formed write while not BUSY writes the value's low bytes. -/
theorem hostWrite_buf (hr : hostRegion s.params addr = .bufWindow offset) (ha : bufAccessOk addr size)
    (hs : s.engState ≠ .busy) :
    hostAccess (.write addr size v) s =
      .next ((s.writeBuf offset (leBytes size v.toNat)).respond .okayWrite) := by
  simp only [hostAccess, hostWrite, hr, if_pos ha]
  cases hstate : s.engState with
  | busy => exact absurd hstate hs
  | idle | error => rfl

end BufWindow

/-- Settles O51: a read and a write race alike, whatever stands in BUF. -/
theorem hostRaceFaults : Obligations.HostRaceFaults := by
  intro s a size v hp hbusy ha hsize hal
  have hr := hostRegion_bufBytes_add hp ha
  have hok := bufAccessOk_bufBytes_add hp hsize hal
  exact ⟨hostRead_buf_race hr hok hbusy, hostWrite_buf_race hr hok hbusy⟩

/-! ### Host accesses that do nothing (R75, R80, 10_state.md R51) -/

theorem hostRead_csr_busError {s : State} {addr size : Nat} (h : addr < 0x1000) (ha : ¬ csrAccessOk addr size) :
    hostAccess (.read addr size) s = .next (s.respond .busError) := by
  simp only [hostAccess, hostRead, hostRegion_csrBlock s.params h]
  exact if_neg ha

theorem hostWrite_csr_busError {s : State} {addr size : Nat} {v : Word} (h : addr < 0x1000)
    (ha : ¬ csrAccessOk addr size) : hostAccess (.write addr size v) s = .next (s.respond .busError) := by
  simp only [hostAccess, hostWrite, hostRegion_csrBlock s.params h]
  exact if_neg ha

/-- Settles O48: the CSR block, then the BUF window. -/
theorem badHostAccessesDoNothing : Obligations.BadHostAccessesDoNothing := by
  intro s addr size v hp h
  rcases h with ⟨hcsr, hbad⟩ | ⟨hlo, hhi, hbad⟩
  · exact ⟨hostRead_csr_busError hcsr hbad, hostWrite_csr_busError hcsr hbad⟩
  · have hr := hostRegion_eq_bufWindow hp hlo hhi
    exact ⟨hostRead_buf_busError hr hbad, hostWrite_buf_busError hr hbad⟩

/-- Settles O49: a read that answers leaves the state with a new response. -/
theorem hostReadsHaveNoSideEffect : Obligations.HostReadsHaveNoSideEffect := by
  intro s t addr size h
  obtain ⟨r, rfl⟩ := hostRead_cases h
  rfl

/-! ### Byte order (R73) -/

/-- Byte `j` of the little-endian bytes of an integer. -/
theorem leBytes_getElem? (n v : Nat) {j : Nat} (hj : j < n) :
    (leBytes n v)[j]? = some (BitVec.ofNat 8 (v / 256 ^ j)) := by
  induction n generalizing v j with
  | zero => omega
  | succ n ih =>
    cases j with
    | zero => simp [leBytes]
    | succ j =>
      rw [leBytes, List.getElem?_cons_succ, ih _ (by omega), Nat.div_div_eq_div_mul, ← Nat.pow_succ']

/-- The same of a word, as a field of its bits. -/
theorem leBytes_toNat_getElem? (n : Nat) (v : Word) {j : Nat} (hj : j < n) :
    (leBytes n v.toNat)[j]? = some (v.extractLsb' (8 * j) 8) := by
  rw [leBytes_getElem? n _ hj]
  congr 1
  apply BitVec.eq_of_toNat_eq
  rw [BitVec.toNat_ofNat, BitVec.extractLsb'_toNat, Nat.shiftRight_eq_div_pow, Nat.pow_mul]

theorem leBytes_leNat (bs : List Byte) : leBytes bs.length (leNat bs) = bs := by
  induction bs with
  | nil => rfl
  | cons b bs ih =>
    have hb := b.isLt
    have htail : (b.toNat + 256 * leNat bs) / 256 = leNat bs := by omega
    have hhead : BitVec.ofNat 8 (b.toNat + 256 * leNat bs) = b := by
      apply BitVec.eq_of_toNat_eq
      rw [BitVec.toNat_ofNat]
      omega
    rw [List.length_cons, leNat, leBytes, htail, hhead, ih]

theorem leNat_lt (bs : List Byte) : leNat bs < 256 ^ bs.length := by
  conv_lhs => rw [← leBytes_leNat bs, leNat_leBytes]
  exact Nat.mod_lt _ (Nat.pow_pos (by decide))

/-- A read that has a value gives the integer whose little-endian bytes stand there. -/
theorem Memory.readByte_of_memRead {m : Memory} {a n v : Nat} (h : m.memRead a n = some v) :
    v < 256 ^ n ∧ ∀ j < n, m.readByte (a + j) = (leBytes n v)[j]? := by
  obtain ⟨bs, hbs, rfl⟩ := Option.map_eq_some_iff.mp h
  obtain ⟨rfl, hbytes⟩ := (readAll_eq_some_iff _ _ _).mp hbs
  rw [leBytes_leNat]
  exact ⟨leNat_lt bs, hbytes⟩

/-- A read inside a run that was written. -/
theorem Memory.memRead_writeBytes (m : Memory) (a : Nat) (bs : List Byte) {o n : Nat} (h : o + n ≤ bs.length) :
    (m.writeBytes a bs).memRead (a + o) n = some (leNat ((bs.drop o).take n)) := by
  rw [Memory.memRead, Memory.readBytes_writeBytes m a bs o n h, Option.map_some]

/-- An integer that was written reads back at the same width. -/
theorem Memory.memRead_writeBytes_leBytes (m : Memory) (a n v : Nat) :
    (m.writeBytes a (leBytes n v)).memRead a n = some (v % 256 ^ n) := by
  have h := m.memRead_writeBytes a (leBytes n v) (o := 0) (n := n) (by simp)
  rwa [Nat.add_zero, List.drop_zero, List.take_of_length_le (by simp), leNat_leBytes] at h

/-- The upper half of a 4-byte integer that was written. -/
theorem Memory.memRead_writeBytes_upperHalf (m : Memory) (a v : Nat) :
    (m.writeBytes a (leBytes 4 v)).memRead (a + 2) 2 = some (v / 2 ^ 16 % 2 ^ 16) := by
  have hupper : ((leBytes 4 v).drop 2).take 2 = leBytes 2 (v / 256 / 256) := rfl
  rw [m.memRead_writeBytes a (leBytes 4 v) (o := 2) (by simp), hupper, leNat_leBytes, Nat.div_div_eq_div_mul]
  rfl

/-- The upper half of a word, as a 32-bit value. -/
theorem ofNat_upperHalf (v : Word) :
    BitVec.ofNat 32 (v.toNat / 2 ^ 16 % 2 ^ 16) = (v.extractLsb' 16 16).setWidth 32 := by
  apply BitVec.eq_of_toNat_eq
  rw [BitVec.toNat_ofNat, BitVec.toNat_setWidth, BitVec.extractLsb'_toNat, Nat.shiftRight_eq_div_pow]

/-- Settles O45: the read of written and of unwritten bytes, then the write and the two reads after it. -/
theorem hostWordsAreLittleEndian : Obligations.HostWordsAreLittleEndian := by
  intro s a size hp hs hsize hal hin
  have hr : hostRegion s.params (s.params.bufBytes + a) = .bufWindow a := hostRegion_bufBytes_add hp (by omega)
  have hok : bufAccessOk (s.params.bufBytes + a) size := bufAccessOk_bufBytes_add hp hsize hal
  have hpow : 256 ^ size = 2 ^ (8 * size) := (Nat.pow_mul 2 8 size).symm
  refine ⟨fun hinit => ?_, fun hnot => ?_, fun v => ?_⟩
  · obtain ⟨n, hn⟩ := Option.ne_none_iff_exists'.mp ((s.buf.memRead_ne_none_iff a size).mpr hinit)
    obtain ⟨hlt, hbytes⟩ := Memory.readByte_of_memRead hn
    rw [hpow] at hlt
    have hle : 2 ^ (8 * size) ≤ 2 ^ 32 := Nat.pow_le_pow_right Nat.two_pos (by omega)
    have hw : (BitVec.ofNat 32 n).toNat = n := Nat.mod_eq_of_lt (by omega)
    refine ⟨BitVec.ofNat 32 n, hostRead_buf_of_some hr hok hs hn, by rwa [hw], fun j hj => ?_⟩
    rw [hbytes j hj, ← leBytes_toNat_getElem? size _ hj, hw]
  · have hnone := not_not.mp (mt (s.buf.memRead_ne_none_iff a size).mp hnot)
    exact hostRead_buf_of_none hr hok hs hnone
  · refine ⟨_, hostWrite_buf hr hok hs, fun j hj => ?_, fun x hx => ?_, rfl, ?_, ?_⟩
    · rw [State.respond_buf, State.writeBuf_buf, Memory.readByte_writeBytes_inside _ _ _ _ (by simpa using hj),
        ← leBytes_toNat_getElem? size v hj, List.getElem?_eq_getElem]
    · exact Memory.readByte_writeBytes_outside _ _ _ _ (by simpa using hx)
    · rw [← hpow]
      exact hostRead_buf_of_some (s := (s.writeBuf a (leBytes size v.toNat)).respond .okayWrite) hr hok hs
        (s.buf.memRead_writeBytes_leBytes a size v.toNat)
    · rintro rfl
      rw [← ofNat_upperHalf]
      have hr' : hostRegion s.params (s.params.bufBytes + (a + 2)) = .bufWindow (a + 2) :=
        hostRegion_bufBytes_add hp (by omega)
      have hok' : bufAccessOk (s.params.bufBytes + (a + 2)) 2 :=
        bufAccessOk_bufBytes_add hp (.inr (.inl rfl)) (by omega)
      exact hostRead_buf_of_some (s := (s.writeBuf a (leBytes 4 v.toNat)).respond .okayWrite) hr' hok' hs
        (s.buf.memRead_writeBytes_upperHalf a v.toNat)

/-! ### The write set of a command (R79, 70_reset_and_hazards.md R293) -/

/-- BUF of `t` is that of `s` after one write of the whole region `ws`, given as base and length. -/
def WritesRegion (s t : State) (ws : Nat × Nat) : Prop :=
  ∃ bs : List Byte, bs.length = ws.2 ∧ t.buf = s.buf.writeBytes ws.1 bs

theorem WritesRegion.readByte_outside {s t : State} {ws : Nat × Nat} (h : WritesRegion s t ws) {x : Nat}
    (hx : x < ws.1 ∨ ws.1 + ws.2 ≤ x) : t.buf.readByte x = s.buf.readByte x := by
  obtain ⟨bs, hlen, hbuf⟩ := h
  rw [hbuf, Memory.readByte_writeBytes_outside _ _ _ _ (by rwa [hlen])]

theorem WritesRegion.initialised {s t : State} {ws : Nat × Nat} (h : WritesRegion s t ws) :
    t.buf.initialised ws.1 ws.2 := by
  obtain ⟨bs, hlen, hbuf⟩ := h
  intro j hj
  rw [hbuf, Memory.readByte_writeBytes_inside _ _ _ _ (by rwa [hlen])]
  exact Option.some_ne_none _

/-- A state with the BUF of `s` is `s` after a write of an empty region, wherever that lies. -/
theorem WritesRegion.of_buf_eq {s t : State} (h : t.buf = s.buf) (a : Nat) : WritesRegion s t (a, 0) :=
  ⟨[], rfl, h⟩

/-- A demap command that would raise has an empty write set (R170). -/
theorem State.demapWriteSet_of_error {s : State} {order : Modulation} {w0 : Word} {lyr : Layers}
    {nsc : Subcarriers} {sel : List Nat} {sym beta winv : Word}
    (he : s.demapError order w0 lyr nsc sel sym beta winv ≠ none) :
    s.demapWriteSet order w0 lyr nsc sel sym beta winv = (s.outp.toNat, 0) := by
  obtain ⟨e, he⟩ := Option.ne_none_iff_exists'.mp he
  simp [State.demapWriteSet, he]

theorem State.demapWriteSet_of_no_error {s : State} {order : Modulation} {w0 : Word} {lyr : Layers}
    {nsc : Subcarriers} {sel : List Nat} {sym beta winv : Word}
    (he : s.demapError order w0 lyr nsc sel sym beta winv = none) :
    s.demapWriteSet order w0 lyr nsc sel sym beta winv = (s.outp.toNat, llrCount order lyr sel) := by
  simp [State.demapWriteSet, he]

/-- A CHOLINV that would raise has an empty write set (43_cholesky.md R231). -/
theorem State.cholinvWriteSet_of_error {s : State} {n : BitVec 5} {src dst : Word}
    (he : s.cholinvError n src dst ≠ none) : s.cholinvWriteSet n src dst = (dst.toNat, 0) := by
  obtain ⟨e, he⟩ := Option.ne_none_iff_exists'.mp he
  simp [State.cholinvWriteSet, he]

theorem State.cholinvWriteSet_of_no_error {s : State} {n : BitVec 5} {src dst : Word}
    (he : s.cholinvError n src dst = none) : s.cholinvWriteSet n src dst = (dst.toNat, gridBytes n.toNat) := by
  simp [State.cholinvWriteSet, he]

theorem State.writeSet_demapInstr (s : State) (order : Modulation) (lyr : Layers) (nsc : Subcarriers)
    (sym beta winv : Word) :
    s.writeSet (demapInstr order lyr nsc sym beta winv) =
      s.demapWriteSet order (w0Demap order lyr nsc) lyr nsc (allLanes nsc) sym beta winv := by
  cases order <;> rfl

theorem State.writeSet_dmrsInstr (s : State) (order : Modulation) (lyr : Layers) (nsc : Subcarriers)
    (ty : DmrsType) (cd : CdmGroups) (pp : PortParity) (sym beta winv : Word) :
    s.writeSet (dmrsInstr order lyr nsc ty cd pp sym beta winv) =
      s.demapWriteSet order (w0Dmrs order lyr nsc ty cd pp) lyr nsc (dmrsLanes s.params nsc ty cd pp)
        sym beta winv := by
  cases order <;> rfl

/-- A demap command runs without an error exactly when the region of its output is in BUF too. -/
theorem State.demapError_eq_none_iff_inputs (s : State) (order : Modulation) (w0 : Word) (lyr : Layers)
    (nsc : Subcarriers) (sel : List Nat) (sym beta winv : Word) :
    s.demapError order w0 lyr nsc sel sym beta winv = none ↔
      s.low.toInt ≤ s.high.toInt ∧ inputsInRange s lyr nsc sym beta winv ∧
        s.inRange s.outp (llrCount order lyr sel) := by
  rw [State.demapError_eq_none_iff]
  simp [State.demapRegions, and_assoc]

/-- A demap command's write set, in terms of its checks. -/
theorem State.demapWriteSet_spec (s : State) (order : Modulation) (w0 : Word) (lyr : Layers)
    (nsc : Subcarriers) (sel : List Nat) (sym beta winv : Word) {count : Nat}
    (hcount : llrCount order lyr sel = count) :
    (s.low.toInt ≤ s.high.toInt ∧ inputsInRange s lyr nsc sym beta winv ∧ s.inRange s.outp count →
      s.demapWriteSet order w0 lyr nsc sel sym beta winv = (s.outp.toNat, count)) ∧
    (¬ (s.low.toInt ≤ s.high.toInt ∧ inputsInRange s lyr nsc sym beta winv ∧ s.inRange s.outp count) →
      (s.demapWriteSet order w0 lyr nsc sel sym beta winv).2 = 0) := by
  subst hcount
  rw [← s.demapError_eq_none_iff_inputs order w0]
  exact ⟨fun he => State.demapWriteSet_of_no_error he, fun he => by rw [State.demapWriteSet_of_error he]⟩

/-! ### What a command writes (R79) -/

theorem demapOver_writesRegion {order : Modulation} {w0 : Word} {lyr : Layers} {nsc : Subcarriers}
    {sel : List Nat} {sym beta winv : Word} {s t : State}
    (h : demapOver order w0 lyr nsc sel sym beta winv s = .next t) :
    WritesRegion s t (s.demapWriteSet order w0 lyr nsc sel sym beta winv) := by
  rcases demapOver_cases h with ⟨e, w, he, rfl⟩ | ⟨he, batch, -, rfl⟩
  · rw [State.demapWriteSet_of_error (by simp [he])]
    exact .of_buf_eq rfl _
  · rw [State.demapWriteSet_of_no_error he]
    exact ⟨llrOutput order s.llrConfig lyr sel batch, llrOutput_length .., rfl⟩

theorem execCholinv_writesRegion {n : BitVec 5} {src dst : Word} {s t : State}
    (h : execCholinv n src dst s = .next t) : WritesRegion s t (s.cholinvWriteSet n src dst) := by
  rcases execCholinv_cases h with ⟨e, w, he, rfl⟩ | ⟨he, grids, hg, rfl⟩
  · rw [State.cholinvWriteSet_of_error (by simp [he])]
    exact .of_buf_eq rfl _
  · rw [State.cholinvWriteSet_of_no_error he, State.pendNpd_eq]
    have hlanes : (s.laneInverses n.toNat grids).length = lanes := by
      rw [State.laneInverses_length, readGrids_length hg]
    exact ⟨gridOutput n.toNat (s.laneInverses n.toNat grids), gridOutput_length _ _ hlanes, rfl⟩

/-- Every command writes its write set in one run; the control commands and those that raise have an empty one. -/
theorem exec_writesRegion {i : Instr} {s t : State} (h : exec i s = .next t) :
    WritesRegion s t (s.writeSet i) := by
  cases i with
  | nop | endList | setout | config => cases h; exact .of_buf_eq rfl 0
  | jump a => rcases execJump_cases h with ⟨-, rfl⟩ | ⟨-, rfl⟩ <;> exact .of_buf_eq rfl 0
  | cholinv => exact execCholinv_writesRegion h
  | _ => exact demapOver_writesRegion h

/-- Settles O55: the bytes a command changes, then the write set of each kind of command. -/
theorem commandsWriteTheirWriteSet : Obligations.CommandsWriteTheirWriteSet := by
  refine ⟨fun i s t hbusy h => ⟨fun a ha => ?_, fun _ => (exec_writesRegion h).initialised⟩,
    fun s => ⟨?_, ?_, ?_⟩⟩
  · rcases ha with herr | hout
    · rcases exec_cases h with ⟨e, w, rfl⟩ | hc
      · rfl
      · rcases hc.engState with hs | ⟨-, hs⟩ <;> simp [hs, hbusy] at herr
    · exact (exec_writesRegion h).readByte_outside hout
  · intro a k lo hi i hi
    simp only [List.mem_cons, List.not_mem_nil, or_false] at hi
    rcases hi with rfl | rfl | rfl | rfl | rfl <;> rfl
  · rintro order lyr nsc sym beta winv i count (⟨rfl, rfl⟩ | ⟨ty, cd, pp, rfl, rfl⟩)
    · rw [State.writeSet_demapInstr]
      exact s.demapWriteSet_spec order _ lyr nsc _ sym beta winv (by rw [llrCount, allLanes, List.length_range])
    · rw [State.writeSet_dmrsInstr]
      exact s.demapWriteSet_spec order _ lyr nsc _ sym beta winv rfl
  · intro n src dst
    have hnone := s.cholinvError_eq_none_iff n src dst
    exact ⟨fun h => State.cholinvWriteSet_of_no_error (hnone.mpr h),
      fun h => congrArg Prod.snd (State.cholinvWriteSet_of_error (mt hnone.mp h))⟩

end Sys2Proof.Machine

/-!
30_encoding.md: the decoder reads back what the encoder writes, what each line of assembly stands for, and where an
assembled command stands in BUF.
-/
namespace Sys2Proof.Machine

/-! ### Words as numbers (R102)

The fields of a word do not meet, so a word is a sum of field values and every question about its fields is one of
linear arithmetic. -/

/-- A field above every bit that is already set adds its value, shifted to its place. -/
theorem toNat_or_field {n : Nat} {w : Word} (v : BitVec n) {lo : Nat} (hw : w.toNat < 2 ^ lo) (hn : n + lo ≤ 32) :
    (w ||| field v lo).toNat = w.toNat + v.toNat * 2 ^ lo := by
  have hv : v.toNat < 2 ^ n := v.isLt
  have hfit : v.toNat * 2 ^ lo < 2 ^ 32 :=
    calc v.toNat * 2 ^ lo < 2 ^ n * 2 ^ lo := Nat.mul_lt_mul_of_pos_right hv (Nat.two_pow_pos lo)
      _ = 2 ^ (n + lo) := (Nat.pow_add 2 n lo).symm
      _ ≤ 2 ^ 32 := Nat.pow_le_pow_right Nat.two_pos hn
  rw [field, BitVec.toNat_or, BitVec.toNat_shiftLeft, BitVec.toNat_setWidth_of_le (by omega),
    Nat.shiftLeft_eq, Nat.mod_eq_of_lt hfit, Nat.or_comm, ← Nat.shiftLeft_eq, ← Nat.shiftLeft_add_eq_or_of_lt hw,
    Nat.shiftLeft_eq, Nat.add_comm]

/-- The bits from `k` up are 0 exactly when the word is below `2 ^ k`. -/
theorem and_highMask_eq_zero_iff (w : Word) (k : Nat) :
    w &&& BitVec.allOnes 32 <<< k = 0 ↔ w.toNat < 2 ^ k := by
  have hle : w.toNat / 2 ^ k * 2 ^ k ≤ w.toNat := Nat.div_mul_le_self _ _
  have hlt : w.toNat / 2 ^ k * 2 ^ k < 2 ^ 32 := hle.trans_lt w.isLt
  rw [← BitVec.shiftLeft_ushiftRight, ← BitVec.toNat_inj, BitVec.toNat_shiftLeft, BitVec.toNat_ushiftRight,
    Nat.shiftRight_eq_div_pow, Nat.shiftLeft_eq, Nat.mod_eq_of_lt hlt, ← Nat.div_eq_zero_iff_lt (Nat.two_pow_pos k)]
  simp

theorem toNat_opOf (w : Word) : (opOf w).toNat = w.toNat % 16 := BitVec.extractLsb'_toNat 0 4 w

/-- A field of a word, as a number. -/
theorem toNat_extract (w : Word) (lo n : Nat) : (w.extractLsb' lo n).toNat = w.toNat / 2 ^ lo % 2 ^ n := by
  rw [BitVec.extractLsb'_toNat, Nat.shiftRight_eq_div_pow]

/-- A word with a given opcode and none of its reserved bits (R107). -/
def CarriesOpcode (w : Word) (op : BitVec 4) : Prop := opOf w = op ∧ w &&& res0Mask op = 0

/-- The same for an opcode whose reserved bits are those from `k` up. -/
theorem carriesOpcode_iff (w : Word) {op : BitVec 4} {c k : Nat} (hop : op.toNat = c)
    (hmask : res0Mask op = BitVec.allOnes 32 <<< k) :
    CarriesOpcode w op ↔ w.toNat % 16 = c ∧ w.toNat < 2 ^ k := by
  rw [CarriesOpcode, hmask, and_highMask_eq_zero_iff, ← BitVec.toNat_inj, toNat_opOf, hop]

/-! ### Field codes (R103, R105) -/

theorem Modulation.ofCode_eq_some_iff (c : BitVec 3) (m : Modulation) :
    Modulation.ofCode c = some m ↔ m.code = c := by
  cases m <;> revert c <;> decide

theorem Layers.ofCode_eq_iff (c : BitVec 1) (lyr : Layers) : Layers.ofCode c = lyr ↔ lyr.code = c := by
  cases lyr <;> revert c <;> decide

theorem Subcarriers.ofCode_eq_iff (c : BitVec 2) (nsc : Subcarriers) :
    Subcarriers.ofCode c = nsc ↔ nsc.code = c := by
  cases nsc <;> revert c <;> decide

theorem DmrsType.ofCode_eq_iff (c : BitVec 1) (ty : DmrsType) : DmrsType.ofCode c = ty ↔ ty.code = c := by
  cases ty <;> revert c <;> decide

theorem CdmGroups.ofCode_eq_iff (c : BitVec 1) (cd : CdmGroups) : CdmGroups.ofCode c = cd ↔ cd.code = c := by
  cases cd <;> revert c <;> decide

theorem PortParity.ofCode_eq_iff (c : BitVec 1) (pp : PortParity) : PortParity.ofCode c = pp ↔ pp.code = c := by
  cases pp <;> revert c <;> decide

/-! ### W0 of each format (R102, R107): its fields are those of the operands and its other bits are 0 -/

/-- F-NO and F-AD: nothing but the opcode. -/
theorem w0Control_eq_iff (w : Word) {op : BitVec 4} (hmask : res0Mask op = BitVec.allOnes 32 <<< 4) :
    op.setWidth 32 = w ↔ CarriesOpcode w op := by
  rw [carriesOpcode_iff w rfl hmask, ← BitVec.toNat_inj, BitVec.toNat_setWidth_of_le (by decide)]
  omega

theorem toNat_w0Config (shift : BitVec 6) : (w0Config shift).toNat = 4 + shift.toNat * 16 :=
  toNat_or_field shift (w := 4#32) (by decide) (by decide)

theorem w0Config_eq_iff (w : Word) (shift : BitVec 6) :
    w0Config shift = w ↔ CarriesOpcode w 4 ∧ w.extractLsb' 4 6 = shift := by
  have hshift := shift.isLt
  rw [carriesOpcode_iff w (c := 4) rfl (show res0Mask 4 = BitVec.allOnes 32 <<< 10 by decide)]
  simp only [← BitVec.toNat_inj, toNat_w0Config, toNat_extract]
  omega

theorem toNat_w0Cholinv (n : BitVec 5) : (w0Cholinv n).toNat = 7 + n.toNat * 16 :=
  toNat_or_field n (w := 7#32) (by decide) (by decide)

theorem w0Cholinv_eq_iff (w : Word) (n : BitVec 5) :
    w0Cholinv n = w ↔ CarriesOpcode w 7 ∧ w.extractLsb' 4 5 = n := by
  have hn := n.isLt
  rw [carriesOpcode_iff w (c := 7) rfl (show res0Mask 7 = BitVec.allOnes 32 <<< 9 by decide)]
  simp only [← BitVec.toNat_inj, toNat_w0Cholinv, toNat_extract]
  omega

/-- The fields that F-DM and F-DD share, above their opcode. -/
theorem toNat_or_demapFields {w : Word} (hw : w.toNat < 2 ^ 4) (m : BitVec 3) (l : BitVec 1) (n : BitVec 2) :
    (w ||| field m 4 ||| field l 7 ||| field n 8).toNat =
      w.toNat + m.toNat * 2 ^ 4 + l.toNat * 2 ^ 7 + n.toNat * 2 ^ 8 := by
  have hm := m.isLt
  have hl := l.isLt
  have h1 := toNat_or_field m hw (by decide)
  have h2 := toNat_or_field l (w := w ||| field m 4) (lo := 7) (by omega) (by decide)
  rw [toNat_or_field n (by omega) (by decide), h2, h1]

theorem toNat_w0Demap (m : Modulation) (lyr : Layers) (nsc : Subcarriers) :
    (w0Demap m lyr nsc).toNat =
      5 + m.code.toNat * 2 ^ 4 + lyr.code.toNat * 2 ^ 7 + nsc.code.toNat * 2 ^ 8 :=
  toNat_or_demapFields (w := 5#32) (by decide) m.code lyr.code nsc.code

theorem w0Demap_eq_iff (w : Word) (m : Modulation) (lyr : Layers) (nsc : Subcarriers) :
    w0Demap m lyr nsc = w ↔ CarriesOpcode w 5 ∧
      Modulation.ofCode (w.extractLsb' 4 3) = some m ∧ Layers.ofCode (w.extractLsb' 7 1) = lyr ∧
      Subcarriers.ofCode (w.extractLsb' 8 2) = nsc := by
  have hm := m.code.isLt
  have hl := lyr.code.isLt
  have hn := nsc.code.isLt
  rw [carriesOpcode_iff w (c := 5) rfl (show res0Mask 5 = BitVec.allOnes 32 <<< 10 by decide),
    Modulation.ofCode_eq_some_iff, Layers.ofCode_eq_iff, Subcarriers.ofCode_eq_iff]
  simp only [← BitVec.toNat_inj, toNat_w0Demap, toNat_extract]
  omega

theorem toNat_w0Dmrs (m : Modulation) (lyr : Layers) (nsc : Subcarriers) (ty : DmrsType) (cd : CdmGroups)
    (pp : PortParity) :
    (w0Dmrs m lyr nsc ty cd pp).toNat =
      6 + m.code.toNat * 2 ^ 4 + lyr.code.toNat * 2 ^ 7 + nsc.code.toNat * 2 ^ 8 + ty.code.toNat * 2 ^ 10 +
        cd.code.toNat * 2 ^ 11 + pp.code.toNat * 2 ^ 12 := by
  have hm := m.code.isLt
  have hl := lyr.code.isLt
  have hn := nsc.code.isLt
  have ht := ty.code.isLt
  have hc := cd.code.isLt
  have hlow : (6#32 ||| field m.code 4 ||| field lyr.code 7 ||| field nsc.code 8).toNat =
      6 + m.code.toNat * 2 ^ 4 + lyr.code.toNat * 2 ^ 7 + nsc.code.toNat * 2 ^ 8 :=
    toNat_or_demapFields (by decide) m.code lyr.code nsc.code
  have hty := toNat_or_field ty.code (lo := 10) (hlow.trans_lt (by omega)) (by decide)
  rw [hlow] at hty
  have hcd := toNat_or_field cd.code (lo := 11) (hty.trans_lt (by omega)) (by decide)
  rw [hty] at hcd
  have hpp := toNat_or_field pp.code (lo := 12) (hcd.trans_lt (by omega)) (by decide)
  rwa [hcd] at hpp

theorem w0Dmrs_eq_iff (w : Word) (m : Modulation) (lyr : Layers) (nsc : Subcarriers) (ty : DmrsType)
    (cd : CdmGroups) (pp : PortParity) :
    w0Dmrs m lyr nsc ty cd pp = w ↔ CarriesOpcode w 6 ∧
      Modulation.ofCode (w.extractLsb' 4 3) = some m ∧ Layers.ofCode (w.extractLsb' 7 1) = lyr ∧
      Subcarriers.ofCode (w.extractLsb' 8 2) = nsc ∧ DmrsType.ofCode (w.extractLsb' 10 1) = ty ∧
      CdmGroups.ofCode (w.extractLsb' 11 1) = cd ∧ PortParity.ofCode (w.extractLsb' 12 1) = pp := by
  have hm := m.code.isLt
  have hl := lyr.code.isLt
  have hn := nsc.code.isLt
  have ht := ty.code.isLt
  have hc := cd.code.isLt
  have hp := pp.code.isLt
  rw [carriesOpcode_iff w (c := 6) rfl (show res0Mask 6 = BitVec.allOnes 32 <<< 13 by decide),
    Modulation.ofCode_eq_some_iff, Layers.ofCode_eq_iff, Subcarriers.ofCode_eq_iff, DmrsType.ofCode_eq_iff,
    CdmGroups.ofCode_eq_iff, PortParity.ofCode_eq_iff]
  simp only [← BitVec.toNat_inj, toNat_w0Dmrs, toNat_extract]
  omega

/-- W1 of CONFIG: LOW below HIGH. -/
theorem w1Config_eq_iff (w : Word) (low high : Half) :
    field low 0 ||| field high 16 = w ↔ w.extractLsb' 0 16 = low ∧ w.extractLsb' 16 16 = high := by
  have hlow := low.isLt
  have hhigh := high.isLt
  have hw1 : (field low 0 ||| field high 16).toNat = low.toNat + high.toNat * 2 ^ 16 := by
    rw [field_or_field_eq_append, BitVec.toNat_append, ← Nat.shiftLeft_add_eq_or_of_lt hlow, Nat.shiftLeft_eq,
      Nat.add_comm]
  simp only [← BitVec.toNat_inj, toNat_extract, hw1]
  omega

/-! ### Descriptors and the commands they encode (R102, R106) -/

/-- R102 as a relation: the descriptor has the opcode and the fields of the command, in whatever words its format
uses, and the command is one that R106 admits. -/
inductive Encodes (d : Descriptor) : Instr → Prop
  | nop (h0 : 0 = d.w0) : Encodes d .nop
  | endList (h0 : 1 = d.w0) : Encodes d .endList
  | jump (h0 : 2 = d.w0) : Encodes d (.jump d.w1)
  | setout (h0 : 3 = d.w0) : Encodes d (.setout d.w1)
  | config {shift : BitVec 6} {low high : Half} (h0 : w0Config shift = d.w0)
      (h1 : field low 0 ||| field high 16 = d.w1) : Encodes d (.config shift low high)
  | demap {m : Modulation} {lyr : Layers} {nsc : Subcarriers} (h0 : w0Demap m lyr nsc = d.w0) :
      Encodes d (demapInstr m lyr nsc d.w1 d.w2 d.w3)
  | dmrs {m : Modulation} {lyr : Layers} {nsc : Subcarriers} {ty : DmrsType} {cd : CdmGroups} {pp : PortParity}
      (h0 : w0Dmrs m lyr nsc ty cd pp = d.w0) : Encodes d (dmrsInstr m lyr nsc ty cd pp d.w1 d.w2 d.w3)
  | cholinv {n : BitVec 5} (hn : legalSize n) (h0 : w0Cholinv n = d.w0) : Encodes d (.cholinv n d.w1 d.w2)

/-- The encoder's words encode the command. -/
theorem encodes_encode {i : Instr} (hi : WellFormed i) : Encodes (encode i) i := by
  cases i with
  | nop => exact .nop rfl
  | endList => exact .endList rfl
  | jump addr => exact .jump rfl
  | setout addr => exact .setout rfl
  | config shift low high => exact .config rfl rfl
  | cholinv n src dst => exact .cholinv (of_decide_eq_true hi) rfl
  | demapBpsk => exact .demap (m := .bpsk) rfl
  | demapQpsk => exact .demap (m := .qpsk) rfl
  | demapQam16 => exact .demap (m := .qam16) rfl
  | demapQam64 => exact .demap (m := .qam64) rfl
  | demapQam256 => exact .demap (m := .qam256) rfl
  | dmrsBpsk => exact .dmrs (m := .bpsk) rfl
  | dmrsQpsk => exact .dmrs (m := .qpsk) rfl
  | dmrsQam16 => exact .dmrs (m := .qam16) rfl
  | dmrsQam64 => exact .dmrs (m := .qam64) rfl
  | dmrsQam256 => exact .dmrs (m := .qam256) rfl

/-- The last step of R108: the fields of an opcode's format. -/
def decodeFields (op : BitVec 4) (d : Descriptor) : Except ErrorCode Instr :=
  match op.toNat with
  | 0 => .ok .nop
  | 1 => .ok .endList
  | 2 => .ok (.jump d.w1)
  | 3 => .ok (.setout d.w1)
  | 4 => .ok (.config (d.w0.extractLsb' 4 6) (d.w1.extractLsb' 0 16) (d.w1.extractLsb' 16 16))
  | 5 => decodeDemap d
  | 6 => decodeDmrs d
  | _ => decodeCholinv d

/-- A command is decoded past the checks of the opcode and of the reserved bits. -/
theorem decodeWords_eq_ok_iff (d : Descriptor) (i : Instr) :
    decodeWords d = .ok i ↔
      ∃ op : BitVec 4, op.toNat < 8 ∧ CarriesOpcode d.w0 op ∧ decodeFields op d = .ok i := by
  unfold decodeWords
  constructor
  · intro h
    split at h
    · cases h
    split at h
    · cases h
    rename_i hlt hres
    exact ⟨opOf d.w0, Nat.lt_of_not_le hlt, ⟨rfl, not_not.mp hres⟩, h⟩
  · rintro ⟨op, hlt, ⟨rfl, hres⟩, h⟩
    rw [if_neg (Nat.not_le_of_lt hlt), if_neg (not_not.mpr hres)]
    exact h

theorem decodeDemap_eq_ok_iff (d : Descriptor) (i : Instr) :
    decodeDemap d = .ok i ↔ ∃ m, Modulation.ofCode (d.w0.extractLsb' 4 3) = some m ∧
      i = demapInstr m (Layers.ofCode (d.w0.extractLsb' 7 1)) (Subcarriers.ofCode (d.w0.extractLsb' 8 2))
        d.w1 d.w2 d.w3 := by
  unfold decodeDemap
  split <;> simp [*, eq_comm]

theorem decodeDmrs_eq_ok_iff (d : Descriptor) (i : Instr) :
    decodeDmrs d = .ok i ↔ ∃ m, Modulation.ofCode (d.w0.extractLsb' 4 3) = some m ∧
      i = dmrsInstr m (Layers.ofCode (d.w0.extractLsb' 7 1)) (Subcarriers.ofCode (d.w0.extractLsb' 8 2))
        (DmrsType.ofCode (d.w0.extractLsb' 10 1)) (CdmGroups.ofCode (d.w0.extractLsb' 11 1))
        (PortParity.ofCode (d.w0.extractLsb' 12 1)) d.w1 d.w2 d.w3 := by
  unfold decodeDmrs
  split <;> simp [*, eq_comm]

theorem decodeCholinv_eq_ok_iff (d : Descriptor) (i : Instr) :
    decodeCholinv d = .ok i ↔
      legalSize (d.w0.extractLsb' 4 5) ∧ i = .cholinv (d.w0.extractLsb' 4 5) d.w1 d.w2 := by
  simp only [decodeCholinv]
  split
  · rename_i hn
    rw [Except.ok.injEq, and_iff_right hn, eq_comm]
  · rename_i hn
    exact iff_of_false nofun fun h => hn h.1

theorem valid_opcode_cases : ∀ op : BitVec 4, op.toNat < 8 →
    op = 0 ∨ op = 1 ∨ op = 2 ∨ op = 3 ∨ op = 4 ∨ op = 5 ∨ op = 6 ∨ op = 7 := by decide

/-- The decoder answers only commands that the descriptor encodes. -/
theorem encodes_of_decodeWords {d : Descriptor} {i : Instr} (h : decodeWords d = .ok i) : Encodes d i := by
  obtain ⟨op, hlt, hop, h⟩ := (decodeWords_eq_ok_iff d i).mp h
  rcases valid_opcode_cases op hlt with rfl | rfl | rfl | rfl | rfl | rfl | rfl | rfl
  · cases h
    exact .nop ((w0Control_eq_iff d.w0 (by decide)).mpr hop)
  · cases h
    exact .endList ((w0Control_eq_iff d.w0 (by decide)).mpr hop)
  · cases h
    exact .jump ((w0Control_eq_iff d.w0 (by decide)).mpr hop)
  · cases h
    exact .setout ((w0Control_eq_iff d.w0 (by decide)).mpr hop)
  · cases h
    exact .config ((w0Config_eq_iff ..).mpr ⟨hop, rfl⟩) ((w1Config_eq_iff ..).mpr ⟨rfl, rfl⟩)
  · obtain ⟨m, hm, rfl⟩ := (decodeDemap_eq_ok_iff d i).mp h
    exact .demap ((w0Demap_eq_iff ..).mpr ⟨hop, hm, rfl, rfl⟩)
  · obtain ⟨m, hm, rfl⟩ := (decodeDmrs_eq_ok_iff d i).mp h
    exact .dmrs ((w0Dmrs_eq_iff ..).mpr ⟨hop, hm, rfl, rfl, rfl, rfl, rfl⟩)
  · obtain ⟨hn, rfl⟩ := (decodeCholinv_eq_ok_iff d i).mp h
    exact .cholinv hn ((w0Cholinv_eq_iff ..).mpr ⟨hop, rfl⟩)

/-- The decoder answers every command that the descriptor encodes. -/
theorem decodeWords_of_encodes {d : Descriptor} {i : Instr} (h : Encodes d i) : decodeWords d = .ok i := by
  rw [decodeWords_eq_ok_iff]
  cases h with
  | nop h0 => exact ⟨0, by decide, (w0Control_eq_iff d.w0 (by decide)).mp h0, rfl⟩
  | endList h0 => exact ⟨1, by decide, (w0Control_eq_iff d.w0 (by decide)).mp h0, rfl⟩
  | jump h0 => exact ⟨2, by decide, (w0Control_eq_iff d.w0 (by decide)).mp h0, rfl⟩
  | setout h0 => exact ⟨3, by decide, (w0Control_eq_iff d.w0 (by decide)).mp h0, rfl⟩
  | config h0 h1 =>
    obtain ⟨hop, rfl⟩ := (w0Config_eq_iff ..).mp h0
    obtain ⟨rfl, rfl⟩ := (w1Config_eq_iff ..).mp h1
    exact ⟨4, by decide, hop, rfl⟩
  | demap h0 =>
    obtain ⟨hop, hm, rfl, rfl⟩ := (w0Demap_eq_iff ..).mp h0
    exact ⟨5, by decide, hop, (decodeDemap_eq_ok_iff ..).mpr ⟨_, hm, rfl⟩⟩
  | dmrs h0 =>
    obtain ⟨hop, hm, rfl, rfl, rfl, rfl, rfl⟩ := (w0Dmrs_eq_iff ..).mp h0
    exact ⟨6, by decide, hop, (decodeDmrs_eq_ok_iff ..).mpr ⟨_, hm, rfl⟩⟩
  | cholinv hn h0 =>
    obtain ⟨hop, rfl⟩ := (w0Cholinv_eq_iff ..).mp h0
    exact ⟨7, by decide, hop, (decodeCholinv_eq_ok_iff ..).mpr ⟨hn, rfl⟩⟩

@[simp] theorem encode_demapInstr (m : Modulation) (lyr : Layers) (nsc : Subcarriers) (sym beta winv : Word) :
    encode (demapInstr m lyr nsc sym beta winv) = encodeDemap m lyr nsc sym beta winv := by
  cases m <;> rfl

@[simp] theorem encode_dmrsInstr (m : Modulation) (lyr : Layers) (nsc : Subcarriers) (ty : DmrsType)
    (cd : CdmGroups) (pp : PortParity) (sym beta winv : Word) :
    encode (dmrsInstr m lyr nsc ty cd pp sym beta winv) = encodeDmrs m lyr nsc ty cd pp sym beta winv := by
  cases m <;> rfl

@[simp] theorem wellFormed_demapInstr (m : Modulation) (lyr : Layers) (nsc : Subcarriers) (sym beta winv : Word) :
    WellFormed (demapInstr m lyr nsc sym beta winv) := by
  cases m <;> rfl

@[simp] theorem wellFormed_dmrsInstr (m : Modulation) (lyr : Layers) (nsc : Subcarriers) (ty : DmrsType)
    (cd : CdmGroups) (pp : PortParity) (sym beta winv : Word) :
    WellFormed (dmrsInstr m lyr nsc ty cd pp sym beta winv) := by
  cases m <;> rfl

theorem decodeWords_encode {i : Instr} (hi : WellFormed i) : decodeWords (encode i) = .ok i :=
  decodeWords_of_encodes (encodes_encode hi)

/-- Settles O15, format by format. -/
theorem encodeOfDecode : Obligations.EncodeOfDecode := by
  intro d i h
  cases encodes_of_decodeWords h with
  | nop h0 | endList h0 => exact ⟨rfl, h0, trivial⟩
  | jump h0 | setout h0 => exact ⟨rfl, h0, rfl⟩
  | config h0 h1 => exact ⟨rfl, h0, h1⟩
  | @demap m lyr nsc h0 =>
    have henc : encode (demapInstr m lyr nsc d.w1 d.w2 d.w3) = d := by rw [encode_demapInstr, encodeDemap, h0]
    refine ⟨wellFormed_demapInstr .., by rw [henc], ?_⟩
    cases m <;> exact henc
  | @dmrs m lyr nsc ty cd pp h0 =>
    have henc : encode (dmrsInstr m lyr nsc ty cd pp d.w1 d.w2 d.w3) = d := by
      rw [encode_dmrsInstr, encodeDmrs, h0]
    refine ⟨wellFormed_dmrsInstr .., by rw [henc], ?_⟩
    cases m <;> exact henc
  | cholinv hn h0 => exact ⟨decide_eq_true hn, h0, rfl, rfl⟩

/-! ### The bytes of a descriptor (R100, 20_memory.md R73) -/

@[simp] theorem descriptorBytes_length (d : Descriptor) : (descriptorBytes d).length = 16 := by
  simp [descriptorBytes]

/-- A word is read where its four little-endian bytes stand. -/
theorem wordAt_of_drop {bs tail : List Byte} {i : Nat} {w : Word}
    (h : bs.drop (4 * i) = leBytes 4 w.toNat ++ tail) : wordAt bs i = w := by
  have htake : (leBytes 4 w.toNat ++ tail).take 4 = leBytes 4 w.toNat :=
    List.take_left' (leBytes_length 4 _)
  have hfit : w.toNat % 256 ^ 4 = w.toNat := Nat.mod_eq_of_lt w.isLt
  rw [wordAt, h, htake, leNat_leBytes, hfit, BitVec.ofNat_toNat, BitVec.setWidth_eq]

/-- The bytes of a descriptor spell it, whatever follows. -/
theorem descriptorOf_descriptorBytes_append (d : Descriptor) (rest : List Byte) :
    descriptorOf (descriptorBytes d ++ rest) = d := by
  have h0 : wordAt (descriptorBytes d ++ rest) 0 = d.w0 := wordAt_of_drop rfl
  have h1 : wordAt (descriptorBytes d ++ rest) 1 = d.w1 := wordAt_of_drop rfl
  have h2 : wordAt (descriptorBytes d ++ rest) 2 = d.w2 := wordAt_of_drop rfl
  have h3 : wordAt (descriptorBytes d ++ rest) 3 = d.w3 := wordAt_of_drop rfl
  rw [descriptorOf, h0, h1, h2, h3]

/-- Settles O14: the words, then the bytes that spell them. -/
theorem decodeOfEncode : Obligations.DecodeOfEncode := by
  intro i hi
  refine ⟨decodeWords_encode hi, fun rest => ?_⟩
  have hlen : ¬ (encodeBytes i ++ rest).length < 16 := by simp [encodeBytes]
  have hdrop : (encodeBytes i ++ rest).drop 16 = rest := List.drop_left' (descriptorBytes_length _)
  rw [decode, if_neg hlen, hdrop, encodeBytes, descriptorOf_descriptorBytes_append, decodeWords_encode hi]

/-- Settles O13. -/
theorem reservedMasks : Obligations.ReservedMasks := by
  unfold Obligations.ReservedMasks
  decide

/-- Settles O16. -/
theorem specWordsDecode : Obligations.SpecWordsDecode := by
  unfold Obligations.SpecWordsDecode
  decide

/-! ### Operands of assembly lines (R109) -/

/-- A number names a field value exactly when it is that value. -/
theorem ofNat_eq_some_iff {w : Nat} (n : Nat) (v : BitVec w) :
    (if n < 2 ^ w then some (BitVec.ofNat w n) else none) = some v ↔ v.toNat = n := by
  constructor
  · intro h
    split at h <;> cases h
    exact Nat.mod_eq_of_lt ‹_›
  · rintro rfl
    rw [if_pos v.isLt, BitVec.ofNat_toNat, BitVec.setWidth_eq]

theorem asmAddr_num_iff (labels : List (String × Nat)) (n : Nat) (v : Word) :
    asmAddr labels (.num n) = some v ↔ v.toNat = n := ofNat_eq_some_iff n v

theorem asmAddr_label_iff (labels : List (String × Nat)) (name : String) (v : Word) :
    asmAddr labels (.label name) = some v ↔ labels.lookup name = some v.toNat := by
  cases h : labels.lookup name with
  | none => simp [asmAddr, h]
  | some n =>
    rw [Option.some.injEq, eq_comm (a := n), ← ofNat_eq_some_iff n v]
    simp only [asmAddr, h]

theorem asmAddr_iff (labels : List (String × Nat)) (a : AsmAddr) (v : Word) :
    asmAddr labels a = some v ↔
      a = .num v.toNat ∨ ∃ name, a = .label name ∧ labels.lookup name = some v.toNat := by
  cases a with
  | num n => rw [asmAddr_num_iff]; simp [eq_comm]
  | label name => rw [asmAddr_label_iff]; simp

theorem asmInt16_iff (n : Int) (v : Half) : asmInt16 n = some v ↔ v.toInt = n := by
  constructor
  · intro h
    unfold asmInt16 at h
    split at h <;> cases h
    exact BitVec.toInt_ofInt_eq_self (by decide) (by omega) (by omega)
  · rintro rfl
    have hlo := v.le_toInt
    have hhi := v.toInt_lt
    rw [asmInt16, if_pos ⟨by omega, by omega⟩, BitVec.ofInt_toInt]

theorem asmLayers_iff (l : Nat) (lyr : Layers) : asmLayers l = some lyr ↔ layerCount lyr = l := by
  constructor
  · intro h
    unfold asmLayers at h
    split at h <;> cases h <;> rfl
  · rintro rfl
    cases lyr <;> rfl

theorem asmSubcarriers_iff (n : Nat) (nsc : Subcarriers) :
    asmSubcarriers n = some nsc ↔ subcarrierCount nsc = n := by
  constructor
  · intro h
    unfold asmSubcarriers at h
    split at h <;> cases h <;> rfl
  · rintro rfl
    cases nsc <;> rfl

theorem asmType_iff (n : Nat) (ty : DmrsType) : asmType n = some ty ↔ ty.code.toNat + 1 = n := by
  constructor
  · intro h
    unfold asmType at h
    split at h <;> cases h <;> rfl
  · rintro rfl
    cases ty <;> rfl

theorem asmCdm_iff (n : Nat) (cd : CdmGroups) : asmCdm n = some cd ↔ cd.code.toNat + 1 = n := by
  constructor
  · intro h
    unfold asmCdm at h
    split at h <;> cases h <;> rfl
  · rintro rfl
    cases cd <;> rfl

theorem asmPort_iff (n : Nat) (pp : PortParity) : asmPort n = pp ↔ pp.code.toNat = n % 2 := by
  rcases Nat.mod_two_eq_zero_or_one n with h | h <;> cases pp <;> simp [asmPort, PortParity.code, h]

theorem asmLanes_given_iff (l n : Nat) (lyr : Layers) (nsc : Subcarriers) :
    asmLanes (.given l n) = some (lyr, nsc) ↔ layerCount lyr = l ∧ subcarrierCount nsc = n := by
  rw [← asmLayers_iff, ← asmSubcarriers_iff]
  cases hl : asmLayers l <;> cases hn : asmSubcarriers n <;> simp [asmLanes, hl, hn]

/-! ### Commands of assembly lines (R109, R110) -/

section Lines

variable {labels : List (String × Nat)} {i : Instr}

theorem asmCommand_jump_iff (t : AsmAddr) :
    asmCommand labels (.jump t) = some i ↔ ∃ v, asmAddr labels t = some v ∧ i = .jump v := by
  simp only [asmCommand, Option.map_eq_some_iff, eq_comm (a := i)]

theorem asmCommand_setout_iff (t : AsmAddr) :
    asmCommand labels (.setout t) = some i ↔ ∃ v, asmAddr labels t = some v ∧ i = .setout v := by
  simp only [asmCommand, Option.map_eq_some_iff, eq_comm (a := i)]

theorem asmCommand_config_iff (shift : Nat) (low high : Int) :
    asmCommand labels (.config shift low high) = some i ↔
      ∃ (k : BitVec 6) (lo hi : Half), k.toNat = shift ∧ lo.toInt = low ∧ hi.toInt = high ∧
        i = .config k lo hi := by
  simp only [← asmInt16_iff, ← ofNat_eq_some_iff shift]
  constructor
  · intro h
    simp only [asmCommand] at h
    split at h
    · rename_i lo hi hlo hhi
      split at h <;> cases h
      exact ⟨_, lo, hi, if_pos ‹_›, hlo, hhi, rfl⟩
    · cases h
  · rintro ⟨k, lo, hi, hk, hlo, hhi, rfl⟩
    split at hk <;> cases hk
    simp only [asmCommand, hlo, hhi]
    exact if_pos ‹_›

theorem asmCommand_demap_iff (m : Modulation) (dims : AsmLanes) (sym beta w : AsmAddr) :
    asmCommand labels (.demap m dims sym beta w) = some i ↔
      ∃ lyr nsc a b c, asmLanes dims = some (lyr, nsc) ∧ asmAddr labels sym = some a ∧
        asmAddr labels beta = some b ∧ asmAddr labels w = some c ∧ i = demapInstr m lyr nsc a b c := by
  constructor
  · intro h
    simp only [asmCommand] at h
    split at h <;> cases h
    rename_i lyr nsc a b c hdims ha hb hc
    exact ⟨lyr, nsc, a, b, c, hdims, ha, hb, hc, rfl⟩
  · rintro ⟨lyr, nsc, a, b, c, hdims, ha, hb, hc, rfl⟩
    simp only [asmCommand, hdims, ha, hb, hc]

theorem asmCommand_demapDmrs_iff (m : Modulation) (dims : AsmLanes) (type cdm port : Nat)
    (sym beta w : AsmAddr) :
    asmCommand labels (.demapDmrs m dims type cdm port sym beta w) = some i ↔
      ∃ lyr nsc ty cd pp a b c, asmLanes dims = some (lyr, nsc) ∧ ty.code.toNat + 1 = type ∧
        cd.code.toNat + 1 = cdm ∧ pp.code.toNat = port % 2 ∧ asmAddr labels sym = some a ∧
        asmAddr labels beta = some b ∧ asmAddr labels w = some c ∧ i = dmrsInstr m lyr nsc ty cd pp a b c := by
  simp only [← asmType_iff, ← asmCdm_iff, ← asmPort_iff]
  constructor
  · intro h
    simp only [asmCommand] at h
    split at h <;> cases h
    rename_i lyr nsc ty cd a b c hdims hty hcd ha hb hc
    exact ⟨lyr, nsc, ty, cd, _, a, b, c, hdims, hty, hcd, rfl, ha, hb, hc, rfl⟩
  · rintro ⟨lyr, nsc, ty, cd, pp, a, b, c, hdims, hty, hcd, rfl, ha, hb, hc, rfl⟩
    simp only [asmCommand, hdims, hty, hcd, ha, hb, hc]

theorem asmCommand_cholinv_iff (n : Nat) (src dst : AsmAddr) :
    asmCommand labels (.cholinv n src dst) = some i ↔
      ∃ (k : BitVec 5) (a b : Word), k.toNat = n ∧ legalSize k ∧ asmAddr labels src = some a ∧
        asmAddr labels dst = some b ∧ i = .cholinv k a b := by
  constructor
  · intro h
    simp only [asmCommand] at h
    split at h
    · rename_i a b ha hb
      split at h <;> cases h
      rename_i hn
      have hk : (BitVec.ofNat 5 n).toNat = n := Nat.mod_eq_of_lt (by omega)
      exact ⟨_, a, b, hk, by rwa [legalSize, hk], ha, hb, rfl⟩
    · cases h
  · rintro ⟨k, a, b, rfl, hk, ha, hb, rfl⟩
    simp only [asmCommand, ha, hb, BitVec.ofNat_toNat, BitVec.setWidth_eq]
    exact if_pos hk

end Lines

/-- Settles O59, line by line. -/
theorem assemblyLinesNameCommands : Obligations.AssemblyLinesNameCommands := by
  intro labels i
  refine ⟨asmAddr_iff labels, ?_, ?_, asmCommand_jump_iff, asmCommand_setout_iff, asmCommand_config_iff, ?_, ?_,
    asmCommand_cholinv_iff⟩
  · simp only [asmCommand, Option.some.injEq, eq_comm]
  · simp only [asmCommand, Option.some.injEq, eq_comm]
  · intro m l n sym beta w
    simp only [asmCommand_demap_iff, asmLanes_given_iff, and_assoc]
  · intro m l n type cdm port sym beta w
    simp only [asmCommand_demapDmrs_iff, asmLanes_given_iff, and_assoc]

/-- Settles O18: the two sides of each row of R110 are the same line to the assembler. -/
theorem pseudoInstructionsExpand : Obligations.PseudoInstructionsExpand :=
  fun _ _ _ _ _ _ _ _ _ => ⟨rfl, rfl, rfl, rfl, rfl⟩

/-! ### An assembled command in BUF (R109) -/

/-- Only commands that some descriptor encodes are assembled. -/
theorem wellFormed_of_asmCommand {labels : List (String × Nat)} {c : AsmCommand} {i : Instr}
    (h : asmCommand labels c = some i) : WellFormed i := by
  cases c with
  | nop | endList | halt | configDefault => cases h; rfl
  | jump | b => obtain ⟨v, -, rfl⟩ := (asmCommand_jump_iff _).mp h; rfl
  | setout => obtain ⟨v, -, rfl⟩ := (asmCommand_setout_iff _).mp h; rfl
  | config => obtain ⟨k, lo, hi, -, -, -, rfl⟩ := (asmCommand_config_iff ..).mp h; rfl
  | demap =>
    obtain ⟨lyr, nsc, a, b, c, -, -, -, -, rfl⟩ := (asmCommand_demap_iff ..).mp h
    exact wellFormed_demapInstr ..
  | demapDmrs =>
    obtain ⟨lyr, nsc, ty, cd, pp, a, b, c, -, -, -, -, -, -, -, rfl⟩ := (asmCommand_demapDmrs_iff ..).mp h
    exact wellFormed_dmrsInstr ..
  | cholinv =>
    obtain ⟨k, a, b, -, hk, -, -, rfl⟩ := (asmCommand_cholinv_iff ..).mp h
    exact decide_eq_true hk

/-- The words of a written run, at the offsets of a descriptor's words. -/
theorem Memory.readWord_writeBytes (m : Memory) (a : Nat) (bs : List Byte) {i : Nat} (h : 4 * i + 4 ≤ bs.length) :
    (m.writeBytes a bs).readWord (a + 4 * i) = some (wordAt bs i) := by
  rw [Memory.readWord, Memory.memRead_writeBytes m a bs h, Option.map_some, wordAt]

/-- A written descriptor is fetched back. -/
theorem Memory.readDescriptor_writeBytes (m : Memory) (a : Nat) (d : Descriptor) :
    (m.writeBytes a (descriptorBytes d)).readDescriptor a = some d := by
  have hd : descriptorOf (descriptorBytes d) = d := by
    simpa using descriptorOf_descriptorBytes_append d []
  have hword {i : Nat} (hi : i < 4) :=
    m.readWord_writeBytes a (descriptorBytes d) (i := i) (by rw [descriptorBytes_length]; omega)
  have h0 : (m.writeBytes a (descriptorBytes d)).readWord a = _ := hword (i := 0) (by decide)
  have h1 : (m.writeBytes a (descriptorBytes d)).readWord (a + 4) = _ := hword (i := 1) (by decide)
  have h2 : (m.writeBytes a (descriptorBytes d)).readWord (a + 8) = _ := hword (i := 2) (by decide)
  have h3 : (m.writeBytes a (descriptorBytes d)).readWord (a + 12) = _ := hword (i := 3) (by decide)
  rw [Memory.readDescriptor, h0, h1, h2, h3]
  exact congrArg some hd

/-- The image of one command line: 16 bytes over what is there. -/
theorem asmImage_command (labels : List (String × Nat)) (a : Nat) (m : Memory) (c : AsmCommand) :
    asmImage labels a m [.command c] =
      if a % 16 = 0 then (asmCommand labels c).map fun i => m.writeBytes a (encodeBytes i) else none := by
  simp only [asmImage, asmBytes]
  by_cases ha : a % 16 = 0
  · cases asmCommand labels c <;> simp [ha]
  · simp [ha]

/-- Settles O17: rejected lines, then the written descriptor. -/
theorem assembledCommandsDecode : Obligations.AssembledCommandsDecode := by
  intro labels a m c
  rw [asmImage_command]
  refine ⟨fun ha => if_neg ha, fun hc => by simp [hc], fun i ha hi => ?_⟩
  have hwf := wellFormed_of_asmCommand hi
  refine ⟨m.writeBytes a (encodeBytes i), by rw [if_pos ha, hi, Option.map_some],
    m.readDescriptor_writeBytes a (encode i), decodeWords_encode hwf, fun x hx => ?_⟩
  exact m.readByte_writeBytes_outside a _ x (by rwa [encodeBytes, descriptorBytes_length])

end Sys2Proof.Machine

/-!
40_control.md: the ENGINE's step, from the fetch through the decoder to the command, and the five control commands.
-/
namespace Sys2Proof.Machine

/-! ### The fetch (R130, 30_encoding.md R100) -/

theorem Memory.initialised_add (m : Memory) (a n k : Nat) :
    m.initialised a (n + k) ↔ m.initialised a n ∧ m.initialised (a + n) k := by
  constructor
  · intro h
    refine ⟨fun j hj => h j (by omega), fun j hj => ?_⟩
    rw [Nat.add_assoc]
    exact h (n + j) (by omega)
  · rintro ⟨hlow, hhigh⟩ j hj
    by_cases hjn : j < n
    · exact hlow j hjn
    · have hbyte := hhigh (j - n) (by omega)
      rwa [show a + n + (j - n) = a + j by omega] at hbyte

theorem Memory.readDescriptor_eq_some_iff (m : Memory) (a : Nat) (d : Descriptor) :
    m.readDescriptor a = some d ↔ m.readWord a = some d.w0 ∧ m.readWord (a + 4) = some d.w1 ∧
      m.readWord (a + 8) = some d.w2 ∧ m.readWord (a + 12) = some d.w3 := by
  unfold Memory.readDescriptor
  constructor
  · intro h
    split at h
    · rename_i h0 h1 h2 h3
      cases h
      exact ⟨h0, h1, h2, h3⟩
    · cases h
  · rintro ⟨h0, h1, h2, h3⟩
    rw [h0, h1, h2, h3]

/-- A descriptor can be read exactly where its 16 bytes have been written (10_state.md R57). -/
theorem Memory.readDescriptor_ne_none_iff (m : Memory) (a : Nat) :
    m.readDescriptor a ≠ none ↔ m.initialised a 16 := by
  have hwords : m.initialised a 16 ↔ m.readWord a ≠ none ∧ m.readWord (a + 4) ≠ none ∧
      m.readWord (a + 8) ≠ none ∧ m.readWord (a + 12) ≠ none := by
    simp only [Memory.readWord_ne_none_iff]
    rw [m.initialised_add a 4 12, m.initialised_add (a + 4) 4 8, m.initialised_add (a + 4 + 4) 4 4]
  simp only [hwords, Option.ne_none_iff_exists', Memory.readDescriptor_eq_some_iff]
  constructor
  · rintro ⟨d, h0, h1, h2, h3⟩
    exact ⟨⟨_, h0⟩, ⟨_, h1⟩, ⟨_, h2⟩, ⟨_, h3⟩⟩
  · rintro ⟨⟨w0, h0⟩, ⟨w1, h1⟩, ⟨w2, h2⟩, ⟨w3, h3⟩⟩
    exact ⟨⟨w0, w1, w2, w3⟩, h0, h1, h2, h3⟩

section Fetch
variable {s : State} {d : Descriptor}

theorem State.fetch_of_outside (hr : ¬ s.inRange s.cp 16) : s.fetch = .error .outside := if_neg hr

theorem State.fetch_of_some (hr : s.inRange s.cp 16) (hd : s.buf.readDescriptor s.cp.toNat = some d) :
    s.fetch = .ok d := by
  rw [State.fetch, if_pos hr, hd]

theorem State.fetch_of_none (hr : s.inRange s.cp 16) (hd : s.buf.readDescriptor s.cp.toNat = none) :
    s.fetch = .error .uninit := by
  rw [State.fetch, if_pos hr, hd]

/-- The range check comes first, so that bytes outside BUF are never asked for. -/
theorem State.fetch_of_unwritten (hr : s.inRange s.cp 16) (hu : ¬ s.buf.initialised s.cp.toNat 16) :
    s.fetch = .error .uninit :=
  State.fetch_of_none hr (not_not.mp fun hd => hu ((s.buf.readDescriptor_ne_none_iff _).mp hd))

/-- A descriptor that lies in BUF and is written is fetched, word by word. -/
theorem State.fetch_of_written (hr : s.inRange s.cp 16) (hw : s.buf.initialised s.cp.toNat 16) :
    ∃ d, s.fetch = .ok d ∧ s.buf.readDescriptor s.cp.toNat = some d := by
  obtain ⟨d, hd⟩ := Option.ne_none_iff_exists'.mp ((s.buf.readDescriptor_ne_none_iff _).mpr hw)
  exact ⟨d, State.fetch_of_some hr hd, hd⟩

end Fetch

/-! ### The ENGINE's step, one equation per outcome (R130) -/

section Engine
variable {s : State} {d : Descriptor} {i : Instr} {e : ErrorCode} {rest : List PortEvent}

theorem engineStep_of_outside (hf : s.fetch = .error .outside) :
    engineStep s = .next (s.enterError .bufRange s.cp) := by
  rw [engineStep, hf, raise]

theorem engineStep_of_uninit (hf : s.fetch = .error .uninit) : engineStep s = .fault .uninitRead := by
  rw [engineStep, hf]

theorem engineStep_of_decoded (hf : s.fetch = .ok d) (hi : decodeWords d = .ok i) : engineStep s = exec i s := by
  simp only [engineStep, hf, hi]

theorem engineStep_of_rejected (hf : s.fetch = .ok d) (he : decodeWords d = .error e) :
    engineStep s = .next (s.enterError e d.w0) := by
  simp only [engineStep, hf, he, raise]

theorem engineTurn_of_busy (hs : s.engState = .busy) : engineTurn s = engineStep s := by
  rw [engineTurn, hs]

theorem engineTurn_of_stopped (hs : s.engState ≠ .busy) : engineTurn s = .next s := by
  unfold engineTurn
  cases h : s.engState with
  | busy => exact absurd h hs
  | idle | error => rfl

theorem step_of_inbox_nil (h : s.inbox = []) : step s = engineTurn s := by
  rw [step, h]

theorem step_of_busy (hs : s.engState = .busy) (h : s.inbox = []) : step s = engineStep s := by
  rw [step_of_inbox_nil h, engineTurn_of_busy hs]

theorem step_of_engineTurn (hs : s.engState = .busy) (h : s.inbox = .engineTurn :: rest) :
    step s = engineStep (s.withInbox rest) := by
  rw [step_of_inbox_cons h]
  exact engineTurn_of_busy hs

end Engine

/-- Settles O7: with no event waiting a step is the ENGINE's turn, which does nothing unless BUSY. -/
theorem stoppedEngineChangesNothing : Obligations.StoppedEngineChangesNothing := by
  intro s hs hinbox
  rw [step_of_inbox_nil hinbox, engineTurn_of_stopped hs]

/-- Settles O6: the fetch, then the two outcomes of the decoder, with no event waiting and with `engineTurn` first.
Taking the event off the list changes nothing that the fetch reads. -/
theorem stepRunsDecodedCommand : Obligations.StepRunsDecodedCommand := by
  refine ⟨?fetch, ?decoded, ?rejected, ?turnDecoded, ?turnRejected⟩
  case fetch =>
    intro s _ hr hw
    obtain ⟨d, hf, hd⟩ := State.fetch_of_written hr hw
    exact ⟨d, hf, (s.buf.readDescriptor_eq_some_iff _ d).mp hd⟩
  case decoded =>
    rintro s d i ⟨hs, hinbox, hf⟩ hi
    rw [step_of_busy hs hinbox, engineStep_of_decoded hf hi]
  case rejected =>
    rintro s d e ⟨hs, hinbox, hf⟩ he
    rw [step_of_busy hs hinbox, engineStep_of_rejected hf he]
  case turnDecoded =>
    intro s rest d i hs hinbox hf hi
    rw [step_of_engineTurn hs hinbox]
    exact engineStep_of_decoded hf hi
  case turnRejected =>
    intro s rest d e hs hinbox hf he
    rw [step_of_engineTurn hs hinbox]
    exact engineStep_of_rejected hf he

/-- A BUSY ENGINE at a CP too near the end of BUF raises BUF_RANGE, whatever BUF holds (10_state.md R52). -/
theorem fetchRangeChecked : FetchRangeChecked := by
  intro s hs hinbox hr
  rw [step_of_busy hs hinbox, engineStep_of_outside (State.fetch_of_outside hr)]

/-! ### The step of a descriptor with a given opcode (30_encoding.md R107, R108)

The opcode is below 8, so the reserved bits are all that can make the decoder refuse the descriptor before it reads
the fields. -/

section Opcode
variable {s : State} {d : Descriptor} {op : BitVec 4} {i : Instr}

theorem decodeWords_of_reserved (hop : opOf d.w0 = op) (hlt : op.toNat < 8) (hres : d.w0 &&& res0Mask op ≠ 0) :
    decodeWords d = .error .reservedField := by
  subst hop
  rw [decodeWords, if_neg (Nat.not_le_of_lt hlt), if_pos hres]

theorem step_of_opcode (hd : EngineFetches s d) (hop : opOf d.w0 = op) (hlt : op.toNat < 8)
    (hi : decodeFields op d = .ok i) :
    step s = if d.w0 &&& res0Mask op = 0 then exec i s else .next (s.enterError .reservedField d.w0) := by
  obtain ⟨hs, hinbox, hf⟩ := hd
  rw [step_of_busy hs hinbox]
  split
  · rename_i hres
    exact engineStep_of_decoded hf ((decodeWords_eq_ok_iff d i).mpr ⟨op, hlt, ⟨hop, hres⟩, hi⟩)
  · rename_i hres
    exact engineStep_of_rejected hf (decodeWords_of_reserved hop hlt hres)

/-- Where every bit above the opcode is reserved, W0 must be the opcode itself. -/
theorem step_of_control (hd : EngineFetches s d) (hop : opOf d.w0 = op) (hlt : op.toNat < 8)
    (hmask : res0Mask op = BitVec.allOnes 32 <<< 4) (hi : decodeFields op d = .ok i) :
    step s = if d.w0 = op.setWidth 32 then exec i s else .next (s.enterError .reservedField d.w0) := by
  have hw0 : d.w0 = op.setWidth 32 ↔ d.w0 &&& res0Mask op = 0 := by
    rw [eq_comm, w0Control_eq_iff d.w0 hmask, CarriesOpcode, and_iff_right hop]
  simp only [hw0]
  exact step_of_opcode hd hop hlt hi

end Opcode

/-! ### NOP and SETOUT (R132, R134) -/

theorem exec_nop (s : State) : exec .nop s = .next s.advance := rfl

theorem exec_setout (a : Word) (s : State) : exec (.setout a) s = .next (s.setOutp a).advance := rfl

/-- Settles O1: the outcomes of the fetch, then W0. -/
theorem nopOnlyAdvances : Obligations.NopOnlyAdvances := by
  refine ⟨exec_nop, ?step, fetchRangeChecked, ?unwritten⟩
  case step =>
    intro s d hd hop
    exact step_of_control (i := .nop) hd hop (by decide) (by decide) rfl
  case unwritten =>
    intro s hs hinbox hr hu
    rw [step_of_busy hs hinbox, engineStep_of_uninit (State.fetch_of_unwritten hr hu)]

/-- Settles O4: no check but those of the fetch and of W0. -/
theorem setoutSetsOnlyOutp : Obligations.SetoutSetsOnlyOutp := by
  refine ⟨fun s a => exec_setout a s, fun s d hd hop => ?_, fetchRangeChecked⟩
  exact step_of_control hd hop (by decide) (by decide) rfl

/-! ### END (R131) -/

theorem exec_endList (s : State) : exec .endList s = .next (s.stop.pend irqDone).advance := rfl

theorem bufBytes_le_of_legal {p : Config.Params} (hp : p.legal) : p.bufBytes ≤ 2 ^ 24 :=
  Nat.pow_le_pow_right Nat.two_pos hp.2

/-- CP + 16 does not wrap while the descriptor at CP is in BUF. -/
theorem State.toNat_cp_add_sixteen {s : State} (hp : s.params.legal) (hr : s.inRange s.cp 16) :
    (s.cp + 16).toNat = s.cp.toNat + 16 := by
  have hle := bufBytes_le_of_legal hp
  exact BitVec.toNat_add_of_lt (show s.cp.toNat + 16 < 2 ^ 32 by omega)

theorem State.start_of_idle {s : State} (hs : s.engState = .idle) : s.start = { s with engState := .busy } := by
  rw [State.start_eq, if_pos hs]

/-- An ENGINE started with CP at the end of BUF stops at once. -/
theorem step_start_of_outside {s : State} (hs : s.engState = .idle) (hinbox : s.inbox = [])
    (hr : ¬ s.inRange s.cp 16) : step s.start = .next (s.start.enterError .bufRange s.cp) := by
  rw [State.start_of_idle hs]
  exact fetchRangeChecked _ rfl hinbox hr

/-- Settles O2: CP past the last descriptor is BUF_BYTES, where the next fetch is out of range. -/
theorem endStopsAndSignalsDone : Obligations.EndStopsAndSignalsDone := by
  refine ⟨exec_endList, ?step, ?lastDescriptor, fetchRangeChecked⟩
  case step =>
    intro s d hd hop
    exact step_of_control hd hop (by decide) (by decide) rfl
  case lastDescriptor =>
    intro s t hp hinbox hlast h
    cases h
    have hcp : (s.cp + 16).toNat = s.params.bufBytes := by
      rw [State.toNat_cp_add_sixteen hp hlast.le, hlast]
    have hout : ¬ (s.cp + 16).toNat + 16 ≤ s.params.bufBytes := by omega
    exact ⟨hcp, step_start_of_outside rfl hinbox hout⟩

/-! ### JUMP (R133) -/

section Jump
variable {a : Word}

theorem exec_jump_of_aligned (ha : aligned16 a) (s : State) : exec (.jump a) s = .next (s.complete a) :=
  if_neg (not_not.mpr ha)

theorem exec_jump_of_misaligned (ha : ¬ aligned16 a) (s : State) :
    exec (.jump a) s = .next (s.enterError .misaligned a) :=
  if_pos ha

end Jump

/-- Settles O3: the range of the target is left to the next fetch. -/
theorem jumpNeedsAlignedTarget : Obligations.JumpNeedsAlignedTarget := by
  refine ⟨fun s a ha => exec_jump_of_aligned ha s, fun s a ha => exec_jump_of_misaligned ha s, ?step, ?outside,
    fetchRangeChecked⟩
  case step =>
    intro s d hd hop
    exact step_of_control hd hop (by decide) (by decide) rfl
  case outside =>
    intro s t a ha hs hinbox hr h
    rw [exec_jump_of_aligned ha] at h
    cases h
    exact ⟨fetchRangeChecked (s.complete a) hs hinbox hr, rfl⟩

/-! ### CONFIG (R135) -/

theorem exec_config (k : BitVec 6) (lo hi : Half) (s : State) :
    exec (.config k lo hi) s = .next (s.setConfig k lo hi).advance := rfl

section InvertedBounds
variable {s : State} (h : s.high.toInt < s.low.toInt)
include h

/-- LOW > HIGH is the first thing a demap command checks (41_llr_demap.md R152). -/
theorem demapOver_of_inverted (order : Modulation) (w0 : Word) (lyr : Layers) (nsc : Subcarriers) (sel : List Nat)
    (sym beta winv : Word) :
    demapOver order w0 lyr nsc sel sym beta winv s = .next (s.enterError .invalidConfig w0) :=
  demapOver_raises (if_pos h)

theorem exec_demapInstr_of_inverted (order : Modulation) (lyr : Layers) (nsc : Subcarriers)
    (sym beta winv : Word) :
    exec (demapInstr order lyr nsc sym beta winv) s =
      .next (s.enterError .invalidConfig (w0Demap order lyr nsc)) := by
  rw [exec_demapInstr, demapOver_of_inverted h]

theorem exec_dmrsInstr_of_inverted (order : Modulation) (lyr : Layers) (nsc : Subcarriers) (ty : DmrsType)
    (cd : CdmGroups) (pp : PortParity) (sym beta winv : Word) :
    exec (dmrsInstr order lyr nsc ty cd pp sym beta winv) s =
      .next (s.enterError .invalidConfig (w0Dmrs order lyr nsc ty cd pp)) := by
  rw [exec_dmrsInstr, demapOver_of_inverted h]

end InvertedBounds

/-- Settles O5: the bounds are stored unchecked, and the demap commands check them. -/
theorem configSetsAllThree : Obligations.ConfigSetsAllThree := by
  refine ⟨fun s k lo hi => exec_config k lo hi s, ?step, ?inverted, fetchRangeChecked⟩
  case step =>
    intro s d hd hop
    exact step_of_opcode hd hop (by decide) rfl
  case inverted =>
    intro s t k lo hi hlt h
    cases h
    exact ⟨exec_demapInstr_of_inverted hlt, exec_dmrsInstr_of_inverted hlt⟩

end Sys2Proof.Machine

/-!
41_llr_demap.md: the LLR of one sample, from the segment cascade through rounding and saturation, the LLRs of each
order, and the store of a demap command.
-/
namespace Sys2Proof.Machine

/-! ### Saturation to two bounds (R15, R158) -/

theorem sat_eq_max_min {lo hi : Int} (h : lo ≤ hi) (x : Int) : sat x lo hi = max lo (min hi x) := by
  unfold sat
  split
  · omega
  · split <;> omega

theorem sat_bounds {lo hi : Int} (h : lo ≤ hi) (x : Int) : lo ≤ sat x lo hi ∧ sat x lo hi ≤ hi := by
  rw [sat_eq_max_min h]
  exact ⟨le_max_left .., max_le h (min_le_left ..)⟩

theorem sat_mono {lo hi x y : Int} (h : lo ≤ hi) (hxy : x ≤ y) : sat x lo hi ≤ sat y lo hi := by
  rw [sat_eq_max_min h, sat_eq_max_min h]
  exact max_le_max_left lo (min_le_min_left hi hxy)

theorem sat_of_equal_bounds (x b : Int) : sat x b b = b := by
  rw [sat_eq_max_min le_rfl]
  exact max_eq_left (min_le_left ..)

theorem sat8_mono {x y : Int} (h : x ≤ y) : sat8 x ≤ sat8 y := sat_mono (by decide) h

/-! ### Rounding shift (R17) -/

theorem rshr_zero_left (n : Nat) : rshr 0 n = 0 := by
  cases n with
  | zero => rfl
  | succ n =>
    have hpos : (0 : Int) < 2 ^ n := by positivity
    rw [rshr, zero_add, pow_succ]
    exact Int.ediv_eq_zero_of_lt hpos.le (by omega)

/-- A rounding shift by at least one place is the floor of `p / 2 ^ (n + 1) + 1 / 2`. -/
theorem rshr_succ_bounds (p : Int) (n : Nat) :
    2 ^ (n + 1) * rshr p (n + 1) ≤ p + 2 ^ n ∧ p + 2 ^ n < 2 ^ (n + 1) * rshr p (n + 1) + 2 ^ (n + 1) :=
  ⟨Int.mul_ediv_self_le (by positivity), Int.lt_mul_ediv_self_add (by positivity)⟩

/-- Doubling before the shift or after it differs by the rounding of one place at most. -/
theorem natAbs_rshr_double_sub_le (p : Int) (n : Nat) : (rshr (2 * p) n - 2 * rshr p n).natAbs ≤ 1 := by
  cases n with
  | zero => simp [rshr]
  | succ n =>
    obtain ⟨hlo₂, hhi₂⟩ := rshr_succ_bounds (2 * p) n
    obtain ⟨hlo, hhi⟩ := rshr_succ_bounds p n
    generalize rshr (2 * p) (n + 1) = r₂ at *
    generalize rshr p (n + 1) = r at *
    have hpos : (0 : Int) < 2 ^ (n + 1) := by positivity
    have hhalf : (2 : Int) ^ (n + 1) = 2 * 2 ^ n := by ring
    have hub : 2 ^ (n + 1) * (r₂ - 2 * r) < 2 ^ (n + 1) * 2 := by linarith
    have hlb : (2 : Int) ^ (n + 1) * (-2) < 2 ^ (n + 1) * (r₂ - 2 * r) := by linarith
    have := lt_of_mul_lt_mul_left hub hpos.le
    have := lt_of_mul_lt_mul_left hlb hpos.le
    omega

/-! ### The absolute value and the sign of a sample (R21) -/

theorem absInt_neg (y : Int) : absInt (-y) = absInt y := by
  unfold absInt
  split <;> split <;> omega

theorem absInt_double (y : Int) : absInt (2 * y) = 2 * absInt y := by
  unfold absInt
  split <;> split <;> omega

/-! ### The segment cascade (R157) -/

theorem pw_singleton (row : Seg) (v t1 : Int) : pw [row] v t1 = segValue row v t1 := rfl

theorem pickSeg_cons {rows : List Seg} (h : rows ≠ []) (row : Seg) (v t1 : Int) :
    pickSeg v t1 (row :: rows) = if row.m * t1 < v then row else pickSeg v t1 rows := by
  cases rows with
  | nil => exact absurd rfl h
  | cons next rest => rfl

theorem pw_append_of_exceeded {row : Seg} {v t1 : Int} (hv : row.m * t1 < v) (tab : List Seg) :
    pw (tab ++ [row]) v t1 = segValue row v t1 := by
  rw [pw, List.reverse_append]
  cases htab : tab.reverse with
  | nil => rfl
  | cons top rest =>
    rw [List.reverse_singleton, List.singleton_append, pickSeg_cons (List.cons_ne_nil top rest), if_pos hv]

/-- Row `s` of the table is `row`, the one the rule names: the last whose threshold `v` exceeds, or else row 0. -/
structure LastExceeded (tab : List Seg) (v t1 : Int) (s : Nat) (row : Seg) : Prop where
  row_eq : tab[s]? = some row
  exceeded : s = 0 ∨ row.m * t1 < v
  later_not : ∀ (j : Nat) (later : Seg), s < j → tab[j]? = some later → v ≤ later.m * t1

/-- A further row that is exceeded takes over. -/
theorem LastExceeded.append_exceeded {row : Seg} {v t1 : Int} (tab : List Seg) (h : tab = [] ∨ row.m * t1 < v) :
    LastExceeded (tab ++ [row]) v t1 tab.length row where
  row_eq := by simp
  exceeded := h.imp_left (congrArg List.length)
  later_not j later hj hlater := by
    have : j < (tab ++ [row]).length := (List.getElem?_eq_some_iff.mp hlater).1
    rw [List.length_append, List.length_singleton] at this
    omega

/-- A further row that is not exceeded changes nothing. -/
theorem LastExceeded.append_not_exceeded {tab : List Seg} {v t1 : Int} {s : Nat} {row top : Seg}
    (h : LastExceeded tab v t1 s row) (hv : v ≤ top.m * t1) : LastExceeded (tab ++ [top]) v t1 s row where
  row_eq := by rw [List.getElem?_append_left (List.getElem?_eq_some_iff.mp h.row_eq).1, h.row_eq]
  exceeded := h.exceeded
  later_not j later hj hlater := by
    rcases lt_or_ge j tab.length with hlt | hge
    · rw [List.getElem?_append_left hlt] at hlater
      exact h.later_not j later hj hlater
    · rw [List.getElem?_append_right hge, List.getElem?_singleton] at hlater
      obtain ⟨-, heq⟩ := Option.ite_none_right_eq_some.mp hlater
      exact Option.some.inj heq ▸ hv

/-- The cascade over the rows from the highest down finds the row of the rule. -/
theorem exists_lastExceeded_pickSeg {tab : List Seg} (v t1 : Int) (h : tab ≠ []) :
    ∃ s, LastExceeded tab v t1 s (pickSeg v t1 tab.reverse) := by
  induction tab using List.reverseRecOn with
  | nil => exact absurd rfl h
  | append_singleton tab row ih =>
    rw [List.reverse_append, List.reverse_singleton, List.singleton_append]
    by_cases htab : tab = []
    · subst htab
      exact ⟨0, .append_exceeded [] (.inl rfl)⟩
    · rw [pickSeg_cons (List.reverse_ne_nil_iff.mpr htab)]
      split
      case isTrue hv => exact ⟨tab.length, .append_exceeded tab (.inr hv)⟩
      case isFalse hv =>
        obtain ⟨s, hs⟩ := ih htab
        exact ⟨s, hs.append_not_exceeded (not_lt.mp hv)⟩

/-- The two forms of the rule give the same value. -/
theorem nestedSelect_eq_segValue_pickSeg (v t1 : Int) {rows : List Seg} (h : rows ≠ []) :
    nestedSelect v t1 rows = segValue (pickSeg v t1 rows) v t1 := by
  induction rows with
  | nil => exact absurd rfl h
  | cons row rows ih =>
    cases rows with
    | nil => rfl
    | cons next rest =>
      rw [nestedSelect, pickSeg, ih (List.cons_ne_nil next rest), selectHighOrLow, ← apply_ite (segValue · v t1)]

/-- Settles O30: the cascade finds the row by its position, and the nested form follows the cascade. -/
theorem cascadePicksHighestExceeded : Obligations.CascadePicksHighestExceeded := by
  intro tab v t1 htab
  obtain ⟨s, hs⟩ := exists_lastExceeded_pickSeg v t1 htab
  exact ⟨s, _, hs.row_eq, hs.exceeded, hs.later_not, rfl,
    (nestedSelect_eq_segValue_pickSeg v t1 (List.reverse_ne_nil_iff.mpr htab)).symm⟩

/-- Below every threshold the cascade gives row 0. -/
theorem pw_of_not_exceeded {first : Seg} {rest : List Seg} {v t1 : Int} (h : ∀ row ∈ rest, v ≤ row.m * t1) :
    pw (first :: rest) v t1 = segValue first v t1 := by
  obtain ⟨s, hs⟩ := exists_lastExceeded_pickSeg v t1 (List.cons_ne_nil first rest)
  unfold pw
  cases s with
  | zero => rw [← Option.some.inj hs.row_eq]
  | succ s =>
    have hv := hs.exceeded.resolve_left (Nat.succ_ne_zero s)
    exact absurd (h _ (List.mem_of_getElem? hs.row_eq)) (not_le.mpr hv)

/-! ### The segment tables (R162 to R166) -/

/-- Every axis bit from 3 on has the last table of its order, so a property of the tables of bits 0 to 3 is one of
all tables. -/
theorem segTable_forall {P : List Seg → Prop} (order : Modulation) (h : ∀ k < 4, P (segTable order k)) (k : Nat) :
    P (segTable order k) := by
  rcases lt_or_ge k 4 with hk | hk
  · exact h k hk
  · obtain ⟨k, rfl⟩ := Nat.exists_eq_add_of_le' hk
    have hlast : segTable order (k + 4) = segTable order 3 := by cases order <;> rfl
    exact hlast ▸ h 3 (by decide)

/-- Two rows meet at the breakpoint of the upper one, whatever the unit threshold. -/
abbrev Seg.Meets (lower upper : Seg) : Prop := lower.a * upper.m + lower.c = upper.a * upper.m + upper.c

theorem Seg.Meets.segValue_eq {lower upper : Seg} (h : lower.Meets upper) (t1 : Int) :
    segValue lower (upper.m * t1) t1 = segValue upper (upper.m * t1) t1 := by
  have hfactor (s : Seg) : segValue s (upper.m * t1) t1 = (s.a * upper.m + s.c) * t1 := by
    unfold segValue
    ring
  rw [hfactor, hfactor, h]

theorem segTable_isChain (order : Modulation) (k : Nat) : (segTable order k).IsChain Seg.Meets := by
  refine segTable_forall order ?_ k
  cases order <;> decide

/-- The table of the sign bit starts with slope 1 and no offset, and no threshold of it is negative. -/
theorem segTable_sign (order : Modulation) :
    ∃ rest, segTable order 0 = ⟨0, 1, 0⟩ :: rest ∧ ∀ row ∈ rest, 0 ≤ row.m := by
  cases order <;> exact ⟨_, rfl, by decide⟩

/-- The top row of a table of several rows has a positive threshold. -/
theorem segTable_top (order : Modulation) (k : Nat) :
    ∀ top ∈ (segTable order k).getLast?, segTable order k = [top] ∨ 0 < top.m := by
  refine segTable_forall (P := fun tab => ∀ top ∈ tab.getLast?, tab = [top] ∨ 0 < top.m) order ?_ k
  cases order <;> decide

/-- The sign bit's cascade vanishes at sample 0 where the unit threshold is not negative. -/
theorem pw_sign_zero (order : Modulation) {t1 : Int} (h : 0 ≤ t1) : pw (segTable order 0) 0 t1 = 0 := by
  obtain ⟨rest, htab, hm⟩ := segTable_sign order
  rw [htab, pw_of_not_exceeded fun row hrow => mul_nonneg (hm row hrow) h]
  simp [segValue]

/-- With a negative unit threshold every threshold but that of row 0 is negative, so the top row is picked. -/
theorem pw_segTable_of_neg {order : Modulation} {k : Nat} {v t1 : Int} {top : Seg} (hv : 0 ≤ v) (ht : t1 < 0)
    (htop : (segTable order k).getLast? = some top) : pw (segTable order k) v t1 = segValue top v t1 := by
  rcases segTable_top order k top htop with hone | hpos
  · rw [hone, pw_singleton]
  · obtain ⟨init, hinit⟩ := List.getLast?_eq_some_iff.mp htop
    rw [hinit]
    exact pw_append_of_exceeded ((mul_neg_of_pos_of_neg hpos ht).trans_le hv) init

/-- π/2-BPSK and QPSK scale the sample itself. -/
theorem pw_linear (v t1 : Int) : pw [⟨0, 1, 0⟩] v t1 = v := by
  simp [pw_singleton, segValue]

/-! ### One LLR (R158) -/

theorem llrScaled_not (shift : Nat) (f k2 w : Int) (neg : Bool) :
    llrScaled shift f k2 w (!neg) = -llrScaled shift f k2 w neg := by
  cases neg <;> simp [llrScaled]

theorem llrScaled_of_mul_eq_zero {f k2 w : Int} (h : f * k2 * w = 0) (shift : Nat) (neg : Bool) :
    llrScaled shift f k2 w neg = 0 := by
  simp [llrScaled, h, rshr_zero_left]

/-- Settles O32: for a sample other than 0 only the sign flag changes, and at 0 the cascade vanishes. -/
theorem signBitIsOdd : Obligations.SignBitIsOdd := by
  intro order shift y t1 w h
  rw [absInt_neg]
  by_cases hy : y = 0
  · have hzero : pw (segTable order 0) (absInt y) t1 * k2 order * w = 0 := by
      rw [hy, show absInt 0 = 0 from rfl, pw_sign_zero order (h.resolve_left (absurd hy)), zero_mul, zero_mul]
    rw [llrScaled_of_mul_eq_zero hzero, llrScaled_of_mul_eq_zero hzero, neg_zero]
  · have hflip : decide (-y < 0) = !decide (y < 0) := by
      rw [← decide_not, decide_eq_decide]
      omega
    rw [hflip, llrScaled_not]

/-- Settles O34: QPSK has no threshold, so doubling the sample doubles the product before the shift. -/
theorem qpskIsNearlyLinear : Obligations.QpskIsNearlyLinear := by
  intro shift i w
  have hsign : decide (2 * i < 0) = decide (i < 0) := by
    rw [decide_eq_decide]
    omega
  have hbound := natAbs_rshr_double_sub_le (absInt i * k2 .qpsk * w) shift
  have hdouble : 2 * absInt i * k2 .qpsk * w = 2 * (absInt i * k2 .qpsk * w) := by ring
  rw [show segTable .qpsk 0 = [⟨0, 1, 0⟩] from rfl, pw_linear, pw_linear, absInt_double, hsign]
  unfold llrScaled
  rw [hdouble]
  split <;> omega

theorem llrOut_eq_max_min {cfg : LlrConfig} (h : cfg.low ≤ cfg.high) (f k2 w : Int) (neg : Bool) :
    llrOut cfg f k2 w neg =
      max (-128) (min 127 (max cfg.low (min cfg.high (llrScaled cfg.shift f k2 w neg)))) := by
  rw [llrOut, clampToRange, sat_eq_max_min h, sat8, sat_eq_max_min (by decide)]

theorem llrOut_bounds {cfg : LlrConfig} (h : cfg.low ≤ cfg.high) (f k2 w : Int) (neg : Bool) :
    sat8 cfg.low ≤ llrOut cfg f k2 w neg ∧ llrOut cfg f k2 w neg ≤ sat8 cfg.high :=
  (sat_bounds h _).imp sat8_mono sat8_mono

/-! ### The LLRs of a symbol (R161 to R168) -/

theorem zipIdx_map_range {α : Type} (f : Nat → α) (n : Nat) :
    ((List.range n).map f).zipIdx = (List.range n).map fun k => (f k, k) := by
  refine List.ext_getElem? fun i => ?_
  by_cases hi : i < n <;> simp [hi]

section Symbol
variable (cfg : LlrConfig) (x : LaneInput)

theorem axisLlr_eq_llrOut (order : Modulation) (k : Nat) (y t1 w : Int) :
    axisLlr order cfg k y t1 w =
      llrOut cfg (pw (segTable order k) (absInt y) t1) (k2 order) w (decide (k = 0 ∧ y < 0)) := by
  rw [axisLlr, Bool.decide_and]
  rfl

/-- The interleaved LLRs of an order are those of its constants and tables written out. -/
theorem axes_eq_axisBits (order : Modulation) (n : Nat) :
    llrVec.axes cfg x order n =
      axisBits cfg x (k2 order) (unitThreshold order x.beta.toInt) ((List.range n).map (segTable order)) := by
  unfold llrVec.axes axisBits
  simp only [zipIdx_map_range, List.flatMap_map, axisLlr_eq_llrOut]

theorem llrVec_bpsk :
    llrVec .bpsk cfg x = [llrOut cfg (absInt (x.i.toInt + x.q.toInt)) 11585 x.w.toInt
      (decide (x.i.toInt + x.q.toInt < 0))] := by
  simp [llrVec, axisLlr_eq_llrOut, segTable, pw_linear, k2]

theorem llrVec_qpsk :
    llrVec .qpsk cfg x = [llrOut cfg (absInt x.i.toInt) 23170 x.w.toInt (decide (x.i.toInt < 0)),
      llrOut cfg (absInt x.q.toInt) 23170 x.w.toInt (decide (x.q.toInt < 0))] := by
  simp [llrVec, llrVec.axes, axisLlr_eq_llrOut, segTable, pw_linear, k2]

end Symbol

/-- Every LLR of a symbol is one output of the scaling with the order's factor and the lane's `w`. -/
theorem exists_llrOut_of_mem_llrVec {cfg : LlrConfig} {x : LaneInput} {order : Modulation} {v : Int}
    (h : v ∈ llrVec order cfg x) : ∃ f neg, v = llrOut cfg f (k2 order) x.w.toInt neg := by
  have haxes (n : Nat) (h : v ∈ llrVec.axes cfg x order n) :
      ∃ f neg, v = llrOut cfg f (k2 order) x.w.toInt neg := by
    obtain ⟨k, -, hv⟩ := List.mem_flatMap.mp h
    rcases List.mem_pair.mp hv with rfl | rfl <;> exact ⟨_, _, rfl⟩
  cases order with
  | bpsk => exact ⟨_, _, List.mem_singleton.mp h⟩
  | qpsk => exact haxes 1 h
  | qam16 => exact haxes 2 h
  | qam64 => exact haxes 3 h
  | qam256 => exact haxes 4 h

/-- Settles O31: the tables, the LLRs of each order, and the rounding and saturation of one LLR. -/
theorem tablesAreContinuous : Obligations.TablesAreContinuous := by
  refine ⟨?continuous, fun cfg x => ⟨llrVec_bpsk cfg x, llrVec_qpsk cfg x, axes_eq_axisBits cfg x .qam16 2,
    axes_eq_axisBits cfg x .qam64 3, axes_eq_axisBits cfg x .qam256 4⟩, ?scaling⟩
  case continuous =>
    intro order k s lower upper t1 hlower hupper
    obtain ⟨_, rfl⟩ := List.getElem?_eq_some_iff.mp hlower
    obtain ⟨hs, rfl⟩ := List.getElem?_eq_some_iff.mp hupper
    exact (List.isChain_iff_getElem.mp (segTable_isChain order k) s hs).segValue_eq t1
  case scaling =>
    intro cfg f k2 w neg h
    exact ⟨rshr (f * k2 * w) cfg.shift, fun hshift => by rw [hshift, rshr],
      fun n hshift => hshift ▸ rshr_succ_bounds (f * k2 * w) n, llrOut_eq_max_min h f k2 w neg⟩

/-- Settles O33: both bounds hold for one LLR, hence for each of a symbol. -/
theorem storedLlrsAreBounded : Obligations.StoredLlrsAreBounded := by
  refine ⟨fun order cfg x v h hv => ?_, fun lo hi r r' h hr => sat8_mono (sat_mono h hr)⟩
  obtain ⟨f, neg, rfl⟩ := exists_llrOut_of_mem_llrVec hv
  exact llrOut_bounds h f (k2 order) x.w.toInt neg

/-- Settles O36: the top segment for t1 < 0, a zero product for w = 0, one bound for LOW = HIGH. -/
theorem demapCornerValues : Obligations.DemapCornerValues := by
  refine ⟨fun order k v t1 top hv ht htop => pw_segTable_of_neg hv ht htop, ?zeroWeight, ?equalBounds⟩
  case zeroWeight =>
    intro order cfg x v hw hv
    obtain ⟨f, neg, rfl⟩ := exists_llrOut_of_mem_llrVec hv
    have hzero : f * k2 order * x.w.toInt = 0 := by
      rw [hw, show (0 : Half).toInt = 0 from rfl, mul_zero]
    rw [llrOut, llrScaled_of_mul_eq_zero hzero, clampToRange]
  case equalBounds =>
    intro order cfg x v hb hv
    obtain ⟨f, neg, rfl⟩ := exists_llrOut_of_mem_llrVec hv
    rw [llrOut, clampToRange, ← hb, sat_of_equal_bounds]

/-- Settles O37: the formulas of π/2-BPSK and QPSK do not mention β, and those of QPSK one axis each. -/
theorem betaUnusedBelow16Qam : Obligations.BetaUnusedBelow16Qam := by
  intro cfg x b q
  simp [llrVec_bpsk, llrVec_qpsk]

/-! ### The checks of a demap command (R152, R170) -/

/-- Settles O22: the configuration is checked first, and the W0 recorded is that of the encoder. -/
theorem invertedBoundsRaise : Obligations.InvertedBoundsRaise := by
  intro order lyr nsc sym beta winv s h
  refine ⟨?_, fun ty cd pp => ?_⟩
  · rw [encode_demapInstr]
    exact exec_demapInstr_of_inverted h ..
  · rw [encode_dmrsInstr]
    exact exec_dmrsInstr_of_inverted h ..

@[simp] theorem allLanes_length (nsc : Subcarriers) : (allLanes nsc).length = subcarrierCount nsc :=
  List.length_range

theorem llrCount_allLanes (order : Modulation) (lyr : Layers) (nsc : Subcarriers) :
    llrCount order lyr (allLanes nsc) = subcarrierCount nsc * layerCount lyr * bitsPerSymbol order := by
  rw [llrCount, allLanes_length]

/-- The first region that is not in BUF, the earlier ones being in it. -/
theorem State.firstOutside_append_cons {s : State} {pre : List (Word × Nat)} {base : Word} {size : Nat}
    (hpre : ∀ r ∈ pre, s.inRange r.1 r.2) (h : ¬ s.inRange base size) (post : List (Word × Nat)) :
    s.firstOutside (pre ++ (base, size) :: post) = some base := by
  induction pre with
  | nil => exact if_neg h
  | cons r pre ih =>
    obtain ⟨hr, hpre⟩ := List.forall_mem_cons.mp hpre
    exact (if_pos hr).trans (ih hpre)

theorem demapOver_of_outside {s : State} {order : Modulation} {lyr : Layers} {nsc : Subcarriers} {sel : List Nat}
    {sym beta winv base : Word} (hb : s.low.toInt ≤ s.high.toInt)
    (h : s.firstOutside (s.demapRegions order lyr nsc sel sym beta winv) = some base) (w0 : Word) :
    demapOver order w0 lyr nsc sel sym beta winv s = .next (s.enterError .bufRange base) :=
  demapOver_raises (by rw [State.demapError, if_neg (not_lt.mpr hb), h])

/-- Settles O23: a command of either family is the demap body over its own lanes, and the regions before the one
that raises are in BUF. -/
theorem demapRangeErrorsInOrder : Obligations.DemapRangeErrorsInOrder := by
  intro order lyr nsc sym beta winv s i count hi hb
  obtain ⟨w0, sel, hexec, rfl⟩ : ∃ w0 sel,
      exec i s = demapOver order w0 lyr nsc sel sym beta winv s ∧ count = llrCount order lyr sel := by
    rcases hi with ⟨rfl, rfl⟩ | ⟨ty, cd, pp, rfl, rfl⟩
    · exact ⟨_, _, exec_demapInstr .., (llrCount_allLanes ..).symm⟩
    · exact ⟨_, _, exec_dmrsInstr .., rfl⟩
  rw [hexec]
  refine ⟨fun hsym => demapOver_of_outside hb ?sym w0, fun hsym hbeta => demapOver_of_outside hb ?beta w0,
    fun hsym hbeta hwinv => demapOver_of_outside hb ?winv w0,
    fun ⟨hsym, hbeta, hwinv⟩ houtp => demapOver_of_outside hb ?outp w0⟩
  case sym => exact State.firstOutside_append_cons (pre := []) (by simp) hsym _
  case beta => exact State.firstOutside_append_cons (pre := [_]) (by simpa using hsym) hbeta _
  case winv => exact State.firstOutside_append_cons (pre := [_, _]) (by simpa using ⟨hsym, hbeta⟩) hwinv _
  case outp => exact State.firstOutside_append_cons (pre := [_, _, _]) (by simpa using ⟨hsym, hbeta, hwinv⟩) houtp _

/-! ### The store of a demap command (R169 to R172) -/

/-- What a demap command over the lanes `sel` leaves behind where it completes. -/
structure DemapStored (order : Modulation) (lyr : Layers) (sel : List Nat) (sym beta winv : Word) (s t : State) :
    Prop where
  stored : ∀ r i, sel[r]? = some i → ∀ l < layerCount lyr, ∀ b < bitsPerSymbol order,
    ∃ x, readLane s.buf sym beta winv l i = some x ∧
      t.buf.readByte (s.outp.toNat + (r * layerCount lyr + l) * bitsPerSymbol order + b) =
        ((llrVec order s.llrConfig x)[b]?).map (BitVec.ofInt 8)
  outside : ∀ a, (a < s.outp.toNat ∨ s.outp.toNat + llrCount order lyr sel ≤ a) →
    t.buf.readByte a = s.buf.readByte a
  count : t.lastCount.toNat = llrCount order lyr sel
  frame : t = { s with buf := t.buf, lastCount := t.lastCount,
                       outp := s.outp + BitVec.ofNat 32 (llrCount order lyr sel),
                       cp := s.cp + 16, cmdCount := s.cmdCount + 1 }

section Store
variable {order : Modulation} {lyr : Layers} {nsc : Subcarriers} {sel : List Nat} {sym beta winv : Word} {s : State}

/-- The byte at the place of an LLR, after the output run was written at OUTP. -/
theorem readByte_writeBytes_llrOutput (m : Memory) (a : Nat) (cfg : LlrConfig) (batch : List (List LaneInput))
    {r i l b : Nat} (hr : sel[r]? = some i) (hl : l < layerCount lyr) (hb : b < bitsPerSymbol order) :
    (m.writeBytes a (llrOutput order cfg lyr sel batch)).readByte
        (a + (r * layerCount lyr + l) * bitsPerSymbol order + b) =
      ((llrVec order cfg (laneOf batch l i))[b]?).map (BitVec.ofInt 8) := by
  have hplace : (llrOutput order cfg lyr sel batch)[(r * layerCount lyr + l) * bitsPerSymbol order + b]? =
      (llrBytes order cfg (laneOf batch l i))[b]? := by
    rw [llrOutput_getElem? order cfg lyr sel batch r l b hl hb, hr, Option.bind_some]
  have hsome : (llrBytes order cfg (laneOf batch l i))[b]? = some _ :=
    List.getElem?_eq_getElem (by rwa [llrBytes_length])
  obtain ⟨hlt, -⟩ := List.getElem?_eq_some_iff.mp (hplace.trans hsome)
  rw [Nat.add_assoc, Memory.readByte_writeBytes_inside _ _ _ _ hlt, ← List.getElem?_eq_getElem hlt, hplace,
    llrBytes, List.getElem?_map]

/-- The demap body over lanes below nSc stores their LLRs where every check passes and every input is written. -/
theorem demapOver_stores (hsel : ∀ i ∈ sel, i < subcarrierCount nsc) (hlen : sel.length ≤ 16)
    (hb : s.low.toInt ≤ s.high.toInt) (hin : inputsInRange s lyr nsc sym beta winv)
    (hout : s.inRange s.outp (llrCount order lyr sel)) (hinit : batchInitialised s.buf sym beta winv lyr nsc)
    (w0 : Word) :
    ∃ t, demapOver order w0 lyr nsc sel sym beta winv s = .next t ∧
      DemapStored order lyr sel sym beta winv s t := by
  have herr : s.demapError order w0 lyr nsc sel sym beta winv = none :=
    (s.demapError_eq_none_iff_inputs ..).mpr ⟨hb, hin, hout⟩
  obtain ⟨batch, hbatch⟩ := Option.ne_none_iff_exists'.mp ((readBatch_ne_none_iff ..).mpr hinit)
  refine ⟨_, demapOver_completes herr hbatch, ?stored, ?outside, ?count, rfl⟩
  case stored =>
    intro r i hr l hl b hbit
    exact ⟨_, laneOf_readBatch hbatch hl (hsel i (List.mem_of_getElem? hr)),
      readByte_writeBytes_llrOutput s.buf s.outp.toNat s.llrConfig batch hr hl hbit⟩
  case outside =>
    intro a ha
    exact s.buf.readByte_writeBytes_outside s.outp.toNat _ a (by rwa [llrOutput_length])
  case count =>
    have := llrCount_le order lyr sel hlen
    exact (BitVec.toNat_ofNat ..).trans (Nat.mod_eq_of_lt (by omega))

end Store

/-- Settles O19: lane r of all lanes is r. -/
theorem demapStoresItsLlrs : Obligations.DemapStoresItsLlrs := by
  intro order lyr nsc sym beta winv s hb hin hout hinit
  rw [← llrCount_allLanes] at hout ⊢
  obtain ⟨t, ht, h⟩ := demapOver_stores (fun _ => List.mem_range.mp) (allLanes_length_le nsc) hb hin hout hinit
    (w0Demap order lyr nsc)
  exact ⟨t, (exec_demapInstr ..).trans ht, fun r hr => h.stored r r (List.getElem?_range hr), h.outside, h.count,
    h.frame⟩

end Sys2Proof.Machine

/-!
42_dmrs_demap.md: the lanes a key selects, and DEMAP_DMRS over them beside DEMAP over all lanes.
-/
namespace Sys2Proof.Machine

/-! ### The selected lanes (R204, 00_scope.md R21) -/

theorem subcarrierCount_le_lanes (nsc : Subcarriers) : subcarrierCount nsc ≤ lanes := by
  cases nsc <;> decide

theorem getLsbD_lanesBelow {n : Nat} (hn : n ≤ lanes) (i : Nat) : (lanesBelow n).getLsbD i = decide (i < n) := by
  rw [lanesBelow, BitVec.getLsbD_ofNat, Nat.testBit_two_pow_sub_one, Bool.and_eq_right_iff_imp]
  intro hi
  exact decide_eq_true ((of_decide_eq_true hi).trans_le hn)

theorem filter_lt_range {n m : Nat} (h : n ≤ m) : (List.range m).filter (fun i => decide (i < n)) = List.range n := by
  obtain ⟨k, rfl⟩ := Nat.exists_eq_add_of_le h
  rw [List.range_add, List.filter_append, List.filter_eq_self.mpr (by simp), List.filter_eq_nil_iff.mpr (by simp),
    List.append_nil]

section Lanes
variable (p : Config.Params) (nsc : Subcarriers) (ty : DmrsType) (cd : CdmGroups) (pp : PortParity)

/-- The selection keeps, of the lanes DEMAP takes, those whose mask bit is 1. -/
theorem dmrsLanes_eq_filter :
    dmrsLanes p nsc ty cd pp = (allLanes nsc).filter fun i => (dmrsMask p.dmrsSel ty cd pp).getLsbD i := by
  have hn := subcarrierCount_le_lanes nsc
  simp only [dmrsLanes, lanesOf, allLanes, BitVec.getLsbD_and, getLsbD_lanesBelow hn, ← List.filter_filter,
    filter_lt_range hn]

theorem dmrsLanes_length_le_subcarrierCount : (dmrsLanes p nsc ty cd pp).length ≤ subcarrierCount nsc := by
  rw [dmrsLanes_eq_filter, ← allLanes_length nsc]
  exact List.length_filter_le ..

variable {p nsc ty cd pp}

theorem mem_dmrsLanes {i : Nat} :
    i ∈ dmrsLanes p nsc ty cd pp ↔
      i < subcarrierCount nsc ∧ (dmrsMask p.dmrsSel ty cd pp).getLsbD i = true := by
  rw [dmrsLanes_eq_filter, List.mem_filter, allLanes, List.mem_range]

theorem lt_of_mem_dmrsLanes {i : Nat} (h : i ∈ dmrsLanes p nsc ty cd pp) : i < subcarrierCount nsc :=
  (mem_dmrsLanes.mp h).1

theorem dmrsLanes_of_full_mask (h : dmrsMask p.dmrsSel ty cd pp = 0xFFFF) :
    dmrsLanes p nsc ty cd pp = allLanes nsc := by
  rw [dmrsLanes_eq_filter, h, show (0xFFFF : BitVec 16) = BitVec.allOnes 16 from rfl, List.filter_eq_self]
  intro i hi
  rw [BitVec.getLsbD_allOnes]
  exact decide_eq_true ((List.mem_range.mp hi).trans_le (subcarrierCount_le_lanes nsc))

/-- The default table has one mask for both parities (R202). -/
theorem dmrsLanes_of_default (h : p.dmrsSel = dmrsSelDefault) :
    dmrsLanes p nsc ty cd pp = dmrsLanes specParams nsc ty cd .even := by
  have hmask : dmrsMask dmrsSelDefault ty cd pp = dmrsMask dmrsSelDefault ty cd .even := by
    cases ty <;> cases cd <;> cases pp <;> rfl
  rw [dmrsLanes, h, hmask]
  rfl

end Lanes

/-- Settles O21: the selection is a filter of the ascending list of lanes. -/
theorem selectedLanesFollowMask : Obligations.SelectedLanesFollowMask := by
  intro p nsc ty cd pp
  refine ⟨fun i => mem_dmrsLanes, ?_⟩
  rw [dmrsLanes_eq_filter]
  exact List.pairwise_lt_range.filter _

/-- Settles O27: a build with the default table selects as the spec's build does with even parity, where the
selections can be counted. -/
theorem defaultDmrsCounts : Obligations.DefaultDmrsCounts := by
  intro p pp hp
  refine ⟨fun ty cd nsc => (dmrsLanes_of_default hp).trans (dmrsLanes_of_default hp).symm, ?counts⟩
  case counts =>
    simp only [dmrsLanes_of_default hp]
    decide

/-! ### The demap body: its fault, its W0 and its end (R205, R207) -/

/-- Where the demap body faults. -/
theorem demapOver_faults {order : Modulation} {w0 : Word} {lyr : Layers} {nsc : Subcarriers} {sel : List Nat}
    {sym beta winv : Word} {s : State} (he : s.demapError order w0 lyr nsc sel sym beta winv = none)
    (hb : readBatch s.buf sym beta winv lyr nsc = none) :
    demapOver order w0 lyr nsc sel sym beta winv s = .fault .uninitRead := by
  simp [demapOver, he, hb]

/-- W0 is recorded only where LOW > HIGH. -/
theorem demapOver_congr_w0 {s : State} (hb : s.low.toInt ≤ s.high.toInt) (w0 w0' : Word) (order : Modulation)
    (lyr : Layers) (nsc : Subcarriers) (sel : List Nat) (sym beta winv : Word) :
    demapOver order w0 lyr nsc sel sym beta winv s = demapOver order w0' lyr nsc sel sym beta winv s := by
  simp only [demapOver, State.demapError, if_neg (not_lt.mpr hb)]

/-- The registers and BUF after a demap command that completes (41_llr_demap.md R171). -/
theorem State.advance_advanceOut_writeBuf (s : State) (a n : Nat) (bs : List Byte) :
    ((s.writeBuf a bs).advanceOut n).advance =
      { s with buf := s.buf.writeBytes a bs, lastCount := BitVec.ofNat 9 n, outp := s.outp + BitVec.ofNat 32 n,
               cp := s.cp + 16, cmdCount := s.cmdCount + 1 } := rfl

/-- Settles O24: the read set is that of lanes 0 to nSc - 1, whatever the lanes are over which the body runs. -/
theorem demapFaultsOnUnwrittenInput : Obligations.DemapFaultsOnUnwrittenInput := by
  intro order lyr nsc sym beta winv s hb hin hinit
  have hbatch : readBatch s.buf sym beta winv lyr nsc = none :=
    not_not.mp (mt (readBatch_ne_none_iff ..).mp hinit)
  have hfault (w0 : Word) (sel : List Nat) (hout : s.inRange s.outp (llrCount order lyr sel)) :
      demapOver order w0 lyr nsc sel sym beta winv s = .fault .uninitRead :=
    demapOver_faults ((s.demapError_eq_none_iff_inputs ..).mpr ⟨hb, hin, hout⟩) hbatch
  refine ⟨fun hout => ?_, fun ty cd pp hout => ?_⟩
  · rw [exec_demapInstr]
    exact hfault _ _ (by rwa [llrCount_allLanes])
  · rw [exec_dmrsInstr]
    exact hfault _ _ hout

/-! ### The mask 0xFFFF and the empty selection (R213) -/

/-- Settles O25: the full mask selects all lanes, and the commands differ only in their W0. -/
theorem fullMaskIsPlainDemap : Obligations.FullMaskIsPlainDemap := by
  intro order lyr nsc ty cd pp sym beta winv s hmask hb
  rw [exec_dmrsInstr, exec_demapInstr, dmrsLanes_of_full_mask hmask]
  exact demapOver_congr_w0 hb ..

/-- The demap body over no lane: an empty run is written, and OUTP advances by 0. -/
theorem demapOver_nil {order : Modulation} {lyr : Layers} {nsc : Subcarriers} {sym beta winv : Word} {s : State}
    (hb : s.low.toInt ≤ s.high.toInt) (hin : inputsInRange s lyr nsc sym beta winv) (hout : s.inRange s.outp 0)
    (hinit : batchInitialised s.buf sym beta winv lyr nsc) (w0 : Word) :
    demapOver order w0 lyr nsc [] sym beta winv s =
      .next { s with lastCount := 0, cp := s.cp + 16, cmdCount := s.cmdCount + 1 } := by
  have hcount : llrCount order lyr [] = 0 := by simp [llrCount]
  obtain ⟨batch, hbatch⟩ := Option.ne_none_iff_exists'.mp ((readBatch_ne_none_iff ..).mpr hinit)
  rw [demapOver_completes ((s.demapError_eq_none_iff_inputs ..).mpr ⟨hb, hin, hcount ▸ hout⟩) hbatch, hcount,
    State.advance_advanceOut_writeBuf]
  simp [llrOutput]

/-- Settles O26: the demap body over no lane. -/
theorem noSelectedLaneWritesNothing : Obligations.NoSelectedLaneWritesNothing := by
  intro order lyr nsc ty cd pp sym beta winv s hsel hb hin hout hinit
  rw [exec_dmrsInstr, hsel]
  exact demapOver_nil hb hin hout hinit _

/-! ### The store of DEMAP_DMRS, and its place in the output of DEMAP (R206, R214 (b)) -/

/-- DEMAP_DMRS stores the LLRs of the selected lanes, which are below nSc. -/
theorem exec_dmrsInstr_stores {order : Modulation} {lyr : Layers} {nsc : Subcarriers} {ty : DmrsType}
    {cd : CdmGroups} {pp : PortParity} {sym beta winv : Word} {s : State} (hb : s.low.toInt ≤ s.high.toInt)
    (hin : inputsInRange s lyr nsc sym beta winv)
    (hout : s.inRange s.outp (llrCount order lyr (dmrsLanes s.params nsc ty cd pp)))
    (hinit : batchInitialised s.buf sym beta winv lyr nsc) :
    ∃ t, exec (dmrsInstr order lyr nsc ty cd pp sym beta winv) s = .next t ∧
      DemapStored order lyr (dmrsLanes s.params nsc ty cd pp) sym beta winv s t := by
  rw [exec_dmrsInstr]
  exact demapOver_stores (fun _ => lt_of_mem_dmrsLanes) (dmrsLanes_length_le ..) hb hin hout hinit _

/-- Settles O20: the store of DEMAP_DMRS, field by field. -/
theorem dmrsStoresSelectedLlrs : Obligations.DmrsStoresSelectedLlrs := by
  rintro order lyr nsc ty cd pp sym beta winv s _ rfl hb hin hout hinit
  obtain ⟨t, ht, h⟩ := exec_dmrsInstr_stores hb hin hout hinit
  exact ⟨t, ht, h.stored, h.outside, h.count, h.frame⟩

/-- Two demap commands from one state store the same group of L·Qm bytes for a lane that both take. -/
theorem DemapStored.group_eq {order : Modulation} {lyr : Layers} {sel sel' : List Nat} {sym beta winv : Word}
    {s t u : State} (ht : DemapStored order lyr sel sym beta winv s t)
    (hu : DemapStored order lyr sel' sym beta winv s u) {r r' i j : Nat} (hr : sel[r]? = some i)
    (hr' : sel'[r']? = some i) (hj : j < layerCount lyr * bitsPerSymbol order) :
    t.buf.readByte (s.outp.toNat + r * (layerCount lyr * bitsPerSymbol order) + j) =
      u.buf.readByte (s.outp.toNat + r' * (layerCount lyr * bitsPerSymbol order) + j) := by
  have hq : 0 < bitsPerSymbol order := by cases order <;> decide
  have hl : j / bitsPerSymbol order < layerCount lyr := (Nat.div_lt_iff_lt_mul hq).mpr hj
  have hplace (k : Nat) : s.outp.toNat + k * (layerCount lyr * bitsPerSymbol order) + j =
      s.outp.toNat + (k * layerCount lyr + j / bitsPerSymbol order) * bitsPerSymbol order +
        j % bitsPerSymbol order := by
    have := Nat.div_add_mod' j (bitsPerSymbol order)
    rw [add_mul, mul_assoc]
    omega
  obtain ⟨x, hx, htx⟩ := ht.stored r i hr _ hl _ (Nat.mod_lt j hq)
  obtain ⟨y, hy, huy⟩ := hu.stored r' i hr' _ hl _ (Nat.mod_lt j hq)
  obtain rfl : x = y := Option.some.inj (hx.symm.trans hy)
  rw [hplace r, hplace r', htx, huy]

/-- Settles O28: DEMAP takes lane i at place i, and there are no more selected lanes than lanes below nSc. -/
theorem dmrsIsSubsequenceOfDemap : Obligations.DmrsIsSubsequenceOfDemap := by
  intro order lyr nsc ty cd pp sym beta winv s hb hin hout hinit
  have hout' : s.inRange s.outp (llrCount order lyr (dmrsLanes s.params nsc ty cd pp)) := by
    have hle := dmrsLanes_length_le_subcarrierCount s.params nsc ty cd pp
    exact (Nat.add_le_add_left (Nat.mul_le_mul_right _ (Nat.mul_le_mul_right _ hle)) _).trans hout
  rw [← llrCount_allLanes] at hout
  obtain ⟨t, ht, hdmrs⟩ := exec_dmrsInstr_stores hb hin hout' hinit
  obtain ⟨u, hu, hdemap⟩ := demapOver_stores (fun _ => List.mem_range.mp) (allLanes_length_le nsc) hb hin hout
    hinit (w0Demap order lyr nsc)
  refine ⟨t, u, ht, (exec_demapInstr ..).trans hu, fun r i hr j hj => ?_⟩
  have hi := lt_of_mem_dmrsLanes (List.mem_of_getElem? hr)
  exact hdmrs.group_eq hdemap hr (List.getElem?_range hi) hj

/-! ### Inputs of unselected lanes (R214 (c)) -/

theorem Memory.readHalf_congr {m m' : Memory} {a : Nat} (h : m.agree m' a 2) : m.readHalf a = m'.readHalf a := by
  rw [Memory.readHalf, Memory.readHalf, Memory.memRead_congr h]

theorem readLane_congr {m m' : Memory} {sym beta winv : Word} {l i : Nat}
    (hsym : m.agree m' (sym.toNat + 64 * l + 4 * i) 4) (hbeta : m.agree m' (beta.toNat + 32 * l + 2 * i) 2)
    (hwinv : m.agree m' (winv.toNat + 32 * l + 2 * i) 2) :
    readLane m sym beta winv l i = readLane m' sym beta winv l i := by
  have hi : m.agree m' (sym.toNat + 64 * l + 4 * i) 2 := fun j hj => hsym j (by omega)
  have hq : m.agree m' (sym.toNat + 64 * l + 4 * i + 2) 2 := fun j hj => by
    rw [add_assoc _ 2 j]
    exact hsym (2 + j) (by omega)
  rw [readLane, readLane, Memory.readHalf_congr hi, Memory.readHalf_congr hq, Memory.readHalf_congr hbeta,
    Memory.readHalf_congr hwinv]

/-- The output depends only on the inputs of the lanes over which the body runs. -/
theorem llrOutput_congr {lyr : Layers} {sel : List Nat} {batch batch' : List (List LaneInput)}
    (h : ∀ i ∈ sel, ∀ l < layerCount lyr, laneOf batch l i = laneOf batch' l i) (order : Modulation)
    (cfg : LlrConfig) : llrOutput order cfg lyr sel batch = llrOutput order cfg lyr sel batch' := by
  refine List.flatMap_congr fun i hi => List.flatMap_congr fun l hl => ?_
  rw [h i hi l (List.mem_range.mp hl)]

/-- What stands in a written run does not depend on the memory before the write. -/
theorem Memory.agree_writeBytes (m m' : Memory) (a : Nat) (bs : List Byte) :
    (m.writeBytes a bs).agree (m'.writeBytes a bs) a bs.length := by
  intro j hj
  rw [Memory.readByte_writeBytes_inside _ _ _ _ hj, Memory.readByte_writeBytes_inside _ _ _ _ hj]

/-- Settles O29: both runs pass the same checks and read the same selected lanes, so they write one run of bytes. -/
theorem unselectedLanesDoNotLeak : Obligations.UnselectedLanesDoNotLeak := by
  intro order lyr nsc ty cd pp sym beta winv s t u m hagree _ ht hbusy hu
  rw [exec_dmrsInstr] at ht hu
  rcases demapOver_cases ht with ⟨e, w, -, rfl⟩ | ⟨herr, batch, hbatch, rfl⟩
  · cases hbusy
  rcases demapOver_cases hu with ⟨e, w, herr', -⟩ | ⟨-, batch', hbatch', rfl⟩
  · cases herr.symm.trans herr'
  have hlane : ∀ i ∈ dmrsLanes s.params nsc ty cd pp, ∀ l < layerCount lyr,
      laneOf batch' l i = laneOf batch l i := by
    intro i hi l hl
    obtain ⟨hsym, hbeta, hwinv⟩ := hagree i hi l hl
    have hread := laneOf_readBatch hbatch hl (lt_of_mem_dmrsLanes hi)
    have hread' := laneOf_readBatch hbatch' hl (lt_of_mem_dmrsLanes hi)
    exact Option.some.inj (hread'.symm.trans ((readLane_congr hsym hbeta hwinv).symm.trans hread))
  have hcfg : State.llrConfig { s with buf := m } = s.llrConfig := rfl
  rw [hcfg, llrOutput_congr hlane order s.llrConfig, State.advance_advanceOut_writeBuf,
    State.advance_advanceOut_writeBuf]
  refine ⟨?_, rfl⟩
  rw [← llrCount, ← llrOutput_length order s.llrConfig lyr _ batch]
  exact s.buf.agree_writeBytes m _ _

end Sys2Proof.Machine

/-!
43_cholesky.md: CHOLINV, the three phases of the Cholesky inverse, and the binary32 operations under them.
-/
namespace Sys2Proof.Machine

/-! ### The checks of CHOLINV (R231, R242) -/

theorem exec_cholinv (n : BitVec 5) (src dst : Word) (s : State) :
    exec (.cholinv n src dst) s = execCholinv n src dst s := rfl

section Checks
variable {n : BitVec 5} {src dst : Word} {s : State}

/-- Where CHOLINV raises. -/
theorem execCholinv_raises {e : ErrorCode} {w : Word} (he : s.cholinvError n src dst = some (e, w)) :
    execCholinv n src dst s = .next (s.enterError e w) := by
  simp [execCholinv, he, raise]

/-- Where CHOLINV faults. -/
theorem execCholinv_faults (he : s.cholinvError n src dst = none) (hg : readGrids s.buf src.toNat n.toNat = none) :
    execCholinv n src dst s = .fault .uninitRead := by
  simp [execCholinv, he, hg]

/-- The size is the first thing CHOLINV checks. -/
theorem execCholinv_of_illegalSize (hn : ¬ legalSize n) :
    execCholinv n src dst s = .next (s.enterError .invalidConfig (w0Cholinv n)) :=
  execCholinv_raises (if_neg hn)

theorem execCholinv_of_outside {base : Word} (hn : legalSize n)
    (h : s.firstOutside [(src, gridBytes n.toNat), (dst, gridBytes n.toNat)] = some base) :
    execCholinv n src dst s = .next (s.enterError .bufRange base) :=
  execCholinv_raises (by rw [State.cholinvError, if_pos hn, h])

end Checks

/-- Settles O39: the size, then the regions before the one that raises are in BUF, then the read set. -/
theorem cholinvErrorsInOrder : Obligations.CholinvErrorsInOrder := by
  intro n src dst s
  refine ⟨execCholinv_of_illegalSize, fun hn hsrc => execCholinv_of_outside hn ?src,
    fun hn hsrc hdst => execCholinv_of_outside hn ?dst, fun hn hsrc hdst hinit => ?fault⟩
  case src => exact State.firstOutside_append_cons (pre := []) (by simp) hsrc _
  case dst => exact State.firstOutside_append_cons (pre := [_]) (List.forall_mem_singleton.mpr hsrc) hdst _
  case fault =>
    exact execCholinv_faults ((s.cholinvError_eq_none_iff n src dst).mpr ⟨hn, hsrc, hdst⟩)
      (not_not.mp (mt (readGrids_ne_none_iff ..).mp hinit))

/-! ### The store of CHOLINV (R231, R240 to R242) -/

/-- A byte of the word at the place of an output element, after the grids were written at `a`. -/
theorem readByte_writeBytes_gridOutput (m : Memory) (a : Nat) {n p r c k j : Nat} {invs : List LaneInverse}
    {x : LaneInverse} (hlen : invs.length = lanes) (hx : invs[k]? = some x) (hp : p < 2) (hr : r < n) (hc : c < n)
    (hj : j < 4) :
    (m.writeBytes a (gridOutput n invs)).readByte (elemAddr a n p r c k + j) =
      (leBytes 4 (outputWord x p r c).toNat)[j]? := by
  have hbyte := gridOutput_getElem? n invs hlen p r c k j hr hc hp hj x hx
  obtain ⟨b, hb⟩ : ∃ b, (leBytes 4 (outputWord x p r c).toNat)[j]? = some b :=
    ⟨_, List.getElem?_eq_getElem (by rwa [leBytes_length])⟩
  rw [hb] at hbyte ⊢
  obtain ⟨hin, hget⟩ := List.getElem?_eq_some_iff.mp hbyte
  rw [elemAddr, add_assoc, Memory.readByte_writeBytes_inside _ _ _ _ hin, hget]

theorem State.laneInverses_getElem? {s : State} {n k : Nat} {grids : List (List (List Cplx))}
    {lower : List (List Cplx)} (h : grids[k]? = some lower) :
    (s.laneInverses n grids)[k]? = some (invertLane (rsqrtBy s.params.rsqrtTable) n lower) := by
  rw [State.laneInverses, List.getElem?_map, h, Option.map_some]

/-- The registers and BUF after a CHOLINV that completes (R241). -/
theorem State.advance_pendNpd_writeBuf (s : State) (a : Nat) (bs : List Byte) (invs : List LaneInverse) :
    ((s.writeBuf a bs).pendNpd invs).advance =
      { s with buf := s.buf.writeBytes a bs, cp := s.cp + 16, cmdCount := s.cmdCount + 1,
               irqStatus := if invs.any (·.npd) then s.irqStatus ||| irqNpd else s.irqStatus } := by
  rw [State.pendNpd_eq]
  rfl

theorem State.laneInverses_any_npd (s : State) (n : Nat) (grids : List (List (List Cplx))) :
    (s.laneInverses n grids).any (·.npd) = true ↔
      ∃ lower ∈ grids, (invertLane (rsqrtBy s.params.rsqrtTable) n lower).npd = true := by
  simp [State.laneInverses]

/-- Settles O38: the grids that were read, the place of each output word, and NPD over all lanes. -/
theorem cholinvStoresInverses : Obligations.CholinvStoresInverses := by
  intro n src dst s hn hsrc hdst hinit
  have herr := (s.cholinvError_eq_none_iff n src dst).mpr ⟨hn, hsrc, hdst⟩
  obtain ⟨grids, hgrids⟩ := Option.ne_none_iff_exists'.mp ((readGrids_ne_none_iff ..).mpr hinit)
  have hlen : (s.laneInverses n.toNat grids).length = lanes := by
    rw [State.laneInverses_length, readGrids_length hgrids]
  refine ⟨_, grids, hgrids, execCholinv_completes herr hgrids, ?_⟩
  rw [State.advance_pendNpd_writeBuf]
  refine ⟨?stored, ?outside, ?frame⟩
  case stored =>
    intro p hp r hr c hc k lower hk
    exact Memory.readWord_of_bytes _ _ _ fun j hj =>
      readByte_writeBytes_gridOutput s.buf dst.toNat hlen (State.laneInverses_getElem? hk) hp hr hc hj
  case outside =>
    intro a ha
    exact s.buf.readByte_writeBytes_outside dst.toNat _ a (by rwa [gridOutput_length _ _ hlen])
  case frame =>
    simp only [State.laneInverses_any_npd]
    rfl

theorem negf_negf (x : F32) : negf (negf x) = x := by
  rw [negf, negf, BitVec.xor_assoc, BitVec.xor_self, BitVec.xor_zero]

theorem conj_conj (x : Cplx) : conj (conj x) = x := by
  rw [conj, conj, negf_negf]

/-! ### Folds that emit one value per step

Each phase lists the columns or the entries that it has made so far, and the next one looks at the list. -/

/-- A fold whose every step appends one value to `out` lists, at each place, the value that the run up to there
emits. -/
theorem foldl_range_emits {σ α : Type} {step : σ → Nat → σ} {out : σ → List α} {emit : σ → Nat → α} {init : σ}
    (hinit : out init = []) (hstep : ∀ s j, out (step s j) = out s ++ [emit s j]) (n : Nat) :
    out ((List.range n).foldl step init) =
      (List.range n).map fun j => emit ((List.range j).foldl step init) j := by
  induction n with
  | zero => exact hinit
  | succ n ih =>
    rw [List.range_succ, List.foldl_append, List.map_append, List.foldl_cons, List.foldl_nil, hstep, ih,
      List.map_singleton]

theorem getD_map_range {α : Type} (f : Nat → α) (d : α) {i n : Nat} (hi : i < n) :
    ((List.range n).map f).getD i d = f i := by
  simp [List.getD, hi]

theorem foldl_indices {β : Type} (f : β → Nat → β) (x : β) (a b : Nat) :
    (indices a b).foldl f x = (List.range (b - a)).foldl (fun acc k => f acc (a + k)) x :=
  List.foldl_map

theorem mem_indices {a b k : Nat} : k ∈ indices a b ↔ a ≤ k ∧ k < b := by
  simp only [indices, List.mem_map, List.mem_range]
  constructor
  · rintro ⟨i, hi, rfl⟩
    omega
  · rintro ⟨ha, hb⟩
    exact ⟨k - a, by omega, by omega⟩

/-! ### Phase 1 (R238) -/

section Factor
variable (rsqrt : F32 → F32) (a : Nat → Nat → Cplx) (n : Nat)

/-- Phase 1 after its first `m` columns. -/
def factorUpTo (m : Nat) : Factor :=
  (List.range m).foldl (factorStep rsqrt a n) { cols := [], recip := [], npd := false }

theorem factorUpTo_self : factorUpTo rsqrt a n n = factorize rsqrt a n := rfl

theorem factorUpTo_succ (m : Nat) :
    factorUpTo rsqrt a n (m + 1) = factorStep rsqrt a n (factorUpTo rsqrt a n m) m := by
  rw [factorUpTo, List.range_succ, List.foldl_append]
  rfl

/-- The pivot of column `j` looks at row `j` of the columns before it. -/
theorem pivot_congr {f f' : Factor} {j : Nat} (h : ∀ k < j, colEntry f.cols j k = colEntry f'.cols j k) :
    pivot a f j = pivot a f' j :=
  List.foldl_ext _ _ _ fun d k hk => by rw [h k (List.mem_range.mp hk)]

/-- An entry of column `j` looks at rows `i` and `j` of the columns before it. -/
theorem factorEntry_congr {f f' : Factor} {i j : Nat} (hi : ∀ k < j, colEntry f.cols i k = colEntry f'.cols i k)
    (hj : ∀ k < j, colEntry f.cols j k = colEntry f'.cols j k) (rj : F32) :
    factorEntry a f j rj i = factorEntry a f' j rj i :=
  congrArg (cscale · rj) (List.foldl_ext _ _ _ fun acc k hk => by
    rw [hi k (List.mem_range.mp hk), hj k (List.mem_range.mp hk)])

variable {rsqrt a n}

theorem recip_factorUpTo {m j : Nat} (hj : j < m) :
    (factorUpTo rsqrt a n m).recip.getD j 0 = rsqrt (pivot a (factorUpTo rsqrt a n j) j) := by
  rw [factorUpTo, foldl_range_emits (out := Factor.recip) rfl (fun _ _ => rfl), getD_map_range _ _ hj]
  rfl

/-- An entry of a column does not change once the column is made. -/
theorem colEntry_factorUpTo {m i j : Nat} (hj : j < m) (hi : i < n) :
    colEntry (factorUpTo rsqrt a n m).cols i j =
      if j < i then
        factorEntry a (factorUpTo rsqrt a n j) j (rsqrt (pivot a (factorUpTo rsqrt a n j) j)) i
      else czero := by
  rw [colEntry, factorUpTo, foldl_range_emits (out := Factor.cols) rfl (fun _ _ => rfl), getD_map_range _ _ hj,
    getD_map_range _ _ hi]
  rfl

theorem colEntry_factorUpTo_eq {j i k : Nat} (hk : k < j) (hj : j ≤ n) (hi : i < n) :
    colEntry (factorUpTo rsqrt a n j).cols i k = colEntry (factorize rsqrt a n).cols i k := by
  rw [← factorUpTo_self, colEntry_factorUpTo hk hi, colEntry_factorUpTo (hk.trans_le hj) hi]

theorem pivot_factorUpTo {j : Nat} (hj : j < n) :
    pivot a (factorUpTo rsqrt a n j) j = pivot a (factorize rsqrt a n) j :=
  pivot_congr a fun _ hk => colEntry_factorUpTo_eq hk hj.le hj

/-- r[j] of the factor is RSQRT of the pivot that the finished factor gives. -/
theorem recip_factorize {j : Nat} (hj : j < n) :
    (factorize rsqrt a n).recip.getD j 0 = rsqrt (pivot a (factorize rsqrt a n) j) := by
  rw [← pivot_factorUpTo hj, ← factorUpTo_self, recip_factorUpTo hj]

/-- The entries of G below the diagonal meet the recurrence of R238. -/
theorem colEntry_factorize {i j : Nat} (hj : j < i) (hi : i < n) :
    colEntry (factorize rsqrt a n).cols i j =
      factorEntry a (factorize rsqrt a n) j ((factorize rsqrt a n).recip.getD j 0) i := by
  have hjn := hj.trans hi
  rw [recip_factorize hjn, ← factorUpTo_self, colEntry_factorUpTo hjn hi, if_pos hj, factorUpTo_self,
    pivot_factorUpTo hjn]
  exact factorEntry_congr a (fun _ hk => colEntry_factorUpTo_eq hk hjn.le hi)
    (fun _ hk => colEntry_factorUpTo_eq hk hjn.le hjn) _

theorem npd_factorUpTo (m : Nat) :
    (factorUpTo rsqrt a n m).npd = true ↔
      ∃ j < m, positivef (pivot a (factorUpTo rsqrt a n j) j) = false := by
  induction m with
  | zero => simp [factorUpTo]
  | succ m ih =>
    rw [Nat.exists_lt_succ_right, factorUpTo_succ, ← ih]
    simp [factorStep]

/-- The diagnostic of R241. -/
theorem npd_factorize :
    (factorize rsqrt a n).npd = true ↔ ∃ j < n, positivef (pivot a (factorize rsqrt a n) j) = false := by
  rw [← factorUpTo_self, npd_factorUpTo]
  exact exists_congr fun j => and_congr_right fun hj => by rw [pivot_factorUpTo hj, factorUpTo_self]

/-- Phase 1 looks at the diagonal and below it (R233). -/
theorem factorize_congr {a' : Nat → Nat → Cplx} (h : ∀ r < n, ∀ c ≤ r, a r c = a' r c) :
    factorize rsqrt a n = factorize rsqrt a' n := by
  refine List.foldl_ext _ _ _ fun f j hj => ?_
  have hjn := List.mem_range.mp hj
  have hpivot : pivot a f j = pivot a' f j := by rw [pivot, pivot, h j hjn j le_rfl]
  have hentry : ∀ rj, ∀ i ∈ List.range n,
      (if j < i then factorEntry a f j rj i else czero) = if j < i then factorEntry a' f j rj i else czero :=
    fun rj i hi => if_ctx_congr Iff.rfl
      (fun hji => by rw [factorEntry, factorEntry, h i (List.mem_range.mp hi) j hji.le]) fun _ => rfl
  simp only [factorStep, hpivot, List.map_congr_left (hentry _)]

end Factor

/-! ### Phase 2 (R239) -/

section InvertFactor
variable {f : Factor} {n i j : Nat}

/-- An entry of a column of L is the recurrence over the entries before it. -/
theorem invertColumn_getD (hi : i < n) :
    (invertColumn f n j).getD i czero = invertEntry f j i (invertColumn f i j) := by
  have hcol := foldl_range_emits (step := fun col i => col ++ [invertEntry f j i col]) (out := id)
    (emit := fun col i => invertEntry f j i col) (init := []) rfl (fun _ _ => rfl) n
  rw [invertColumn, ← id_eq (List.foldl ..), hcol, getD_map_range _ _ hi]
  rfl

theorem invertColumn_getD_eq {k : Nat} (hk : k < i) (hi : i ≤ n) :
    (invertColumn f i j).getD k czero = (invertColumn f n j).getD k czero := by
  rw [invertColumn_getD hk, invertColumn_getD (hk.trans_le hi)]

theorem colEntry_invertFactor_eq_getD (hj : j < n) (i : Nat) :
    colEntry (invertFactor f n) i j = (invertColumn f n j).getD i czero := by
  rw [colEntry, invertFactor, getD_map_range _ _ hj]

theorem colEntry_invertFactor_diag (hj : j < n) :
    colEntry (invertFactor f n) j j = { re := f.recip.getD j 0, im := 0 } := by
  rw [colEntry_invertFactor_eq_getD hj, invertColumn_getD hj, invertEntry, if_neg (lt_irrefl j), if_pos rfl]

/-- The sum of R239, over the entries of L above it in its column. -/
def substitutionSum (f : Factor) (l : List (List Cplx)) (i j : Nat) : Cplx :=
  (List.range (i - j)).foldl
    (fun acc k => cadd acc (cmul (colEntry f.cols i (j + k)) (colEntry l (j + k) j))) czero

/-- The entries of L below the diagonal meet the recurrence of R239. -/
theorem colEntry_invertFactor (hj : j < i) (hi : i < n) :
    colEntry (invertFactor f n) i j =
      { re := negf (mulf (f.recip.getD i 0) (substitutionSum f (invertFactor f n) i j).re),
        im := negf (mulf (f.recip.getD i 0) (substitutionSum f (invertFactor f n) i j).im) } := by
  have hjn := hj.trans hi
  have hsum : (indices j i).foldl
      (fun acc k => cadd acc (cmul (colEntry f.cols i k) ((invertColumn f i j).getD k czero))) czero =
        substitutionSum f (invertFactor f n) i j := by
    rw [substitutionSum, ← foldl_indices fun acc k =>
      cadd acc (cmul (colEntry f.cols i k) (colEntry (invertFactor f n) k j))]
    refine List.foldl_ext _ _ _ fun acc k hk => ?_
    rw [invertColumn_getD_eq (mem_indices.mp hk).2 hi.le, colEntry_invertFactor_eq_getD hjn]
  rw [colEntry_invertFactor_eq_getD hjn, invertColumn_getD hi, invertEntry, if_neg hj.not_gt, if_neg hj.ne', hsum]

end InvertFactor

/-! ### Phase 3 and the output (R240, R244) -/

/-- The sum of R240. -/
def productSum (l : List (List Cplx)) (n i j : Nat) : Cplx :=
  (List.range (n - i)).foldl
    (fun acc k => cadd acc (cmul (conj (colEntry l (i + k) i)) (colEntry l (i + k) j))) czero

section Output
variable {l : List (List Cplx)} {n i j : Nat}

theorem inverseEntry_of_lt (h : j < i) : inverseEntry l n i j = productSum l n i j := by
  rw [inverseEntry, if_pos h.le, productEntry, foldl_indices, if_neg h.ne', productSum]

theorem inverseEntry_diag : inverseEntry l n j j = { re := (productSum l n j j).re, im := 0 } := by
  rw [inverseEntry, if_pos le_rfl, productEntry, foldl_indices, if_pos rfl, productSum]

theorem inverseEntry_re_of_le (h : j ≤ i) : (inverseEntry l n i j).re = (productSum l n i j).re := by
  rcases h.eq_or_lt with rfl | h
  · rw [inverseEntry_diag]
  · rw [inverseEntry_of_lt h]

/-- Bit for bit, an entry off the diagonal is the conjugate of its mirror (R244). -/
theorem inverseEntry_mirror (h : i ≠ j) : inverseEntry l n j i = conj (inverseEntry l n i j) := by
  rcases h.lt_or_gt with h | h
  · rw [inverseEntry, inverseEntry, if_pos h.le, if_neg h.not_ge, conj_conj]
  · rw [inverseEntry, inverseEntry, if_neg h.not_ge, if_pos h.le]

variable {rsqrt : F32 → F32} {lower : List (List Cplx)}

theorem outputWord_invertLane (p : Nat) (hi : i < n) (hj : j < n) :
    outputWord (invertLane rsqrt n lower) p i j =
      if p = 0 then (inverseEntry (invertFactor (factorize rsqrt (inputEntry lower) n) n) n i j).re
      else (inverseEntry (invertFactor (factorize rsqrt (inputEntry lower) n) n) n i j).im := by
  rw [outputWord, invertLane, getD_map_range _ _ hi, getD_map_range _ _ hj]

end Output

theorem inputEntry_of_lt {lower : List (List Cplx)} {i j : Nat} (h : j < i) :
    inputEntry lower i j = (lower.getD i []).getD j czero := if_neg h.ne'

theorem inputEntry_diag (lower : List (List Cplx)) (j : Nat) :
    inputEntry lower j j = { re := ((lower.getD j []).getD j czero).re, im := 0 } := if_pos rfl

/-- Settles O40: the finished factor, its inverse and the product meet the recurrences, and the upper triangle
mirrors the lower. -/
theorem cholinvOutputIsHermitian : Obligations.CholinvOutputIsHermitian := by
  intro rsqrt n lower
  refine ⟨?phases, fun i j hi hj => ⟨fun hij => ?mirror, ?diag⟩⟩
  case phases =>
    refine ⟨inputEntry lower, colEntry (factorize rsqrt (inputEntry lower) n).cols,
      colEntry (invertFactor (factorize rsqrt (inputEntry lower) n) n),
      pivot (inputEntry lower) (factorize rsqrt (inputEntry lower) n),
      fun j => (factorize rsqrt (inputEntry lower) n).recip.getD j 0,
      fun i j _ hj => inputEntry_of_lt hj, fun j _ => inputEntry_diag lower j,
      fun j hj => ⟨recip_factorize hj, rfl⟩, fun i j hi hj => colEntry_factorize hj hi,
      fun j hj => colEntry_invertFactor_diag hj, fun i j hi hj => colEntry_invertFactor hj hi,
      fun i j hi hj => ?_, npd_factorize⟩
    have hjn := hj.trans_lt hi
    refine ⟨?_, fun hlt => ?_⟩
    · rw [outputWord_invertLane 0 hi hjn, if_pos rfl, inverseEntry_re_of_le hj]
      rfl
    · rw [outputWord_invertLane 1 hi hjn, if_neg one_ne_zero, inverseEntry_of_lt hlt]
      rfl
  case mirror =>
    simp only [outputWord_invertLane _ hi hj, outputWord_invertLane _ hj hi, inverseEntry_mirror hij]
    exact ⟨rfl, rfl⟩
  case diag =>
    rw [outputWord_invertLane 1 hj hj, if_neg one_ne_zero, inverseEntry_diag]

/-! ### Independence of the lanes (R232, R233) -/

theorem Memory.readWord_congr {m m' : Memory} {a : Nat} (h : m.agree m' a 4) : m.readWord a = m'.readWord a := by
  rw [Memory.readWord, Memory.readWord, Memory.memRead_congr h]

theorem readElem_eq_some_iff {m : Memory} {src n r c k : Nat} {x : Cplx} :
    readElem m src n r c k = some x ↔
      m.readWord (elemAddr src n 0 r c k) = some x.re ∧ m.readWord (elemAddr src n 1 r c k) = some x.im := by
  unfold readElem
  constructor
  · intro h
    split at h
    · rename_i hre him
      cases h
      exact ⟨hre, him⟩
    · cases h
  · rintro ⟨hre, him⟩
    rw [hre, him]

/-- An element of the triangle that was read for a lane. -/
theorem readElem_of_readLower {m : Memory} {src n r c k : Nat} {lower : List (List Cplx)}
    (h : readLower m src n k = some lower) (hr : r < n) (hc : c ≤ r) :
    readElem m src n r c k = some ((lower.getD r []).getD c czero) := by
  obtain ⟨hrows, hread⟩ := (readAll_eq_some_iff ..).mp h
  obtain ⟨helems, hreadRow⟩ := (readAll_eq_some_iff ..).mp
    ((hread r hr).trans (List.getElem?_eq_getElem (hrows.symm ▸ hr)))
  have hcell := hreadRow c (Nat.lt_succ_of_le hc)
  rw [List.getElem?_eq_getElem (by omega)] at hcell
  rw [hcell, List.getD_eq_getElem lower [] (by omega), List.getD_eq_getElem _ czero (by omega)]

/-- The memories agree on what R233 takes of lane `k`: the elements below the diagonal, and the real parts on it. -/
def AgreeBelowDiagonal (m m' : Memory) (src n k : Nat) : Prop :=
  ∀ p < 2, ∀ r < n, ∀ c < n, (c < r ∨ (c = r ∧ p = 0)) → m.agree m' (elemAddr src n p r c k) 4

theorem inputEntry_eq_of_agree {m m' : Memory} {src n k r c : Nat} {lower lower' : List (List Cplx)}
    (h : AgreeBelowDiagonal m m' src n k) (hl : readLower m src n k = some lower)
    (hl' : readLower m' src n k = some lower') (hr : r < n) (hc : c ≤ r) :
    inputEntry lower r c = inputEntry lower' r c := by
  obtain ⟨hre, him⟩ := readElem_eq_some_iff.mp (readElem_of_readLower hl hr hc)
  obtain ⟨hre', him'⟩ := readElem_eq_some_iff.mp (readElem_of_readLower hl' hr hc)
  have hword : ∀ p < 2, (c < r ∨ (c = r ∧ p = 0)) →
      m.readWord (elemAddr src n p r c k) = m'.readWord (elemAddr src n p r c k) :=
    fun p hp hpos => Memory.readWord_congr (h p hp r hr c (hc.trans_lt hr) hpos)
  rcases hc.eq_or_lt with rfl | hlt
  · rw [hword 0 two_pos (.inr ⟨rfl, rfl⟩)] at hre
    rw [inputEntry_diag, inputEntry_diag, Option.some.inj (hre.symm.trans hre')]
  · rw [hword 0 two_pos (.inl hlt)] at hre
    rw [hword 1 one_lt_two (.inl hlt)] at him
    rw [inputEntry_of_lt hlt, inputEntry_of_lt hlt, Cplx.mk.injEq]
    exact ⟨Option.some.inj (hre.symm.trans hre'), Option.some.inj (him.symm.trans him')⟩

theorem invertLane_congr {rsqrt : F32 → F32} {n : Nat} {lower lower' : List (List Cplx)}
    (h : ∀ r < n, ∀ c ≤ r, inputEntry lower r c = inputEntry lower' r c) :
    invertLane rsqrt n lower = invertLane rsqrt n lower' := by
  rw [invertLane, invertLane, factorize_congr h]

/-- Grids that were read hold a triangle for every lane. -/
theorem readGrids_getElem? {m : Memory} {src n k : Nat} {grids : List (List (List Cplx))}
    (h : readGrids m src n = some grids) (hk : k < lanes) :
    ∃ lower, readLower m src n k = some lower ∧ grids[k]? = some lower := by
  obtain ⟨hlen, hread⟩ := (readAll_eq_some_iff ..).mp h
  have hlane := List.getElem?_eq_getElem (hlen.symm ▸ hk : k < grids.length)
  exact ⟨_, (hread k hk).trans hlane, hlane⟩

/-- Settles O41: both runs write the same words for a lane whose triangles give the same input. -/
theorem cholinvLanesAreIndependent : Obligations.CholinvLanesAreIndependent := by
  intro n src dst s t u m k hk hagree _ ht hbusy hu p hp r hr c hc j hj
  rw [exec_cholinv] at ht hu
  rcases execCholinv_cases ht with ⟨e, w, -, rfl⟩ | ⟨herr, grids, hgrids, rfl⟩
  · cases hbusy
  rcases execCholinv_cases hu with ⟨e, w, herr', -⟩ | ⟨-, grids', hgrids', rfl⟩
  · cases herr.symm.trans herr'
  obtain ⟨lower, hlower, hlane⟩ := readGrids_getElem? hgrids hk
  obtain ⟨lower', hlower', hlane'⟩ := readGrids_getElem? hgrids' hk
  have hinv : invertLane (rsqrtBy s.params.rsqrtTable) n.toNat lower =
      invertLane (rsqrtBy s.params.rsqrtTable) n.toNat lower' :=
    invertLane_congr fun _ hr _ hc => inputEntry_eq_of_agree hagree hlower hlower' hr hc
  simp only [State.advance_pendNpd_writeBuf]
  rw [readByte_writeBytes_gridOutput _ _ (by simp [readGrids_length hgrids]) (State.laneInverses_getElem? hlane)
      hp hr hc hj,
    readByte_writeBytes_gridOutput _ _ (by simp [readGrids_length hgrids']) (State.laneInverses_getElem? hlane')
      hp hr hc hj, hinv]

/-! ### The classes of binary32 patterns (R234) -/

theorem f32IsInf_iff (x : F32) : f32IsInf x = true ↔ f32Exp x = 255 ∧ f32Frac x = 0 := by
  simp [f32IsInf]

theorem f32_cases (x : F32) : f32IsNaN x = true ∨ f32IsInf x = true ∨ f32Finite x := by
  by_cases hexp : f32Exp x = 255
  · by_cases hfrac : f32Frac x = 0
    · exact .inr (.inl ((f32IsInf_iff x).mpr ⟨hexp, hfrac⟩))
    · exact .inl (by simp [f32IsNaN, hexp, hfrac])
  · exact .inr (.inr hexp)

theorem f32Finite.isNaN {x : F32} (h : f32Finite x) : f32IsNaN x = false := by
  simp [f32IsNaN, h]

theorem f32Finite.isInf {x : F32} (h : f32Finite x) : f32IsInf x = false := by
  simp [f32IsInf, h]

theorem isNaN_of_isInf {x : F32} (h : f32IsInf x = true) : f32IsNaN x = false := by
  simp [f32IsNaN, ((f32IsInf_iff x).mp h).2]

theorem isZero_of_isInf {x : F32} (h : f32IsInf x = true) : f32IsZero x = false := by
  simp [f32IsZero, ((f32IsInf_iff x).mp h).1]

/-- A pattern is its sign, exponent and fraction. -/
theorem f32_toNat (x : F32) : x.toNat = (f32Sign x).toNat * 2 ^ 31 + f32Exp x * 2 ^ 23 + f32Frac x := by
  have hx := x.isLt
  have hsign : (f32Sign x).toNat = x.toNat / 2 ^ 31 % 2 := Nat.toNat_testBit x.toNat 31
  rw [hsign, f32Exp, f32Frac, BitVec.extractLsb'_toNat, BitVec.extractLsb'_toNat, Nat.shiftRight_eq_div_pow,
    Nat.shiftRight_zero]
  omega

theorem f32_ext {x y : F32} (hs : f32Sign x = f32Sign y) (he : f32Exp x = f32Exp y) (hf : f32Frac x = f32Frac y) :
    x = y :=
  BitVec.eq_of_toNat_eq (by rw [f32_toNat x, f32_toNat y, hs, he, hf])

/-- There are two infinities. -/
theorem eq_f32Inf_of_isInf {x : F32} (h : f32IsInf x = true) : x = f32Inf (f32Sign x) := by
  obtain ⟨he, hf⟩ := (f32IsInf_iff x).mp h
  cases hs : f32Sign x with
  | false => exact f32_ext (hs.trans (by decide)) (he.trans (by decide)) (hf.trans (by decide))
  | true => exact f32_ext (hs.trans (by decide)) (he.trans (by decide)) (hf.trans (by decide))

theorem f32Zero_notNaN (neg : Bool) : f32IsNaN (f32Zero neg) = false := by cases neg <;> decide

theorem f32Inf_notNaN (neg : Bool) : f32IsNaN (f32Inf neg) = false := by cases neg <;> decide

@[simp] theorem f32Sign_negf (x : F32) : f32Sign (negf x) = !f32Sign x := (negf_fields x).1

@[simp] theorem f32Exp_negf (x : F32) : f32Exp (negf x) = f32Exp x := (negf_fields x).2.1

@[simp] theorem f32Frac_negf (x : F32) : f32Frac (negf x) = f32Frac x := (negf_fields x).2.2

@[simp] theorem f32IsNaN_negf (x : F32) : f32IsNaN (negf x) = f32IsNaN x := by simp [f32IsNaN]

@[simp] theorem f32IsInf_negf (x : F32) : f32IsInf (negf x) = f32IsInf x := by simp [f32IsInf]

/-! ### What `addf` and `mulf` give for each class of operands (R234) -/

/-- The exact sum of two finite patterns, in units of the last place of the smaller scale. -/
def alignedSum (a b : F32) : Int :=
  f32Aligned a (min (f32Scale a) (f32Scale b)) + f32Aligned b (min (f32Scale a) (f32Scale b))

section Classes
variable {a b : F32}

theorem addf_of_nan (h : f32IsNaN a = true ∨ f32IsNaN b = true) : addf a b = f32NaN := by
  rw [addf, if_pos (by rwa [Bool.or_eq_true])]

theorem addf_of_inf_left (ha : f32IsInf a = true) (hb : f32IsNaN b = false) :
    addf a b = if f32IsInf b = true ∧ f32Sign a ≠ f32Sign b then f32NaN else a := by
  simp [addf, isNaN_of_isInf ha, ha, hb]

theorem addf_of_inf_right (ha : f32Finite a) (hb : f32IsInf b = true) : addf a b = b := by
  simp [addf, ha.isNaN, ha.isInf, isNaN_of_isInf hb, hb]

theorem addf_of_finite (ha : f32Finite a) (hb : f32Finite b) :
    addf a b = if alignedSum a b = 0 then f32Zero (f32Sign a && f32Sign b)
      else roundF32 (decide (alignedSum a b < 0)) (alignedSum a b).natAbs
        ((min (f32Scale a) (f32Scale b) : Nat) - 150) false := by
  simp only [addf, ha.isNaN, ha.isInf, hb.isNaN, hb.isInf, Bool.or_false, Bool.false_eq_true, if_false]
  rfl

theorem mulf_of_nan (h : f32IsNaN a = true ∨ f32IsNaN b = true) : mulf a b = f32NaN := by
  rw [mulf, if_pos (by rwa [Bool.or_eq_true])]

theorem mulf_of_inf_left (ha : f32IsInf a = true) (hb : f32IsNaN b = false) :
    mulf a b = if f32IsZero b = true then f32NaN else f32Inf (f32Sign a != f32Sign b) := by
  simp [mulf, isNaN_of_isInf ha, ha, hb]

theorem mulf_of_inf_right (ha : f32IsNaN a = false) (hb : f32IsInf b = true) :
    mulf a b = if f32IsZero a = true then f32NaN else f32Inf (f32Sign a != f32Sign b) := by
  by_cases hinf : f32IsInf a = true
  · rw [mulf_of_inf_left hinf (isNaN_of_isInf hb), isZero_of_isInf hinf, isZero_of_isInf hb]
  · simp [mulf, ha, hinf, isNaN_of_isInf hb, hb]

theorem mulf_of_finite (ha : f32Finite a) (hb : f32Finite b) :
    mulf a b = roundF32 (f32Sign a != f32Sign b) (f32Significand a * f32Significand b)
      ((f32Scale a : Int) + f32Scale b - 300) false := by
  simp [mulf, ha.isNaN, ha.isInf, hb.isNaN, hb.isInf]

end Classes

/-! ### NaN results (R234, R236) -/

/-- A pattern that is a NaN only as the canonical one. -/
def CanonicalIfNaN (x : F32) : Prop := f32IsNaN x = true → x = f32NaN

theorem CanonicalIfNaN.of_notNaN {x : F32} (h : f32IsNaN x = false) : CanonicalIfNaN x :=
  fun hnan => absurd (h.symm.trans hnan) Bool.false_ne_true

theorem CanonicalIfNaN.of_eq {x : F32} (h : x = f32NaN) : CanonicalIfNaN x := fun _ => h

theorem addf_canonicalIfNaN (a b : F32) : CanonicalIfNaN (addf a b) := by
  rcases f32_cases a with ha | ha | ha
  · exact .of_eq (addf_of_nan (.inl ha))
  · cases hb : f32IsNaN b with
    | true => exact .of_eq (addf_of_nan (.inr hb))
    | false =>
      rw [addf_of_inf_left ha hb]
      split
      · exact .of_eq rfl
      · exact .of_notNaN (isNaN_of_isInf ha)
  · rcases f32_cases b with hb | hb | hb
    · exact .of_eq (addf_of_nan (.inr hb))
    · rw [addf_of_inf_right ha hb]
      exact .of_notNaN (isNaN_of_isInf hb)
    · rw [addf_of_finite ha hb]
      split
      · exact .of_notNaN (f32Zero_notNaN _)
      · exact .of_notNaN (roundF32_notNaN ..)

theorem infTimes_canonicalIfNaN (zero neg : Bool) :
    CanonicalIfNaN (if zero = true then f32NaN else f32Inf neg) := by
  split
  · exact .of_eq rfl
  · exact .of_notNaN (f32Inf_notNaN neg)

theorem mulf_canonicalIfNaN (a b : F32) : CanonicalIfNaN (mulf a b) := by
  rcases f32_cases a with ha | ha | ha
  · exact .of_eq (mulf_of_nan (.inl ha))
  · cases hb : f32IsNaN b with
    | true => exact .of_eq (mulf_of_nan (.inr hb))
    | false =>
      rw [mulf_of_inf_left ha hb]
      exact infTimes_canonicalIfNaN _ _
  · rcases f32_cases b with hb | hb | hb
    · exact .of_eq (mulf_of_nan (.inr hb))
    · rw [mulf_of_inf_right ha.isNaN hb]
      exact infTimes_canonicalIfNaN _ _
    · rw [mulf_of_finite ha hb]
      exact .of_notNaN (roundF32_notNaN ..)

theorem rsqrtExact_canonicalIfNaN (x : F32) : CanonicalIfNaN (rsqrtExact x) := by
  unfold rsqrtExact
  split_ifs
  · exact .of_eq rfl
  · exact .of_notNaN (f32Inf_notNaN _)
  · exact .of_eq rfl
  · exact .of_notNaN (f32Zero_notNaN _)
  · exact .of_notNaN (roundF32_notNaN ..)
  · exact .of_notNaN (roundF32_notNaN ..)

theorem canonicalNaN_canonicalIfNaN (x : F32) : CanonicalIfNaN (canonicalNaN x) := by
  rw [canonicalNaN]
  split
  · exact .of_eq rfl
  · rename_i h
    exact .of_notNaN (Bool.eq_false_iff.mpr h)

theorem rsqrtBy_canonicalIfNaN (table : List (F32 × F32)) (x : F32) : CanonicalIfNaN (rsqrtBy table x) := by
  induction table with
  | nil => exact rsqrtExact_canonicalIfNaN x
  | cons entry table ih =>
    obtain ⟨key, value⟩ := entry
    rw [rsqrtBy]
    split
    · exact canonicalNaN_canonicalIfNaN value
    · exact ih

/-- Settles O42, operation by operation; a difference is a sum. -/
theorem nanResultsAreCanonical : Obligations.NanResultsAreCanonical := fun a b table =>
  ⟨addf_canonicalIfNaN a b, addf_canonicalIfNaN a (negf b), mulf_canonicalIfNaN a b,
    rsqrtBy_canonicalIfNaN table a⟩

/-! ### Sums and products of finite values (R234) -/

theorem f32Value_negf (x : F32) : f32Value (negf x) = -f32Value x := by
  have hsig : f32Significand (negf x) = f32Significand x := by simp [f32Significand]
  have hscale : f32Scale (negf x) = f32Scale x := by simp [f32Scale]
  rw [f32Value, f32Value, hsig, hscale, f32Sign_negf]
  cases f32Sign x <;> simp

theorem f32Aligned_mul (x : F32) {e : Nat} (he : e ≤ f32Scale x) :
    (f32Aligned x e : ℚ) * 2 ^ ((e : ℤ) - 150) = f32Value x := by
  have hpow : (2 : ℚ) ^ ((f32Scale x : ℤ) - 150) = 2 ^ (f32Scale x - e) * 2 ^ ((e : ℤ) - 150) := by
    rw [← zpow_natCast, ← zpow_add₀ two_ne_zero]
    congr 1
    omega
  rw [f32Value, hpow, f32Aligned]
  cases f32Sign x <;> simp <;> ring

theorem alignedSum_mul (a b : F32) :
    (alignedSum a b : ℚ) * 2 ^ (((min (f32Scale a) (f32Scale b) : Nat) : ℤ) - 150) = f32Value a + f32Value b := by
  rw [alignedSum, Int.cast_add, add_mul, f32Aligned_mul a (min_le_left ..), f32Aligned_mul b (min_le_right ..)]

/-- The rounding of an exact value that is a multiple of a power of two. -/
theorem roundF32_int_roundsTo {k : ℤ} (hk : k ≠ 0) (q : ℤ) :
    roundsTo (roundF32 (decide (k < 0)) k.natAbs q false) (k * 2 ^ q) (decide (k < 0)) := by
  have hround := roundF32_roundsTo (decide (k < 0)) k.natAbs q false k.natAbs (Int.natAbs_ne_zero.mpr hk) le_rfl
    (lt_add_one _) (fun _ => rfl) nofun nofun
  have hsign : (if decide (k < 0) = true then (-1 : ℝ) else 1) * k.natAbs = k := by
    rw [Nat.cast_natAbs]
    rcases lt_or_ge k 0 with h | h
    · simp [h, abs_of_neg h]
    · simp [h.not_gt, abs_of_nonneg h]
  rwa [← mul_assoc, hsign] at hround

section Finite
variable {a b : F32}

theorem addf_roundsTo (ha : f32Finite a) (hb : f32Finite b) :
    roundsTo (addf a b) ((f32Value a + f32Value b : ℚ) : ℝ)
      (if f32Value a + f32Value b = 0 then f32Sign a && f32Sign b else decide (f32Value a + f32Value b < 0)) := by
  have hunit : (0 : ℚ) < 2 ^ (((min (f32Scale a) (f32Scale b) : Nat) : ℤ) - 150) := by positivity
  rw [addf_of_finite ha hb, ← alignedSum_mul]
  by_cases hzero : alignedSum a b = 0
  · simp only [hzero, Int.cast_zero, zero_mul, if_true, Rat.cast_zero]
    exact f32Zero_roundsTo _
  · have hne : (alignedSum a b : ℚ) ≠ 0 := Int.cast_ne_zero.mpr hzero
    simp only [hzero, mul_eq_zero, hne, hunit.ne', or_self, if_false, mul_neg_iff, hunit, hunit.not_gt, and_true,
      and_false, false_or, Int.cast_lt_zero]
    push_cast
    exact_mod_cast roundF32_int_roundsTo hzero _

theorem subf_roundsTo (ha : f32Finite a) (hb : f32Finite b) :
    roundsTo (subf a b) ((f32Value a - f32Value b : ℚ) : ℝ)
      (if f32Value a - f32Value b = 0 then f32Sign a && !f32Sign b else decide (f32Value a - f32Value b < 0)) := by
  have h := addf_roundsTo (b := negf b) ha (by rwa [f32Finite, f32Exp_negf])
  rwa [f32Value_negf, f32Sign_negf, ← sub_eq_add_neg] at h

theorem f32Value_mul (a b : F32) : ((f32Value a * f32Value b : ℚ) : ℝ) =
    (if (f32Sign a != f32Sign b) = true then -1 else 1) *
      (((f32Significand a * f32Significand b : Nat) : ℝ) * 2 ^ ((f32Scale a : ℤ) + f32Scale b - 300)) := by
  have hpow : (2 : ℝ) ^ ((f32Scale a : ℤ) + f32Scale b - 300) =
      2 ^ ((f32Scale a : ℤ) - 150) * 2 ^ ((f32Scale b : ℤ) - 150) := by
    rw [← zpow_add₀ two_ne_zero]
    congr 1
    ring
  rw [Rat.cast_mul, f32Value_eq, f32Value_eq, hpow, Nat.cast_mul]
  cases f32Sign a <;> cases f32Sign b <;> simp <;> ring

theorem mulf_roundsTo (ha : f32Finite a) (hb : f32Finite b) :
    roundsTo (mulf a b) ((f32Value a * f32Value b : ℚ) : ℝ) (f32Sign a != f32Sign b) := by
  rw [mulf_of_finite ha hb, f32Value_mul]
  by_cases hzero : f32Significand a * f32Significand b = 0
  · rw [hzero, roundF32, if_pos rfl, Nat.cast_zero, zero_mul, mul_zero]
    exact f32Zero_roundsTo _
  · exact roundF32_roundsTo _ _ _ false _ hzero le_rfl (lt_add_one _) (fun _ => rfl) nofun nofun

end Finite

theorem subf_of_nan {a b : F32} (h : f32IsNaN a = true ∨ f32IsNaN b = true) : subf a b = f32NaN :=
  addf_of_nan (by rwa [f32IsNaN_negf])

theorem addf_comm_of_inf {a b : F32} (ha : f32IsInf a = true) (hb : f32IsNaN b = false) : addf b a = addf a b := by
  rw [addf_of_inf_left ha hb]
  rcases f32_cases b with h | h | h
  · exact absurd (hb.symm.trans h) Bool.false_ne_true
  · rw [addf_of_inf_left h (isNaN_of_isInf ha)]
    by_cases hs : f32Sign a = f32Sign b
    · rw [if_neg (fun hne => hne.2 hs.symm), if_neg (fun hne => hne.2 hs), eq_f32Inf_of_isInf ha,
        eq_f32Inf_of_isInf h, hs]
    · rw [if_pos ⟨ha, Ne.symm hs⟩, if_pos ⟨h, hs⟩]
  · rw [addf_of_inf_right h ha, h.isInf, if_neg (fun hne => Bool.false_ne_true hne.1)]

/-- Settles O43: finite operands, the sum of two zeros, a NaN operand, an infinite one. -/
theorem sumsAndProductsAreRounded : Obligations.SumsAndProductsAreRounded := by
  refine ⟨fun a b ha hb => ⟨addf_roundsTo ha hb, subf_roundsTo ha hb, mulf_roundsTo ha hb⟩, by decide,
    fun a b h => ⟨addf_of_nan h, subf_of_nan h, mulf_of_nan h⟩, fun a b ha hb => ?infinite⟩
  case infinite =>
    refine ⟨addf_of_inf_left ha hb, ?sub, ?mul, addf_comm_of_inf ha hb, ?mulComm, ?subInf⟩
    case sub =>
      rw [subf, addf_of_inf_left ha (by rwa [f32IsNaN_negf])]
      simp [f32NaN]
    case mul =>
      rw [mulf_of_inf_left ha hb]
      cases f32Sign a <;> cases f32Sign b <;> rfl
    case mulComm => rw [mulf_of_inf_left ha hb, mulf_of_inf_right hb ha, bne_comm]
    case subInf => exact fun hfin => addf_of_inf_right hfin (by rwa [f32IsInf_negf])

/-! ### RSQRT (R236) -/

/-- The square root is of a quotient at least 2^55, so it has more than 24 bits. -/
theorem isqrt_quotient_spec {m : Nat} (h0 : 0 < m) (h25 : m < 2 ^ 25) :
    isqrt (2 ^ 80 / m) * isqrt (2 ^ 80 / m) * m ≤ 2 ^ 80 ∧
      2 ^ 80 < (isqrt (2 ^ 80 / m) + 1) * (isqrt (2 ^ 80 / m) + 1) * m ∧ 2 ^ 24 ≤ isqrt (2 ^ 80 / m) := by
  have hquot : 2 ^ 80 / m < (0 + 2 ^ 41) * (0 + 2 ^ 41) := (Nat.div_le_self ..).trans_lt (by norm_num)
  obtain ⟨hle, hlt⟩ := isqrtFrom_spec 41 (2 ^ 80 / m) 0 (Nat.zero_le _) hquot
  rw [← isqrt] at hle hlt
  rw [Nat.le_div_iff_mul_le h0] at hle
  rw [Nat.div_lt_iff_lt_mul h0] at hlt
  refine ⟨hle, hlt, ?_⟩
  by_contra hsmall
  have hroot : isqrt (2 ^ 80 / m) + 1 ≤ 2 ^ 24 := by omega
  have hbound := Nat.mul_le_mul (Nat.mul_le_mul hroot hroot) h25.le
  norm_num at hlt hbound
  omega

/-- The integer root with its sticky bit stands for the real root, rounded once. -/
theorem rsqrtScaled_roundsTo {m : Nat} (h0 : 0 < m) (h25 : m < 2 ^ 25) (h : ℤ) :
    roundsTo (rsqrtScaled m h) (1 / √(m * 2 ^ (2 * h))) false := by
  obtain ⟨hle, hlt, hbits⟩ := isqrt_quotient_spec h0 h25
  rw [rsqrtScaled]
  generalize isqrt (2 ^ 80 / m) = root at hle hlt hbits ⊢
  have hm : (0 : ℝ) < m := Nat.cast_pos.mpr h0
  have hroot : (0 : ℝ) ≤ root := Nat.cast_nonneg root
  have hexact : 1 / √((m : ℝ) * 2 ^ (2 * h)) = √(2 ^ 80 / m) * 2 ^ (-40 - h) := by
    have hpow : (2 : ℝ) ^ (2 * h) = (2 ^ h) ^ 2 := by rw [mul_comm, zpow_mul]; norm_cast
    have h80 : √((2 : ℝ) ^ 80) = 2 ^ 40 := by
      rw [show (2 : ℝ) ^ 80 = (2 ^ 40) ^ 2 by norm_num, Real.sqrt_sq (by positivity)]
    rw [hpow, Real.sqrt_mul hm.le, Real.sqrt_sq (by positivity), Real.sqrt_div (by positivity), h80,
      zpow_sub₀ two_ne_zero, zpow_neg]
    norm_num
    field_simp
  have hcast (k : ℕ) : ((k * k * m : ℕ) : ℝ) = (k : ℝ) ^ 2 * m := by push_cast; ring
  have hsquare : (root : ℝ) ^ 2 ≤ 2 ^ 80 / m := by
    rw [le_div_iff₀ hm, ← hcast]
    exact_mod_cast hle
  have hbelow : √(2 ^ 80 / m) < (root : ℝ) + 1 := by
    rw [Real.sqrt_lt' (by positivity), div_lt_iff₀ hm]
    have := hcast (root + 1)
    push_cast at this
    rw [← this]
    exact_mod_cast hlt
  have hround := roundF32_roundsTo false root (-40 - h) (decide (root * root * m ≠ 2 ^ 80)) (√(2 ^ 80 / m))
    (by omega) (Real.le_sqrt_of_sq_le hsquare) hbelow ?exact ?inexact fun _ => hbits
  case exact =>
    intro hst
    have heq : root * root * m = 2 ^ 80 := by simpa using hst
    have : (2 : ℝ) ^ 80 / m = (root : ℝ) ^ 2 := by
      rw [div_eq_iff hm.ne', ← hcast, heq]
      norm_num
    rw [this, Real.sqrt_sq hroot]
  case inexact =>
    intro hst
    have hne : root * root * m ≠ 2 ^ 80 := by simpa using hst
    refine Real.lt_sqrt_of_sq_lt ?_
    rw [lt_div_iff₀ hm, ← hcast]
    exact_mod_cast lt_of_le_of_ne hle hne
  rwa [if_neg Bool.false_ne_true, one_mul, ← hexact] at hround

theorem f32Significand_eq_zero_iff (x : F32) : f32Significand x = 0 ↔ f32IsZero x = true := by
  by_cases he : f32Exp x = 0 <;> simp [f32Significand, f32IsZero, he]

/-- A positive pattern has a significand and no sign. -/
theorem f32Value_of_positive {x : F32} (hpos : positivef x = true) :
    0 < f32Significand x ∧ (f32Value x : ℝ) = f32Significand x * 2 ^ ((f32Scale x : ℤ) - 150) := by
  simp only [positivef, Bool.and_eq_true, Bool.not_eq_true'] at hpos
  obtain ⟨⟨-, hsign⟩, hzero⟩ := hpos
  refine ⟨?_, by rw [f32Value_eq, hsign, if_neg Bool.false_ne_true, one_mul]⟩
  rw [Nat.pos_iff_ne_zero, ne_eq, f32Significand_eq_zero_iff, hzero]
  exact Bool.false_ne_true

/-- The positive finite values lie between the smallest subnormal and 2^128. -/
theorem f32Value_bounds {x : F32} (hfin : f32Finite x) (hpos : positivef x = true) :
    (2 : ℝ) ^ (-149 : ℤ) ≤ f32Value x ∧ (f32Value x : ℝ) ≤ 2 ^ (128 : ℤ) := by
  obtain ⟨hsig, hvalue⟩ := f32Value_of_positive hpos
  obtain ⟨hlt, hscale⟩ := f32Significand_lt x
  have hexp : f32Scale x ≤ 254 := by
    have hlt : f32Exp x < 256 := (x.extractLsb' 23 8).isLt
    have hne : f32Exp x ≠ 255 := hfin
    rw [f32Scale]
    split <;> omega
  have hsig1 : (1 : ℝ) ≤ f32Significand x := by exact_mod_cast hsig
  have hsig24 : (f32Significand x : ℝ) ≤ 2 ^ (24 : ℤ) := by exact_mod_cast hlt.le
  have hlow : (2 : ℝ) ^ (-149 : ℤ) ≤ 2 ^ ((f32Scale x : ℤ) - 150) :=
    zpow_le_zpow_right₀ one_le_two (by omega)
  have hhigh : (2 : ℝ) ^ ((f32Scale x : ℤ) - 150) ≤ 2 ^ (104 : ℤ) := zpow_le_zpow_right₀ one_le_two (by omega)
  rw [hvalue]
  constructor
  · calc (2 : ℝ) ^ (-149 : ℤ) = 1 * 2 ^ (-149 : ℤ) := (one_mul _).symm
      _ ≤ _ := mul_le_mul hsig1 hlow (by positivity) (by positivity)
  · calc _ ≤ (2 : ℝ) ^ (24 : ℤ) * 2 ^ (104 : ℤ) := mul_le_mul hsig24 hhigh (by positivity) (by positivity)
      _ = 2 ^ (128 : ℤ) := by rw [← zpow_add₀ two_ne_zero]; rfl

/-- The roots of positive finite values are far from both ends of the finite values. -/
theorem one_div_sqrt_bounds {v : ℝ} (hlow : (2 : ℝ) ^ (-149 : ℤ) ≤ v) (hhigh : v ≤ 2 ^ (128 : ℤ)) :
    (2 : ℝ) ^ (-64 : ℤ) ≤ 1 / √v ∧ 1 / √v ≤ 2 ^ (75 : ℤ) := by
  have hpos : 0 < √v := Real.sqrt_pos.mpr (lt_of_lt_of_le (by positivity) hlow)
  rw [le_div_iff₀ hpos, div_le_iff₀ hpos]
  have hupper : √v ≤ 2 ^ (64 : ℤ) := Real.sqrt_le_iff.mpr ⟨by positivity, hhigh.trans (by norm_num)⟩
  have hlower : (2 : ℝ) ^ (-75 : ℤ) ≤ √v := Real.le_sqrt_of_sq_le (le_trans (by norm_num) hlow)
  constructor
  · calc (2 : ℝ) ^ (-64 : ℤ) * √v ≤ 2 ^ (-64 : ℤ) * 2 ^ (64 : ℤ) := by gcongr
      _ = 1 := by norm_num
  · calc (1 : ℝ) = 2 ^ (75 : ℤ) * 2 ^ (-75 : ℤ) := by norm_num
      _ ≤ 2 ^ (75 : ℤ) * √v := by gcongr

/-- A positive finite value is an integer of at most 25 bits times an even power of two, and RSQRT is computed from
the two. -/
theorem rsqrtExact_of_positive {x : F32} (hfin : f32Finite x) (hpos : positivef x = true) :
    ∃ (m : Nat) (h : ℤ), 0 < m ∧ m < 2 ^ 25 ∧ rsqrtExact x = rsqrtScaled m h ∧
      (f32Value x : ℝ) = m * 2 ^ (2 * h) := by
  obtain ⟨hsig, hvalue⟩ := f32Value_of_positive hpos
  have hlt := (f32Significand_lt x).1
  simp only [positivef, Bool.and_eq_true, Bool.not_eq_true'] at hpos
  obtain ⟨⟨hnan, hsign⟩, hzero⟩ := hpos
  simp only [rsqrtExact, hnan, hzero, hsign, hfin.isInf, Bool.false_eq_true, if_false]
  by_cases heven : f32Scale x % 2 = 0
  · refine ⟨f32Significand x, ((f32Scale x : ℤ) - 150) / 2, hsig, by omega, if_pos heven, ?_⟩
    rw [hvalue, Int.mul_ediv_cancel' (by omega)]
  · refine ⟨2 * f32Significand x, ((f32Scale x : ℤ) - 151) / 2, by omega, by omega, if_neg heven, ?_⟩
    rw [hvalue, Int.mul_ediv_cancel' (by omega), show (f32Scale x : ℤ) - 150 = (f32Scale x - 151) + 1 by ring,
      zpow_add_one₀ two_ne_zero]
    push_cast
    ring

theorem rsqrtExact_roundsTo {x : F32} (hfin : f32Finite x) (hpos : positivef x = true) :
    roundsTo (rsqrtExact x) (1 / √(f32Value x : ℝ)) false := by
  obtain ⟨m, h, h0, h25, hrsqrt, hvalue⟩ := rsqrtExact_of_positive hfin hpos
  rw [hrsqrt, hvalue]
  exact rsqrtScaled_roundsTo h0 h25 h

theorem f32HalfUlp_cast (y : F32) : ((f32HalfUlp y : ℚ) : ℝ) = 2 ^ ((f32Scale y : ℤ) - 151) := by
  rw [f32HalfUlp]
  push_cast
  rfl

/-- A pattern without sign that is near enough to a value that zero is not near to is positive. -/
theorem positivef_of_near {y : F32} {x : ℝ} (hfin : f32Finite y) (hsign : f32Sign y = false)
    (hx : (2 : ℝ) ^ (-64 : ℤ) ≤ x) (hnear : |(f32Value y : ℝ) - x| ≤ f32HalfUlp y) : positivef y = true := by
  cases hzero : f32IsZero y with
  | false => simp [positivef, hfin.isNaN, hsign, hzero]
  | true =>
    have hvalue : (f32Value y : ℝ) = 0 := by
      rw [f32Value_eq, (f32Significand_eq_zero_iff y).mpr hzero, Nat.cast_zero, zero_mul, mul_zero]
    have hscale : f32Scale y = 1 := by
      simp only [f32IsZero, Bool.and_eq_true, beq_iff_eq] at hzero
      exact if_pos hzero.1
    rw [hvalue, zero_sub, abs_neg, f32HalfUlp_cast, hscale] at hnear
    have hsmall : (2 : ℝ) ^ (((1 : ℕ) : ℤ) - 151) < 2 ^ (-64 : ℤ) := by norm_num
    exact absurd ((le_abs_self x).trans hnear) (not_le.mpr (hsmall.trans_le hx))

theorem f32HalfUlp_le_of_positive {y : F32} (hpos : positivef y = true) : (f32HalfUlp y : ℝ) ≤ f32Value y := by
  obtain ⟨hsig, hvalue⟩ := f32Value_of_positive hpos
  have hsig1 : (1 : ℝ) ≤ f32Significand y := by exact_mod_cast hsig
  rw [hvalue, f32HalfUlp_cast]
  calc (2 : ℝ) ^ ((f32Scale y : ℤ) - 151) ≤ 2 ^ ((f32Scale y : ℤ) - 150) :=
        zpow_le_zpow_right₀ one_le_two (by omega)
    _ ≤ _ := le_mul_of_one_le_left (by positivity) hsig1

/-- An interval that holds the root, in squares. -/
theorem one_between_squares {v y h : ℝ} (hv : 0 < v) (hle : h ≤ y) (hnear : |y - 1 / √v| ≤ h) :
    (y - h) ^ 2 * v ≤ 1 ∧ 1 ≤ (y + h) ^ 2 * v := by
  have hroot : (1 / √v) ^ 2 * v = 1 := by
    rw [div_pow, Real.sq_sqrt hv.le, one_pow, one_div_mul_cancel hv.ne']
  have hnonneg : 0 ≤ 1 / √v := by positivity
  obtain ⟨hbelow, habove⟩ := abs_le.mp hnear
  constructor
  · calc (y - h) ^ 2 * v ≤ (1 / √v) ^ 2 * v :=
          mul_le_mul_of_nonneg_right (pow_le_pow_left₀ (sub_nonneg.mpr hle) (by linarith) 2) hv.le
      _ = 1 := hroot
  · calc 1 = (1 / √v) ^ 2 * v := hroot.symm
      _ ≤ (y + h) ^ 2 * v := mul_le_mul_of_nonneg_right (pow_le_pow_left₀ hnonneg (by linarith) 2) hv.le

theorem rsqrtExact_of_nan {x : F32} (h : f32IsNaN x = true) : rsqrtExact x = f32NaN := if_pos h

theorem rsqrtExact_of_negative {x : F32} (hsign : f32Sign x = true) (hzero : f32IsZero x = false) :
    rsqrtExact x = f32NaN := by
  simp [rsqrtExact, hsign, hzero]

/-- Settles O44: the special cases, and the rounding of a root that lies well inside the finite range. -/
theorem defaultRsqrtIsRounded : Obligations.DefaultRsqrtIsRounded := by
  refine ⟨by decide, fun x hx => hx.elim rsqrtExact_of_nan fun hneg => rsqrtExact_of_negative hneg.1 hneg.2,
    fun x hfin hpos => ?positive⟩
  case positive =>
    obtain ⟨hlow, hhigh⟩ := f32Value_bounds hfin hpos
    obtain ⟨hrootLow, hrootHigh⟩ := one_div_sqrt_bounds hlow hhigh
    have hv : (0 : ℝ) < f32Value x := lt_of_lt_of_le (by positivity) hlow
    have hrange : |1 / √(f32Value x : ℝ)| < 2 ^ 128 - 2 ^ 103 := by
      rw [abs_of_nonneg (by positivity)]
      exact hrootHigh.trans_lt (by norm_num)
    obtain ⟨hyfin, hysign, hnearest⟩ := (rsqrtExact_roundsTo hfin hpos).1 hrange
    have hnear := hnearest.2.1
    have hypos := positivef_of_near hyfin hysign hrootLow hnear
    have hsquares := one_between_squares hv (f32HalfUlp_le_of_positive hypos) hnear
    exact ⟨hyfin, hypos, hnearest, by exact_mod_cast hsquares.1, by exact_mod_cast hsquares.2⟩

end Sys2Proof.Machine

/-!
60_exceptions.md: error entry, the checks of a command (which look at no BUF byte), and the order of the checks of the
decoder.
-/
namespace Sys2Proof.Machine

/-! ### Error entry (R260, R265) -/

/-- Settles O9: an ENGINE in ERROR is stopped. -/
theorem errorEntryWritesItsRegisters : Obligations.ErrorEntryWritesItsRegisters := by
  intro s e info
  refine ⟨rfl, ?stopped, rfl, rfl, rfl, rfl, rfl⟩
  case stopped =>
    intro t h hinbox
    obtain rfl := (raise_eq_next_iff e info s t).mp h
    have hs : (s.enterError e info).engState ≠ .busy := by simp
    rw [step_of_inbox_nil hinbox, engineTurn_of_stopped hs]

/-! ### The checks of a command look at no BUF byte (R263, R264) -/

@[simp] theorem State.firstOutside_with_buf (s : State) (m : Memory) (rs : List (Word × Nat)) :
    State.firstOutside { s with buf := m } rs = s.firstOutside rs := by
  induction rs with
  | nil => rfl
  | cons r rs ih => rw [State.firstOutside, State.firstOutside, ih]

@[simp] theorem State.demapError_with_buf (s : State) (m : Memory) (order : Modulation) (w0 : Word) (lyr : Layers)
    (nsc : Subcarriers) (sel : List Nat) (sym beta winv : Word) :
    State.demapError { s with buf := m } order w0 lyr nsc sel sym beta winv =
      s.demapError order w0 lyr nsc sel sym beta winv := by
  simp [State.demapError, State.demapRegions]

@[simp] theorem State.cholinvError_with_buf (s : State) (m : Memory) (n : BitVec 5) (src dst : Word) :
    State.cholinvError { s with buf := m } n src dst = s.cholinvError n src dst := by
  simp [State.cholinvError]

/-! ### A command that ends in ERROR (R264, R265) -/

/-- `t` is error entry from `s`, and the command raises the same error whatever BUF holds. -/
def RaisesForAnyBuf (i : Instr) (s t : State) : Prop :=
  ∃ e info, t = s.enterError e info ∧
    ∀ m : Memory, exec i { s with buf := m } = .next (State.enterError { s with buf := m } e info)

section Raises
variable {i : Instr} {s t : State}

theorem raisesForAnyBuf_of_jump {a : Word} (hs : s.engState = .busy) (h : exec (.jump a) s = .next t)
    (ht : t.engState = .error) : RaisesForAnyBuf (.jump a) s t := by
  rcases execJump_cases h with ⟨ha, rfl⟩ | ⟨-, rfl⟩
  · exact ⟨.misaligned, a, rfl, fun m => exec_jump_of_misaligned ha _⟩
  · simp [hs] at ht

theorem raisesForAnyBuf_of_demapOver {order : Modulation} {w0 : Word} {lyr : Layers} {nsc : Subcarriers}
    {sel : List Nat} {sym beta winv : Word} (hs : s.engState = .busy)
    (h : demapOver order w0 lyr nsc sel sym beta winv s = .next t) (ht : t.engState = .error)
    (hi : ∀ m : Memory, exec i { s with buf := m } =
      demapOver order w0 lyr nsc sel sym beta winv { s with buf := m }) : RaisesForAnyBuf i s t := by
  rcases demapOver_cases h with ⟨e, w, he, rfl⟩ | ⟨-, batch, -, rfl⟩
  · refine ⟨e, w, rfl, fun m => ?_⟩
    rw [hi, demapOver_raises (by rwa [State.demapError_with_buf])]
  · simp [hs] at ht

theorem raisesForAnyBuf_of_cholinv {n : BitVec 5} {src dst : Word} (hs : s.engState = .busy)
    (h : exec (.cholinv n src dst) s = .next t) (ht : t.engState = .error) :
    RaisesForAnyBuf (.cholinv n src dst) s t := by
  rcases execCholinv_cases h with ⟨e, w, he, rfl⟩ | ⟨-, grids, -, rfl⟩
  · refine ⟨e, w, rfl, fun m => ?_⟩
    rw [exec_cholinv, execCholinv_raises (by rwa [State.cholinvError_with_buf])]
  · simp [State.pendNpd_eq, hs] at ht

/-- NOP, END, SETOUT and CONFIG never raise; the others raise by checks that come before their reads. -/
theorem exec_raisesForAnyBuf (hs : s.engState = .busy) (h : exec i s = .next t) (ht : t.engState = .error) :
    RaisesForAnyBuf i s t := by
  cases i with
  | nop | endList | setout | config => cases h; simp [hs] at ht
  | jump a => exact raisesForAnyBuf_of_jump hs h ht
  | cholinv => exact raisesForAnyBuf_of_cholinv hs h ht
  | _ => exact raisesForAnyBuf_of_demapOver hs h ht fun _ => rfl

end Raises

/-- Settles O10. -/
theorem errorsArePrecise : Obligations.ErrorsArePrecise :=
  fun _ _ _ hs h ht => exec_raisesForAnyBuf hs h ht

/-! ### The decoder's checks (R262, 30_encoding.md R106, R108) -/

theorem Modulation.ofCode_eq_none_iff (c : BitVec 3) : Modulation.ofCode c = none ↔ 5 ≤ c.toNat := by
  revert c
  decide

section Decoder
variable {d : Descriptor} {op : BitVec 4}

theorem decodeWords_of_illegalOpcode (hop : 8 ≤ (opOf d.w0).toNat) : decodeWords d = .error .illegalOpcode :=
  if_pos hop

/-- Past the checks of the opcode and of the reserved bits only the fields count. -/
theorem decodeWords_of_carriesOpcode (hlt : op.toNat < 8) (hop : CarriesOpcode d.w0 op) :
    decodeWords d = decodeFields op d := by
  obtain ⟨rfl, hres⟩ := hop
  exact (if_neg (Nat.not_le_of_lt hlt)).trans (if_neg (not_not.mpr hres))

theorem decodeDemap_eq_error_iff (d : Descriptor) (e : ErrorCode) :
    decodeDemap d = .error e ↔ 5 ≤ (d.w0.extractLsb' 4 3).toNat ∧ e = .invalidConfig := by
  rw [← Modulation.ofCode_eq_none_iff, decodeDemap]
  split <;> simp [*, eq_comm]

theorem decodeDmrs_eq_error_iff (d : Descriptor) (e : ErrorCode) :
    decodeDmrs d = .error e ↔ 5 ≤ (d.w0.extractLsb' 4 3).toNat ∧ e = .invalidConfig := by
  rw [← Modulation.ofCode_eq_none_iff, decodeDmrs]
  split <;> simp [*, eq_comm]

theorem decodeCholinv_eq_error_iff (d : Descriptor) (e : ErrorCode) :
    decodeCholinv d = .error e ↔ ¬ legalSize (d.w0.extractLsb' 4 5) ∧ e = .invalidConfig := by
  simp only [decodeCholinv]
  split
  · rename_i hn
    exact iff_of_false nofun fun h => h.1 hn
  · rename_i hn
    rw [Except.error.injEq, and_iff_right hn, eq_comm]

/-- The field values that no command has: MOD of 5 to 7 (R105) and N outside 2 to 16 (R103). -/
def BadFields (op : BitVec 4) (w0 : Word) : Prop :=
  (op = 5 ∨ op = 6) ∧ 5 ≤ (w0.extractLsb' 4 3).toNat ∨ op = 7 ∧ ¬ legalSize (w0.extractLsb' 4 5)

/-- INVALID_CONFIG is the only error left once the opcode and the reserved bits are accepted. -/
theorem decodeFields_eq_error_iff (hlt : op.toNat < 8) (e : ErrorCode) :
    decodeFields op d = .error e ↔ BadFields op d.w0 ∧ e = .invalidConfig := by
  rcases valid_opcode_cases op hlt with rfl | rfl | rfl | rfl | rfl | rfl | rfl | rfl
  rotate_left 5
  · exact (decodeDemap_eq_error_iff d e).trans (by simp [BadFields])
  · exact (decodeDmrs_eq_error_iff d e).trans (by simp [BadFields])
  · exact (decodeCholinv_eq_error_iff d e).trans (by simp [BadFields])
  all_goals exact iff_of_false nofun (by simp [BadFields])

end Decoder

/-- Settles O12: the checks of R262 in turn, the last by what the fields alone can give. -/
theorem decodeErrorsInOrder : Obligations.DecodeErrorsInOrder := by
  intro d
  refine ⟨decodeWords_of_illegalOpcode, decodeWords_of_reserved rfl, fun hlt hres => ?fields⟩
  case fields =>
    rw [decodeWords_of_carriesOpcode hlt ⟨rfl, hres⟩]
    have herror := fun e => decodeFields_eq_error_iff (d := d) hlt e
    refine ⟨(herror .invalidConfig).trans (and_iff_left rfl), fun hne => ?total⟩
    case total =>
      cases hd : decodeFields (opOf d.w0) d with
      | ok i => exact ⟨i, rfl⟩
      | error e =>
        obtain ⟨-, rfl⟩ := (herror e).mp hd
        exact absurd hd hne

end Sys2Proof.Machine

/-!
70_reset_and_hazards.md: what a soft reset answers, one equation per state in which it can find the ENGINE, and what
it leaves in BUF.
-/
namespace Sys2Proof.Machine

section SoftReset
variable {s : State} {d : Descriptor} {i : Instr} {e : ErrorCode}

/-! ### The interrupted command (R293) -/

theorem State.interrupted_of_rejected (he : decodeWords d = .error e) : s.interrupted d = s := by
  rw [State.interrupted, he]

theorem State.interrupted_of_decoded (hi : decodeWords d = .ok i) :
    s.interrupted d = s.scramble (s.writeSet i).1 (s.writeSet i).2 := by
  rw [State.interrupted, hi]

/-- The free bytes stay inside the write set. -/
theorem State.interrupted_readByte_outside (hi : decodeWords d = .ok i) {a : Nat}
    (ha : a < (s.writeSet i).1 ∨ (s.writeSet i).1 + (s.writeSet i).2 ≤ a) :
    (s.interrupted d).buf.readByte a = s.buf.readByte a := by
  rw [State.interrupted_of_decoded hi, State.scramble_buf]
  exact Memory.readByte_writeBytes_outside _ _ _ _ (by rwa [freeBytes_length])

/-- An interrupted command reaches the state after the reset only through BUF and the drawn free bytes. -/
theorem State.interrupted_resetCsrs (s : State) (d : Descriptor) :
    (s.interrupted d).resetCsrs =
      { s.resetCsrs with buf := (s.interrupted d).buf, freeIdx := (s.interrupted d).freeIdx } := by
  rcases s.interrupted_cases d with h | ⟨i, -, h⟩ <;> rw [h] <;> rfl

/-- The write set does not depend on the port's latest answer. -/
@[simp] theorem State.writeSet_respond (s : State) (r : HostResp) (i : Instr) :
    (s.respond r).writeSet i = s.writeSet i := by
  cases i <;> rfl

/-! ### Soft reset, one equation per state of the ENGINE and outcome of the fetch (R292, R293) -/

theorem softReset_of_stopped (hs : s.engState ≠ .busy) : softReset s = .next s.resetCsrs := by
  unfold softReset
  cases h : s.engState with
  | busy => exact absurd h hs
  | idle | error => rfl

theorem softReset_of_fetched (hs : s.engState = .busy) (hf : s.fetch = .ok d) :
    softReset s = .next (s.interrupted d).resetCsrs := by
  simp only [softReset, hs, hf]

theorem softReset_of_outside (hs : s.engState = .busy) (hf : s.fetch = .error .outside) :
    softReset s = .next s.resetCsrs := by
  simp only [softReset, hs, hf]

theorem softReset_of_uninit (hs : s.engState = .busy) (hf : s.fetch = .error .uninit) :
    softReset s = .next ((s.drawn 16).interrupted s.freeDescriptor).resetCsrs := by
  simp only [softReset, hs, hf]

/-- A CTRL write with SOFT_RESET is that alone: CLEAR and START of the same write do nothing (10_state.md R50). -/
theorem hostWrite_ctrl_softReset {v : Word} (hv : v.getLsbD 2 = true) (s : State) :
    hostAccess (.write 0x008 4 v) s = softReset (s.respond .okayWrite) := by
  rw [hostWrite_csr (c := .ctrl) rfl, writeCsr, writeCtrl, if_pos hv]

end SoftReset

/-- Settles O54: the ENGINE stopped, then BUSY with each outcome of the fetch and of the decoder. -/
theorem softResetKeepsBuf : Obligations.SoftResetKeepsBuf := by
  intro s v hv
  rw [hostWrite_ctrl_softReset hv]
  refine ⟨?stopped, ?decoded, ?rejected, ?outside, ?unwritten⟩
  case stopped => exact fun hs => softReset_of_stopped (s := s.respond .okayWrite) hs
  case decoded =>
    intro d i hs hf hi
    refine ⟨_, softReset_of_fetched (s := s.respond .okayWrite) hs hf, fun a ha => ?_,
      State.interrupted_resetCsrs _ d⟩
    exact State.interrupted_readByte_outside (s := s.respond .okayWrite) hi (by rwa [State.writeSet_respond])
  case rejected =>
    intro d e hs hf he
    rw [softReset_of_fetched (s := s.respond .okayWrite) hs hf, State.interrupted_of_rejected he]
    rfl
  case outside =>
    exact fun hs hr => softReset_of_outside (s := s.respond .okayWrite) hs (State.fetch_of_outside hr)
  case unwritten =>
    exact fun hs hr hu => ⟨_, softReset_of_uninit (s := s.respond .okayWrite) hs (State.fetch_of_unwritten hr hu),
      State.interrupted_resetCsrs _ _⟩

end Sys2Proof.Machine
